-- ==== Sys2Proof/Word.lean ====
section
/-! DEFINITION. The widths of MSPE's values (00_scope.md R8, R9): bytes, 16-bit and 32-bit unsigned values, byte sequences. -/

namespace Sys2Proof

/-- A byte, an 8-bit unsigned value (R9). -/
abbrev Byte := BitVec 8

/-- `u16`: command codes, lengths and the cursor (R8). -/
abbrev Half := BitVec 16

/-- `u32`, the widest marshalable integer (R8). -/
abbrev Word := BitVec 32

/-- A byte sequence `[b0, b1, ...]` with `b0` first (R9). -/
abbrev Bytes := List Byte

end Sys2Proof
end

