-- ==== Sys2Proof/Config.lean ====
section
/-! DEFINITION. What is fixed when MSPE is built (00_scope.md R7), and the free values: constants without a body, which no
proof can evaluate (R10 `draw T`; log 9). -/

namespace Sys2Proof

/-- The wire format a frame came in, `FR.VER` (10_state.md R25). -/
inductive Version
  | v1
  | v2
deriving DecidableEq, Repr, Inhabited

/-- What ENC2 emits as its payload region (41_frame_encode.md R115). -/
inductive V2Payload
  | zeroFill
  | verbatim
deriving DecidableEq, Repr, Inhabited

/-- The configuration record `Cfg` of R7. It is no state: a constant of the step (10_state.md R34). -/
structure Cfg where
  /-- `V2_CRC_ENFORCE` (42_frame_decode.md R129) -/
  v2CrcEnforce : Bool
  /-- `V2_ENC_PAYLOAD` (41_frame_encode.md R115) -/
  v2EncPayload : V2Payload
  /-- `V2_ENC_FLAGS` (R114) -/
  v2EncFlags : Byte
  /-- `PAYLOAD_CAP`, the size of the payload buffer (R7, D24; log 29) -/
  payloadCap : Nat
  /-- `V1_MAX_PAYLOAD` (R7) -/
  v1MaxPayload : Nat
deriving DecidableEq, Repr

/-- `V2_ENC_PAYLOAD` is OPEN (R7, D11): either value (log 17). -/
opaque Config.v2EncPayload : V2Payload

/-- `REBOOT_DELAY`, OPEN, the host's (70_reset_and_hazards.md R235, D38): no rule of MSPE reads it (log 23). -/
opaque Config.rebootDelay : Nat

/-- The parameters of this hardware, R7's table. -/
def Config.hardware : Cfg :=
  { v2CrcEnforce := false
    v2EncPayload := Config.v2EncPayload
    v2EncFlags := 0x00#8
    payloadCap := 65535
    v1MaxPayload := 255 }

/-! The free values. Each is applied to the number of the draw (`State.draws`), so each draw is free of the others. -/

/-- `ATTACHED <- draw Bool` after a transport error (10_state.md R23). -/
opaque Config.freeAttached : Nat → Bool

/-- Whether ATT answers `Opened` when the environment has given no answer beforehand (44_transport_ops.md R172; log 3). -/
opaque Config.freeOpened : Nat → Bool

/-- `chk <- draw u8` for a V2 frame whose CRC is not enforced (10_state.md R26). -/
opaque Config.freeChk : Nat → Byte

/-- Where the cursor stands after a failed UNM, before it is bounded (43_marshal.md R151). -/
opaque Config.freeCursor : Nat → Nat

/-- `FR.VER` while `FR.VALID = 0` (10_state.md R24). -/
opaque Config.freeVer : Nat → Version

/-- `FR.DIR` while `FR.VALID = 0`. -/
opaque Config.freeDir : Nat → Byte

/-- `FR.CMD` while `FR.VALID = 0`. -/
opaque Config.freeCmd : Nat → Half

/-- `FR.LEN` while `FR.VALID = 0`. -/
opaque Config.freeLen : Nat → Half

/-- `FR.PAY` while `FR.VALID = 0`. -/
opaque Config.freePay : Nat → Bytes

end Sys2Proof
end

