-- ==== Sys2Proof/Syntax.lean ====
section
/-! DEFINITION. The operations of MSPE as syntax: shapes and values (43_marshal.md R140), the typed operands and the command
word of the command interface (30_encoding.md R80), and `Instr`, one constructor per row of the opcode table. -/

namespace Sys2Proof

mutual
/-- A shape (R140). `agg` is BTFL's fixed-size aggregate, `seq n s` its fixed-length sequence. -/
inductive Shape
  | u8
  | u16
  | u32
  | agg (fields : Shapes)
  | seq (n : Nat) (elem : Shape)
deriving DecidableEq, Repr
/-- The fields of an aggregate in declared order. -/
inductive Shapes
  | nil
  | cons (s : Shape) (rest : Shapes)
deriving DecidableEq, Repr
end

mutual
/-- A value (R140). -/
inductive Value
  | v8 (x : Byte)
  | v16 (x : Half)
  | v32 (x : Word)
  | agg (vs : Values)
  | seq (vs : Values)
deriving DecidableEq, Repr
/-- The fields of an aggregate value, or the elements of a sequence value, in order. -/
inductive Values
  | nil
  | cons (v : Value) (rest : Values)
deriving DecidableEq, Repr
end

/-- `Agg [s_1, ..., s_k]` from an ordinary list. -/
def Shapes.ofList : List Shape → Shapes
  | [] => .nil
  | s :: r => .cons s (Shapes.ofList r)

/-- `[v_1, ..., v_k]` from an ordinary list. -/
def Values.ofList : List Value → Values
  | [] => .nil
  | v :: r => .cons v (Values.ofList r)

/-- The five tags of R82, the top-level constructors of a shape. -/
inductive ShapeTag
  | u8
  | u16
  | u32
  | agg
  | seq
deriving DecidableEq, Repr

/-- The top-level constructor of a shape. -/
def Shape.tag : Shape → ShapeTag
  | .u8 => .u8
  | .u16 => .u16
  | .u32 => .u32
  | .agg _ => .agg
  | .seq _ _ => .seq

/-- A port name, opaque to MSPE (44_transport_ops.md R172), held as the bytes of its text (log 16). -/
abbrev PortName := List Byte

/-- One typed operand passed with a command word (R80). -/
inductive Operand
  | bytes (s : Bytes)
  | u16 (c : Half)
  | shape (sh : Shape)
  | value (v : Value)
  | port (name : PortName)
  | nat (n : Nat)
  /-- a shape outside R140's grammar, presented by a host in some other form (R84, 43_marshal.md R147; log 14) -/
  | foreignShape
deriving DecidableEq, Repr

/-- What the host issues: a 16-bit command word `OP` with a list of typed operands (R80). -/
structure Command where
  op : Half
  args : List Operand
deriving DecidableEq, Repr

/-- The operations, one constructor per row of the opcode table. -/
inductive Instr
  /-- `CHKX s`, 40_checksum.md R100 -/
  | chkx (s : Bytes)
  /-- `CHKC s`, R102 -/
  | chkc (s : Bytes)
  /-- `ENC1 c, p`, 41_frame_encode.md R110 -/
  | enc1 (c : Half) (p : Bytes)
  /-- `ENC2 c, p`, R114 -/
  | enc2 (c : Half) (p : Bytes)
  /-- `DEC`, 42_frame_decode.md R120 -/
  | dec
  /-- `MAR.U8 sh, v`, 43_marshal.md R142 -/
  | marU8 (sh : Shape) (v : Value)
  /-- `MAR.U16 sh, v`, R143 -/
  | marU16 (sh : Shape) (v : Value)
  /-- `MAR.U32 sh, v`, R144 -/
  | marU32 (sh : Shape) (v : Value)
  /-- `MAR.AGG sh, v`, R145 -/
  | marAgg (sh : Shape) (v : Value)
  /-- `MAR.SEQ sh, v`, R146 -/
  | marSeq (sh : Shape) (v : Value)
  /-- `UNM.U8 sh`, R152 -/
  | unmU8 (sh : Shape)
  /-- `UNM.U16 sh`, R153 -/
  | unmU16 (sh : Shape)
  /-- `UNM.U32 sh`, R154 -/
  | unmU32 (sh : Shape)
  /-- `UNM.AGG sh`, R155 -/
  | unmAgg (sh : Shape)
  /-- `UNM.SEQ sh`, R156 -/
  | unmSeq (sh : Shape)
  /-- `SEND c, sh, v`, 44_transport_ops.md R170 -/
  | send (c : Half) (sh : Shape) (v : Value)
  /-- `ATT port, baud`, R172 -/
  | att (port : PortName) (baud : Nat)
  /-- `DET`, R174 -/
  | det
  /-- the wire row `FRAME_V1`: DEC's V1 path after `'$' 'M'`, 42_frame_decode.md R123 -/
  | frameV1
  /-- the wire row `FRAME_V2`: DEC's V2 path after `'$' 'X'`, R127 -/
  | frameV2
deriving DecidableEq, Repr

/-- The form in which an instruction reaches MSPE: a command at the command interface (R80), or the two framing bytes of a
frame at the RX port (R77). -/
inductive Encoded
  | command (c : Command)
  | wire (b0 b1 : Byte)
deriving DecidableEq, Repr

end Sys2Proof
end

