-- ==== Sys2Proof/WellFormed.lean ====
section
/-! DEFINITION. Which instructions are well formed: the `Shape` operand of MAR and UNM has the top-level constructor that the
sub-opcode names (30_encoding.md R82, R83). Every other operand is well formed by its type. -/

namespace Sys2Proof

/-- The shape tag the instruction's own `SUB` names, and the shape operand it must fit (R82). -/
def Instr.tagCheck : Instr → Option (ShapeTag × Shape)
  | .chkx _ => none
  | .chkc _ => none
  | .enc1 _ _ => none
  | .enc2 _ _ => none
  | .dec => none
  | .marU8 sh _ => some (.u8, sh)
  | .marU16 sh _ => some (.u16, sh)
  | .marU32 sh _ => some (.u32, sh)
  | .marAgg sh _ => some (.agg, sh)
  | .marSeq sh _ => some (.seq, sh)
  | .unmU8 sh => some (.u8, sh)
  | .unmU16 sh => some (.u16, sh)
  | .unmU32 sh => some (.u32, sh)
  | .unmAgg sh => some (.agg, sh)
  | .unmSeq sh => some (.seq, sh)
  | .send _ _ _ => none
  | .att _ _ => none
  | .det => none
  | .frameV1 => none
  | .frameV2 => none

/-- R82: "The `Shape` operand must have the top-level constructor that `SUB` names." -/
def Instr.wf (i : Instr) : Bool :=
  match i.tagCheck with
  | none => true
  | some (t, sh) => decide (sh.tag = t)

end Sys2Proof
end

