-- ==== Sys2Proof/Decode.lean ====
section
/-! DEFINITION. The decoders: command words with their operands (30_encoding.md R80–R84), the framing bytes of the wire
(R70, R77), and after them the encoder, from the same tables. A word that is no instruction is rejected by a named reason. -/

namespace Sys2Proof

/-! ## Fields of the command word (R80) -/

/-- `OP[15:8]`, the opcode. -/
def opcOf (op : Half) : Byte := op.extractLsb' 8 8

/-- `OP[7:0]`, the sub-opcode. -/
def subOf (op : Half) : Byte := op.extractLsb' 0 8

/-- `OP` from its two fields. -/
def opWord (opc sub : Byte) : Half := opc ++ sub

/-- The opcodes of R81. -/
inductive Opcode
  | chkx
  | chkc
  | enc1
  | enc2
  | dec
  | mar
  | unm
  | send
  | att
  | det
deriving DecidableEq, Repr

/-- R81's `OPC` column. -/
def opcodeByte : Opcode → Byte
  | .chkx => 0x01#8
  | .chkc => 0x02#8
  | .enc1 => 0x10#8
  | .enc2 => 0x11#8
  | .dec => 0x20#8
  | .mar => 0x30#8
  | .unm => 0x31#8
  | .send => 0x40#8
  | .att => 0x50#8
  | .det => 0x51#8

/-- The rows of R81. -/
def opcodeRows : List Opcode := [.chkx, .chkc, .enc1, .enc2, .dec, .mar, .unm, .send, .att, .det]

/-- The row of R81 with this `OPC`; every other `OPC` is illegal. -/
def opcodeFrom (b : Byte) : Option Opcode := opcodeRows.find? fun o => opcodeByte o == b

/-- R82's shape tags. -/
def tagByte : ShapeTag → Byte
  | .u8 => 0x01#8
  | .u16 => 0x02#8
  | .u32 => 0x04#8
  | .agg => 0x10#8
  | .seq => 0x20#8

/-- The rows of R82. -/
def tagRows : List ShapeTag := [.u8, .u16, .u32, .agg, .seq]

/-- The tag with this `SUB`. -/
def tagFrom (b : Byte) : Option ShapeTag := tagRows.find? fun t => tagByte t == b

/-! ## Framing characters (R70) and header dispatch (R77) -/

/-- `'$'` -/
def chDollar : Byte := 0x24#8
/-- `'M'` -/
def chM : Byte := 0x4D#8
/-- `'X'`. PRESUMED: the spec marks this byte as general knowledge (GK2; log 19). -/
def chX : Byte := 0x58#8
/-- `'<'` -/
def chLt : Byte := 0x3C#8
/-- `'>'`. PRESUMED: the spec marks this byte as general knowledge (GK1; log 19). -/
def chGt : Byte := 0x3E#8

/-- R78: the two legal direction bytes. -/
def isDirection (d : Byte) : Bool := d == chLt || d == chGt

/-- Why a form is no instruction. -/
inductive Reject
  /-- R83: `OPC` is not in R81 -/
  | unknownOpcode
  /-- R83: `SUB` is not what the row, or R82, gives -/
  | badSub
  /-- R83: the shape operand's top-level constructor differs from `SUB` -/
  | tagMismatch
  /-- R83: an operand is missing or has the wrong type (or is one too many: log 13) -/
  | badOperands
  /-- R84, 43_marshal.md R147: a shape outside the supported set -/
  | unsupportedShape
  /-- R77: byte 0 is not `'$'` -/
  | outOfBand
  /-- R77: byte 1 is neither `'M'` nor `'X'` -/
  | badVersion
deriving DecidableEq, Repr

/-- What a decoder answers. -/
inductive Decoded
  | instr (i : Instr)
  | reject (r : Reject)
deriving DecidableEq, Repr

/-- The MAR operation of a tag (R81: `MAR.<tag>`). -/
def marInstr (t : ShapeTag) (sh : Shape) (v : Value) : Instr :=
  match t with
  | .u8 => .marU8 sh v
  | .u16 => .marU16 sh v
  | .u32 => .marU32 sh v
  | .agg => .marAgg sh v
  | .seq => .marSeq sh v

/-- The UNM operation of a tag (R81: `UNM.<tag>`). -/
def unmInstr (t : ShapeTag) (sh : Shape) : Instr :=
  match t with
  | .u8 => .unmU8 sh
  | .u16 => .unmU16 sh
  | .u32 => .unmU32 sh
  | .agg => .unmAgg sh
  | .seq => .unmSeq sh

/-- The operands of a row whose `SUB` is `0x00`, by R81's `operands` column. -/
def decodeOperands (o : Opcode) (args : List Operand) : Decoded :=
  match o, args with
  | .chkx, [.bytes s] => .instr (.chkx s)
  | .chkc, [.bytes s] => .instr (.chkc s)
  | .enc1, [.u16 c, .bytes p] => .instr (.enc1 c p)
  | .enc2, [.u16 c, .bytes p] => .instr (.enc2 c p)
  | .dec, [] => .instr .dec
  | .send, [.u16 c, .shape sh, .value v] => .instr (.send c sh v)
  | .send, [.u16 _, .foreignShape, .value _] => .reject .unsupportedShape
  | .att, [.port name, .nat baud] => .instr (.att name baud)
  | .det, [] => .instr .det
  | _, _ => .reject .badOperands

/-- MAR's operands: the shape's constructor must be the one `SUB` names (R82, R83). -/
def decodeMar (t : ShapeTag) (args : List Operand) : Decoded :=
  match args with
  | [.shape sh, .value v] => if sh.tag = t then .instr (marInstr t sh v) else .reject .tagMismatch
  | [.foreignShape, .value _] => .reject .unsupportedShape
  | _ => .reject .badOperands

/-- UNM's operands. -/
def decodeUnm (t : ShapeTag) (args : List Operand) : Decoded :=
  match args with
  | [.shape sh] => if sh.tag = t then .instr (unmInstr t sh) else .reject .tagMismatch
  | [.foreignShape] => .reject .unsupportedShape
  | _ => .reject .badOperands

/-- The command decoder (R80–R84). -/
def decodeCommand (c : Command) : Decoded :=
  match opcodeFrom (opcOf c.op) with
  | none => .reject .unknownOpcode
  | some .mar =>
    match tagFrom (subOf c.op) with
    | none => .reject .badSub
    | some t => decodeMar t c.args
  | some .unm =>
    match tagFrom (subOf c.op) with
    | none => .reject .badSub
    | some t => decodeUnm t c.args
  | some o => if subOf c.op = 0x00#8 then decodeOperands o c.args else .reject .badSub

/-- R77: the second byte selects the wire format's path. -/
def decodeVersion (b1 : Byte) : Decoded :=
  if b1 = chM then .instr .frameV1
  else if b1 = chX then .instr .frameV2
  else .reject .badVersion

/-- R77: the first two bytes of a frame. -/
def decodeWire (b0 b1 : Byte) : Decoded :=
  if b0 = chDollar then decodeVersion b1 else .reject .outOfBand

/-- The decoder: total on every form. -/
def decode : Encoded → Decoded
  | .command c => decodeCommand c
  | .wire b0 b1 => decodeWire b0 b1

/-! ## The encoder -/

/-- The form of a well-formed instruction, from the same tables (R70, R71, R73, R81, R82). -/
def encode : Instr → Encoded
  | .chkx s => .command ⟨opWord (opcodeByte .chkx) 0x00#8, [.bytes s]⟩
  | .chkc s => .command ⟨opWord (opcodeByte .chkc) 0x00#8, [.bytes s]⟩
  | .enc1 c p => .command ⟨opWord (opcodeByte .enc1) 0x00#8, [.u16 c, .bytes p]⟩
  | .enc2 c p => .command ⟨opWord (opcodeByte .enc2) 0x00#8, [.u16 c, .bytes p]⟩
  | .dec => .command ⟨opWord (opcodeByte .dec) 0x00#8, []⟩
  | .marU8 sh v => .command ⟨opWord (opcodeByte .mar) (tagByte .u8), [.shape sh, .value v]⟩
  | .marU16 sh v => .command ⟨opWord (opcodeByte .mar) (tagByte .u16), [.shape sh, .value v]⟩
  | .marU32 sh v => .command ⟨opWord (opcodeByte .mar) (tagByte .u32), [.shape sh, .value v]⟩
  | .marAgg sh v => .command ⟨opWord (opcodeByte .mar) (tagByte .agg), [.shape sh, .value v]⟩
  | .marSeq sh v => .command ⟨opWord (opcodeByte .mar) (tagByte .seq), [.shape sh, .value v]⟩
  | .unmU8 sh => .command ⟨opWord (opcodeByte .unm) (tagByte .u8), [.shape sh]⟩
  | .unmU16 sh => .command ⟨opWord (opcodeByte .unm) (tagByte .u16), [.shape sh]⟩
  | .unmU32 sh => .command ⟨opWord (opcodeByte .unm) (tagByte .u32), [.shape sh]⟩
  | .unmAgg sh => .command ⟨opWord (opcodeByte .unm) (tagByte .agg), [.shape sh]⟩
  | .unmSeq sh => .command ⟨opWord (opcodeByte .unm) (tagByte .seq), [.shape sh]⟩
  | .send c sh v => .command ⟨opWord (opcodeByte .send) 0x00#8, [.u16 c, .shape sh, .value v]⟩
  | .att name baud => .command ⟨opWord (opcodeByte .att) 0x00#8, [.port name, .nat baud]⟩
  | .det => .command ⟨opWord (opcodeByte .det) 0x00#8, []⟩
  | .frameV1 => .wire chDollar chM
  | .frameV2 => .wire chDollar chX

/-! ## Words numbered as the opcode table numbers them (log 15) -/

/-- The shape that stands for an operand word of zeros under a tag: no fields, no elements. -/
def zeroShape : ShapeTag → Shape
  | .u8 => .u8
  | .u16 => .u16
  | .u32 => .u32
  | .agg => .agg .nil
  | .seq => .seq 0 .u8

/-- The zero value of a `zeroShape`. -/
def zeroValue : ShapeTag → Value
  | .u8 => .v8 0
  | .u16 => .v16 0
  | .u32 => .v32 0
  | .agg => .agg .nil
  | .seq => .seq .nil

/-- The operands of a table word, all zero or empty: the opcode table gives operands no bits. -/
def zeroOperands (op : Half) : List Operand :=
  match opcodeFrom (opcOf op) with
  | some .chkx | some .chkc => [.bytes []]
  | some .enc1 | some .enc2 => [.u16 0, .bytes []]
  | some .mar =>
    match tagFrom (subOf op) with
    | some t => [.shape (zeroShape t), .value (zeroValue t)]
    | none => []
  | some .unm =>
    match tagFrom (subOf op) with
    | some t => [.shape (zeroShape t)]
    | none => []
  | some .send => [.u16 0, .shape (zeroShape .agg), .value (zeroValue .agg)]
  | some .att => [.port [], .nat 0]
  | some .dec | some .det | none => []

/-- The form a table word stands for: a command word with operands of zeros, or, where bits 15:8 are `'$'` (no opcode of
R81), the two framing bytes with the first byte in bits 15:8, as the table's wire rows number them. -/
def tableForm (op : Half) : Encoded :=
  if opcOf op = chDollar then .wire (opcOf op) (subOf op) else .command ⟨op, zeroOperands op⟩

/-- The instruction the decoder reads from a table word (every row has 16 bits). -/
def decodeTableWord (_nbits w : Nat) : Option Instr :=
  if w < 65536 then
    match decode (tableForm (BitVec.ofNat 16 w)) with
    | .instr i => some i
    | .reject _ => none
  else none

end Sys2Proof
end

