-- ==== Sys2Proof/Machine/State.lean ====
section
/-! DEFINITION. The state of MSPE, plain data: every element of 10_state.md R22 under its own name, the operation in progress
and the answer at the command interface, and the model's own inputs from outside. `State.reset` is R36. -/

namespace Sys2Proof.Machine

/-- `PORT`'s record: the operands of the last successful ATT, opaque to MSPE (R23). -/
structure PortRecord where
  name : PortName
  baud : Nat
deriving DecidableEq, Repr

/-- The frame register `FR` (R22, R24–R27). -/
structure FrameReg where
  valid : Bool
  ver : Version
  dir : Byte
  cmd : Half
  len : Half
  pay : Bytes
  chk : Byte
deriving DecidableEq, Repr

/-- `ERR.FIELD` (R22, R31). -/
inductive ErrField
  | none
  | version
  | direction
  | marker
deriving DecidableEq, Repr

/-- The error register `ERR` (R22, R31). -/
structure ErrReg where
  cmd : Half
  pay : Bytes
  obs : Byte
  exp : Byte
  byte : Byte
  field : ErrField
deriving DecidableEq, Repr

/-- `ERR` cleared: `0`, empty, `NONE` (R31). -/
def ErrReg.cleared : ErrReg := { cmd := 0, pay := [], obs := 0, exp := 0, byte := 0, field := .none }

/-- The error outcomes an operation raises, each with the information it carries (60_exceptions.md R200, R202). -/
inductive Raise
  /-- `PE_CHECKSUM_MISMATCH` -/
  | checksumMismatch (cmd : Half) (pay : Bytes) (obs exp : Byte)
  /-- `PE_OUT_OF_BAND`, with the byte -/
  | outOfBand (b : Byte)
  /-- `PE_MALFORMED_HEADER`, with the offending field and byte -/
  | malformedHeader (field : ErrField) (b : Byte)
  /-- `PE_END_OF_STREAM` -/
  | endOfStream
  /-- `TE_OPEN_FAILURE` -/
  | openFailure
  /-- `TE_IO_FAILURE` -/
  | ioFailure
  /-- `TE_UNEXPECTED_EOS` -/
  | unexpectedEos
  /-- `UE_END_OF_PAYLOAD` -/
  | endOfPayload
deriving DecidableEq, Repr

/-- The programming faults `PF_*` (R200). -/
inductive PFault
  | useAfterClose
  | unsupportedShape
  | shapeValueMismatch
  | v1TooLong
  | v2TooLong
  | noFrame
  | doubleAttach
  | illegalOp
deriving DecidableEq, Repr

/-- The typed result of a successful operation (30_encoding.md R81's `result` column). -/
inductive OpResult
  | none
  | byte (b : Byte)
  | bytes (s : Bytes)
  | value (v : Value)
deriving DecidableEq, Repr

/-- What the host gets back from an operation (60_exceptions.md, head of the file, and R220). -/
inductive Response
  /-- success, with the result -/
  | ok (r : OpResult)
  /-- a protocol, transport or unmarshal error, with its code -/
  | error (code : Byte)
  /-- a programming fault, with its code -/
  | fault (code : Byte)
  /-- `Refused`: `STATUS.FAULT` was already set (R205) -/
  | refused
deriving DecidableEq, Repr

/-- An operation that has begun and waits for an answer of the transport (20_memory.md R52, R54; log 6). -/
inductive Pending
  /-- DEC, before its first byte -/
  | decFirst
  /-- DEC, after `'$'` -/
  | decSecond
  /-- DEC on its V1 path, with the bytes read after `'$' 'M'` -/
  | decV1 (got : Bytes)
  /-- DEC on its V2 path, with the bytes read after `'$' 'X'` -/
  | decV2 (got : Bytes)
  /-- SEND, with the frame it has offered to the TX port -/
  | send (frame : Bytes)
deriving DecidableEq, Repr

/-- What the host issues at the command interface (60_exceptions.md R220). -/
inductive HostInput
  | op (c : Command)
  | reset
deriving DecidableEq, Repr

/-- An answer of the environment to one RX read (20_memory.md R52). The fourth answer, none, is the absence of an entry. -/
inductive RxAnswer
  | byte (b : Byte)
  | endOfStream
  | ioFailure
deriving DecidableEq, Repr

/-- An answer of the environment to one TX write (R54); a failed write tells how many bytes it accepted. -/
inductive TxAnswer
  | ok
  | ioFailure (accepted : Nat)
deriving DecidableEq, Repr

/-- An answer of the environment to ATT (44_transport_ops.md R172). -/
inductive OpenAnswer
  | opened
  | failed
deriving DecidableEq, Repr

/-- The state of MSPE. -/
structure State where
  /-- `ATTACHED` -/
  attached : Bool
  /-- `PORT` -/
  port : Option PortRecord
  /-- `FR` -/
  fr : FrameReg
  /-- `CUR` -/
  cur : Half
  /-- `STATUS.CODE` -/
  code : Byte
  /-- `STATUS.FAULT` -/
  faulted : Bool
  /-- `ERR` -/
  err : ErrReg
  /-- `RXPOS` -/
  rxpos : Nat
  /-- `TXLOG` -/
  txlog : Bytes
  /-- the operation in progress, if the transport has not answered it yet (log 6) -/
  pending : Option Pending
  /-- the answer to the last operation at the command interface; none while nothing has been answered (log 8) -/
  resp : Option Response
  /-- the command interface: what the host has issued and MSPE has not taken yet, one thing at most (log 4) -/
  issued : Option HostInput
  /-- input: what the host will issue, each when what came before it is done (log 4) -/
  hostq : List HostInput
  /-- input: the environment's answers to the coming RX reads (log 1) -/
  rx : List RxAnswer
  /-- input: the environment's answers to the coming TX writes (log 2) -/
  tx : List TxAnswer
  /-- input: the environment's answers to the coming ATTs (log 3) -/
  opens : List OpenAnswer
  /-- the number of free values drawn so far (log 9) -/
  draws : Nat
deriving DecidableEq, Repr

/-- Why a step stops with a fault: never. Every fault of the spec is a programming fault, whose effect R205 gives, so it is a
next state with `STATUS.FAULT` set (log 20); nothing raises a value of this type. -/
inductive Fault
deriving DecidableEq, Repr

/-- Why a step refuses. -/
inductive Refusal
  /-- raised by `exec`'s arm of an instruction that has no meaning yet, with its mnemonic; safe (the model stops) -/
  | notModelled (mnemonic : String)
  /-- raised by `step` where the host has issued an operation while another one waits, other than DET while a DEC waits: it
  breaks its duty 2, and 60_exceptions.md R221 gives the run no meaning; safe (the model stops) -/
  | dutyBroken
deriving DecidableEq, Repr

/-- `FR` after reset: `FR.VALID = 0`. R36 leaves the other fields unspecified: DESIGN CHOICE, zero (log 10). -/
def FrameReg.reset : FrameReg :=
  { valid := false, ver := .v1, dir := 0, cmd := 0, len := 0, pay := [], chk := 0 }

/-- The machine right after reset (R36): detached, no frame, no error, idle (R231), with no input from outside. -/
def State.reset : State :=
  { attached := false
    port := none
    fr := FrameReg.reset
    cur := 0
    code := 0x00#8
    faulted := false
    err := ErrReg.cleared
    rxpos := 0
    txlog := []
    pending := none
    resp := none
    issued := none
    hostq := []
    rx := []
    tx := []
    opens := []
    draws := 0 }

end Sys2Proof.Machine
end

