-- ==== Sys2Proof/Machine/Flags.lean ====
section
/-! DEFINITION. What an outcome writes into STATUS and ERR: the codes and classes of 60_exceptions.md R200, R201, and the
information of R202. -/

namespace Sys2Proof.Machine

/-- `STATUS.CODE` of success. -/
def codeOk : Byte := 0x00#8

/-- R200's code of an error outcome. -/
def raiseCode : Raise → Byte
  | .checksumMismatch _ _ _ _ => 0x10#8
  | .outOfBand _ => 0x11#8
  | .malformedHeader _ _ => 0x12#8
  | .endOfStream => 0x13#8
  | .openFailure => 0x20#8
  | .ioFailure => 0x21#8
  | .unexpectedEos => 0x22#8
  | .endOfPayload => 0x30#8

/-- R200's code of a programming fault. -/
def faultCode : PFault → Byte
  | .useAfterClose => 0x40#8
  | .unsupportedShape => 0x41#8
  | .shapeValueMismatch => 0x42#8
  | .v1TooLong => 0x43#8
  | .v2TooLong => 0x44#8
  | .noFrame => 0x45#8
  | .doubleAttach => 0x46#8
  | .illegalOp => 0x47#8

/-- The classes of outcomes (R201). -/
inductive OutcomeClass
  | success
  | pe
  | te
  | ue
  | pf
deriving DecidableEq, Repr

/-- R200: `STATUS.CODE[7:4]` gives the class. -/
def codeClass (code : Byte) : Option OutcomeClass :=
  match (code.extractLsb' 4 4).toNat with
  | 0 => some .success
  | 1 => some .pe
  | 2 => some .te
  | 3 => some .ue
  | 4 => some .pf
  | _ => none

/-- R200's codes; MSPE writes no other. -/
def knownCodes : Bytes :=
  [0x00#8, 0x10#8, 0x11#8, 0x12#8, 0x13#8, 0x20#8, 0x21#8, 0x22#8, 0x30#8, 0x40#8, 0x41#8, 0x42#8, 0x43#8, 0x44#8, 0x45#8,
    0x46#8, 0x47#8]

/-- R202: what an error outcome records in `ERR`, every other field cleared. -/
def raiseErr : Raise → ErrReg
  | .checksumMismatch cmd pay obs exp => { ErrReg.cleared with cmd := cmd, pay := pay, obs := obs, exp := exp }
  | .outOfBand b => { ErrReg.cleared with byte := b, field := .marker }
  | .malformedHeader f b => { ErrReg.cleared with byte := b, field := f }
  | .endOfStream => ErrReg.cleared
  | .openFailure => ErrReg.cleared
  | .ioFailure => ErrReg.cleared
  | .unexpectedEos => ErrReg.cleared
  | .endOfPayload => ErrReg.cleared

/-- R203: after a transport error other than `TE_OPEN_FAILURE`, `ATTACHED` is drawn. -/
def raiseDrawsAttached : Raise → Bool
  | .ioFailure => true
  | .unexpectedEos => true
  | .checksumMismatch _ _ _ _ => false
  | .outOfBand _ => false
  | .malformedHeader _ _ => false
  | .endOfStream => false
  | .openFailure => false
  | .endOfPayload => false

/-- R83, R84: the programming fault of a command that is no operation. -/
def rejectFault : Reject → PFault
  | .unsupportedShape => .unsupportedShape
  | .unknownOpcode => .illegalOp
  | .badSub => .illegalOp
  | .tagMismatch => .illegalOp
  | .badOperands => .illegalOp
  | .outOfBand => .illegalOp
  | .badVersion => .illegalOp

end Sys2Proof.Machine
end

