-- ==== Sys2Proof/Machine/Operands.lean ====
section
/-! DEFINITION. The operand forms of the marshaler (43_marshal.md R140, R141) and the byte order of every multi-byte field
(20_memory.md R56). -/

namespace Sys2Proof.Machine

/-! ## Byte order (R56) -/

/-- `[v[7:0], v[15:8]]` -/
def le16 (v : Half) : Bytes := [v.extractLsb' 0 8, v.extractLsb' 8 8]

/-- `[v[7:0], v[15:8], v[23:16], v[31:24]]` -/
def le32 (v : Word) : Bytes := [v.extractLsb' 0 8, v.extractLsb' 8 8, v.extractLsb' 16 8, v.extractLsb' 24 8]

/-- `zext_16(lo) | (zext_16(hi) << 8)` (30_encoding.md R75) -/
def ofLe16 (lo hi : Byte) : Half := lo.setWidth 16 ||| (hi.setWidth 16 <<< 8)

/-- `zext_32(b0) | zext_32(b1) << 8 | zext_32(b2) << 16 | zext_32(b3) << 24` (R141) -/
def ofLe32 (b0 b1 b2 b3 : Byte) : Word :=
  b0.setWidth 32 ||| (b1.setWidth 32 <<< 8) ||| (b2.setWidth 32 <<< 16) ||| (b3.setWidth 32 <<< 24)

/-- `s[i]`, the `i`-th byte from 0 (00_scope.md R9). Past the end it is 0, which no rule reads: every caller has checked. -/
def byteAt (s : Bytes) (i : Nat) : Byte := s.getD i 0

/-- `s[i..i+n)` (R9); on `FR.PAY` this is `PayRead(i, n)` (20_memory.md R55). -/
def slice (s : Bytes) (i n : Nat) : Bytes := (s.drop i).take n

/-! ## Shapes and values (R140) -/

mutual
/-- `size(s)` -/
def shapeSize : Shape → Nat
  | .u8 => 1
  | .u16 => 2
  | .u32 => 4
  | .agg fs => shapesSize fs
  | .seq n s => n * shapeSize s
/-- `size(s_1) + ... + size(s_k)` -/
def shapesSize : Shapes → Nat
  | .nil => 0
  | .cons s r => shapeSize s + shapesSize r
end

/-- Whether there are exactly `n` elements and each passes the test (R140's clause for `Seq n s`). -/
def eachConforms (test : Value → Bool) : Nat → Values → Bool
  | 0, .nil => true
  | n + 1, .cons v r => test v && eachConforms test n r
  | 0, .cons _ _ => false
  | _ + 1, .nil => false

mutual
/-- `conforms(v, s)`, recursive on the shape -/
def conforms : Shape → Value → Bool
  | .u8, .v8 _ => true
  | .u16, .v16 _ => true
  | .u32, .v32 _ => true
  | .agg fs, .agg vs => fieldsConform fs vs
  | .seq n s, .seq vs => eachConforms (conforms s) n vs
  | _, _ => false
/-- as many values as fields, and each conforms to its own -/
def fieldsConform : Shapes → Values → Bool
  | .nil, .nil => true
  | .cons s r, .cons v vr => conforms s v && fieldsConform r vr
  | .nil, .cons _ _ => false
  | .cons _ _, .nil => false
end

/-- The elements of a sequence laid out in index order. -/
def layEach (lay : Value → Bytes) : Values → Bytes
  | .nil => []
  | .cons v r => lay v ++ layEach lay r

mutual
/-- `Enc(s, v)` (R141). R141 defines it for a conforming value; elsewhere this is empty, which no operation reads, because
MAR and SEND fault first (R147). -/
def layout : Shape → Value → Bytes
  | .u8, .v8 x => [x]
  | .u16, .v16 x => le16 x
  | .u32, .v32 x => le32 x
  | .agg fs, .agg vs => layoutFields fs vs
  | .seq _ s, .seq vs => layEach (layout s) vs
  | _, _ => []
/-- The fields of an aggregate laid out in declared order. -/
def layoutFields : Shapes → Values → Bytes
  | .cons s r, .cons v vr => layout s v ++ layoutFields r vr
  | .nil, _ => []
  | .cons _ _, .nil => []
end

/-- `n` readings one after the other, each starting where the one before it ended (R141's clause for `Seq n s`). -/
def readEach (read : Nat → Value × Nat) : Nat → Nat → Values × Nat
  | 0, i => (.nil, i)
  | n + 1, i =>
    let (v, j) := read i
    let (vs, k) := readEach read n j
    (.cons v vs, k)

mutual
/-- `Dec(s, i)` on the payload `p` (R141): the value and the index after it. -/
def readShape (p : Bytes) : Shape → Nat → Value × Nat
  | .u8, i => (.v8 (byteAt p i), i + 1)
  | .u16, i => (.v16 (ofLe16 (byteAt p i) (byteAt p (i + 1))), i + 2)
  | .u32, i => (.v32 (ofLe32 (byteAt p i) (byteAt p (i + 1)) (byteAt p (i + 2)) (byteAt p (i + 3))), i + 4)
  | .agg fs, i =>
    let (vs, j) := readFields p fs i
    (.agg vs, j)
  | .seq n s, i =>
    let (vs, j) := readEach (readShape p s) n i
    (.seq vs, j)
/-- The fields of an aggregate read in declared order. -/
def readFields (p : Bytes) : Shapes → Nat → Values × Nat
  | .nil, i => (.nil, i)
  | .cons s r, i =>
    let (v, j) := readShape p s i
    let (vs, k) := readFields p r j
    (.cons v vs, k)
end

end Sys2Proof.Machine
end

