-- ==== Sys2Proof/Machine/Ops.lean ====
section
/-! DEFINITION. The operations every meaning is made of: ending an operation (`finish`, `raise`, `fault`, refusal: 00_scope.md
R10, 60_exceptions.md R203, R205), the RX and TX ports (20_memory.md R52–R54), waiting for the transport, the draws, reset
(70_reset_and_hazards.md R230), and the inputs from outside. -/

namespace Sys2Proof.Machine

/-! ## Ending an operation -/

/-- `STATUS.CODE <- 0x00; return r` (R10). `ERR` stays (10_state.md R31). -/
def finish (r : OpResult) (s : State) : State :=
  { s with code := codeOk, resp := some (.ok r) }

/-- `raise E(info)` (R203): the code, `ERR` cleared and written as R202 says, and after a transport error other than
`TE_OPEN_FAILURE` a drawn `ATTACHED` (10_state.md R23). `STATUS.FAULT` stays. -/
def raise (e : Raise) (s : State) : State :=
  { s with
    code := raiseCode e
    err := raiseErr e
    attached := if raiseDrawsAttached e then Config.freeAttached s.draws else s.attached
    draws := if raiseDrawsAttached e then s.draws + 1 else s.draws
    resp := some (.error (raiseCode e)) }

/-- `fault F` (R205): taking a programming fault. The code, `ERR` cleared, the sticky bit, and no other state change. -/
def fault (f : PFault) (s : State) : State :=
  { s with code := faultCode f, err := ErrReg.cleared, faulted := true, resp := some (.fault (faultCode f)) }

/-- R205, R207: while `STATUS.FAULT = 1` an operation is refused, with no state written and no port touched; otherwise it
runs. -/
def accept (s : State) (run : State → State) : State :=
  if s.faulted then { s with resp := some .refused } else run s

/-- A command that is no operation: refused, or the fault of R83 or R84. -/
def rejectOp (r : Reject) (s : State) : State := accept s (fault (rejectFault r))

/-- R83: the top-level constructor of the `Shape` operand must be the one `SUB` names (log 25). -/
def requireTag (t : ShapeTag) (sh : Shape) (s : State) (run : State → State) : State :=
  if sh.tag = t then run s else fault .illegalOp s

/-! ## Draws (R10; log 9) -/

/-- A drawn number in `lo ≤ c ≤ hi`; `lo` where the range is empty. -/
def drawBetween (lo hi draw : Nat) : Nat := lo + Config.freeCursor draw % (hi - lo + 1)

/-- An `FR` that holds no frame: `FR.VALID = 0`, and every other field unspecified (10_state.md R24; log 10). -/
def noFrame (draw : Nat) : FrameReg :=
  { valid := false
    ver := Config.freeVer draw
    dir := Config.freeDir draw
    cmd := Config.freeCmd draw
    len := Config.freeLen draw
    pay := Config.freePay draw
    chk := Config.freeChk draw }

/-- `FR.VALID <- 0` (42_frame_decode.md R120): the other `FR` fields and `CUR` are unspecified from here on (R131), `CUR`
without going back (10_state.md R21; log 11). -/
def invalidate (s : State) : State :=
  { s with
    fr := noFrame s.draws
    cur := BitVec.ofNat 16 (drawBetween s.cur.toNat 65535 s.draws)
    draws := s.draws + 1 }

/-! ## Waiting for the transport (log 6) -/

/-- The operation waits: the read or write it has begun has no answer (20_memory.md R52, R54). -/
def block (p : Pending) (s : State) : State := { s with pending := some p, resp := none }

/-- The operation in progress goes on. -/
def unblock (s : State) : State := { s with pending := none }

/-! ## The RX port -/

/-- The command is DET. -/
def isDet (c : Command) : Bool := decodeCommand c == .instr .det

/-- The host has issued DET, and MSPE has not taken it yet (44_transport_ops.md R175). -/
def detIssued (s : State) : Bool :=
  match s.issued with
  | some (.op c) => isDet c
  | some .reset => false
  | none => false

/-- Answers taken from the RX port, `k` bytes among them: `RXPOS` counts the bytes (10_state.md R32). -/
def tookRx (rest : List RxAnswer) (k : Nat) (s : State) : State := { s with rx := rest, rxpos := s.rxpos + k }

/-- `RxRead()` (20_memory.md R52): the environment's answer, if there is one. `Byte(b)` counts in `RXPOS`; the other answers
consume no byte. A read with no answer answers `EndOfStream` when DET has been issued (44_transport_ops.md R175; log 5). -/
def rxRead (s : State) : Option RxAnswer × State :=
  match s.rx with
  | .byte b :: rest => (some (.byte b), tookRx rest 1 s)
  | .endOfStream :: rest => (some .endOfStream, tookRx rest 0 s)
  | .ioFailure :: rest => (some .ioFailure, tookRx rest 0 s)
  | [] => if detIssued s then (some .endOfStream, s) else (none, s)

/-- Why a run of reads stopped early. -/
inductive RxStop
  | endOfStream
  | ioFailure
  | noAnswer
deriving DecidableEq, Repr

/-- What a run of reads gives: the bytes in order, why it stopped if it did, and the state after it. -/
structure RxRun where
  bytes : Bytes
  stop : Option RxStop
  state : State

/-- `RxReadN(n)` (20_memory.md R53): `n` reads in order, up to the first that answers no byte; the bytes before it stay
consumed. -/
def rxReadN : Nat → State → RxRun
  | 0, s => ⟨[], none, s⟩
  | n + 1, s =>
    match rxRead s with
    | (some (.byte b), s1) =>
      let r := rxReadN n s1
      ⟨b :: r.bytes, r.stop, r.state⟩
    | (some .endOfStream, s1) => ⟨[], some .endOfStream, s1⟩
    | (some .ioFailure, s1) => ⟨[], some .ioFailure, s1⟩
    | (none, s1) => ⟨[], some .noAnswer, s1⟩

/-- `RdN` inside a frame (42_frame_decode.md R126), up to `n` bytes of the path in all, `got` of them read before: then the
path goes on, or the short read is a transport error, or the path waits with what it has read. -/
def readTo (hold : Bytes → Pending) (n : Nat) (got : Bytes) (s : State) (path : Bytes → State → State) : State :=
  let r := rxReadN (n - got.length) s
  match r.stop with
  | none => path (got ++ r.bytes) r.state
  | some .endOfStream => raise .unexpectedEos r.state
  | some .ioFailure => raise .ioFailure r.state
  | some .noAnswer => block (hold (got ++ r.bytes)) r.state

/-! ## The TX port -/

/-- `TxWrite(f)` and the end of SEND after it (20_memory.md R54, 44_transport_ops.md R170): all of `f` accepted, or a prefix
of it and `TE_IO_FAILURE`, or no answer yet. -/
def offer (f : Bytes) (s : State) : State :=
  match s.tx with
  | .ok :: rest => finish .none { s with tx := rest, txlog := s.txlog ++ f }
  | .ioFailure k :: rest => raise .ioFailure { s with tx := rest, txlog := s.txlog ++ f.take k }
  | [] => block (.send f) s

/-! ## Reset (R230) -/

/-- Reset asserted by the host: every element of R22 as in R36, the operation in progress abandoned without an outcome. The
fields of `FR` that R36 leaves unspecified are drawn; what lies outside MSPE (the inputs) stays (log 12). -/
def machineReset (s : State) : State :=
  { State.reset with
    fr := noFrame s.draws
    issued := s.issued
    hostq := s.hostq
    rx := s.rx
    tx := s.tx
    opens := s.opens
    draws := s.draws + 1 }

/-- An answer for the operation in progress has arrived: it is taken before a reset lands (log 7). -/
def answerArrived (p : Pending) (s : State) : Bool :=
  match p with
  | .decFirst => !s.rx.isEmpty
  | .decSecond => !s.rx.isEmpty
  | .decV1 _ => !s.rx.isEmpty
  | .decV2 _ => !s.rx.isEmpty
  | .send _ => !s.tx.isEmpty

/-! ## The host's duty 2 (60_exceptions.md R221; log 4) -/

/-- DET is the only operation that may overtake another, and only a DEC can be overtaken (44_transport_ops.md R175). -/
def overtakes (c : Command) (p : Pending) : Bool :=
  match p with
  | .decFirst => isDet c
  | .decSecond => isDet c
  | .decV1 _ => isDet c
  | .decV2 _ => isDet c
  | .send _ => false

/-- The host has issued an operation while another one waits, and it is none that may overtake it. -/
def breaksDuty (s : State) : Bool :=
  match s.pending, s.issued with
  | some p, some (.op c) => !overtakes c p
  | some _, some .reset => false
  | some _, none => false
  | none, _ => false

/-! ## Inputs from outside, landing between two steps (R220) -/

/-- The host issues an operation or a reset now. There is no state after it where that breaks its duty 2 (R221): an operation
waits that this one may not overtake, or something is issued that MSPE has not taken yet (its next step does; log 4). -/
def hostIssues (x : HostInput) (s : State) : Option State :=
  match s.issued with
  | some _ => none
  | none => if breaksDuty { s with issued := some x } then none else some { s with issued := some x }

/-- The host makes up its mind to issue this too, when all it means to issue before it is done. -/
def hostPlans (x : HostInput) (s : State) : State := { s with hostq := s.hostq ++ [x] }

/-- The transport answers one more RX read. -/
def rxArrives (a : RxAnswer) (s : State) : State := { s with rx := s.rx ++ [a] }

/-- The transport answers one more TX write. -/
def txAnswers (a : TxAnswer) (s : State) : State := { s with tx := s.tx ++ [a] }

/-- The environment answers one more ATT. -/
def openAnswers (a : OpenAnswer) (s : State) : State := { s with opens := s.opens ++ [a] }

end Sys2Proof.Machine
end

