-- ==== Sys2Proof/Machine/Checksum.lean ====
section
/-! DEFINITION. The Checksum Engine (40_checksum.md): CHKX and CHKC. -/

namespace Sys2Proof.Machine

/-- `XorChk(s)` (R100) -/
def xorChk (s : Bytes) : Byte := s.foldl (fun c b => c ^^^ b) 0x00#8

/-- One conditional step: bit 7 is tested before the shift (R102, R103; GK4, log 19). -/
def crcStep (c : Byte) : Byte := if c.getLsbD 7 then (c <<< 1) ^^^ 0xD5#8 else c <<< 1

/-- `repeat n times` -/
def crcSteps : Nat → Byte → Byte
  | 0, c => c
  | n + 1, c => crcSteps n (crcStep c)

/-- One byte: exclusive-or, then eight conditional steps. -/
def crcByte (c b : Byte) : Byte := crcSteps 8 (c ^^^ b)

/-- `Crc8DvbS2(s)` (R102): initial value `0x00`, no final exclusive-or (R103; GK3, log 19). -/
def crc8DvbS2 (s : Bytes) : Byte := s.foldl crcByte 0x00#8

/-- `CHKX s` (R100) -/
def execChkx (b : Bytes) (s : State) : Host.Outcome State Fault Refusal :=
  .next (accept s (finish (.byte (xorChk b))))

/-- `CHKC s` (R102) -/
def execChkc (b : Bytes) (s : State) : Host.Outcome State Fault Refusal :=
  .next (accept s (finish (.byte (crc8DvbS2 b))))

end Sys2Proof.Machine
end

