-- ==== Sys2Proof/Machine/FrameDecode.lean ====
section
/-! DEFINITION. The Frame Codec's decoder (42_frame_decode.md): DEC, and its paths FRAME_V1 and FRAME_V2. A path that waits
for the transport holds the bytes it has read, and goes on from them (log 6). -/

namespace Sys2Proof.Machine

/-- A frame is latched (R123, R127): `FR` valid, `CUR <- 0`, `STATUS.CODE <- 0x00`. -/
def latch (ver : Version) (dir : Byte) (cmd len : Half) (pay : Bytes) (chk : Byte) (s : State) : State :=
  finish .none
    { s with fr := { valid := true, ver := ver, dir := dir, cmd := cmd, len := len, pay := pay, chk := chk }, cur := 0 }

/-- The end of the V1 path, all its bytes read: `[d, L, k] ++ p ++ [obs]` (R123). The checksum covers length, command and
payload (30_encoding.md R72). -/
def checkV1 (len : Nat) (got : Bytes) (s : State) : State :=
  let l := byteAt got 1
  let k := byteAt got 2
  let p := slice got 3 len
  let obs := byteAt got (3 + len)
  let exp := xorChk ([l, k] ++ p)
  if obs = exp then latch .v1 (byteAt got 0) (k.setWidth 16) (l.setWidth 16) p obs s
  else raise (.checksumMismatch (k.setWidth 16) p obs exp) s

/-- `DecV1` (R123), `got` of its bytes already read. -/
def decV1 (got : Bytes) (s : State) : State :=
  readTo .decV1 3 got s fun got s =>
    if isDirection (byteAt got 0) then
      let len := (byteAt got 1).toNat
      readTo .decV1 (3 + len + 1) got s (checkV1 len)
    else raise (.malformedHeader .direction (byteAt got 0)) s

/-- The end of the V2 path, all its bytes read: `[d, f, cl, ch, ll, lh] ++ p ++ [t]` (R127). The CRC covers flags to the end
of the payload (30_encoding.md R74) and is compared under `V2_CRC_ENFORCE` only (R129); else `FR.CHK` is drawn
(10_state.md R26). -/
def checkV2 (cfg : Cfg) (len : Nat) (got : Bytes) (s : State) : State :=
  let c := ofLe16 (byteAt got 2) (byteAt got 3)
  let l := ofLe16 (byteAt got 4) (byteAt got 5)
  let p := slice got 6 len
  let t := byteAt got (6 + len)
  if cfg.v2CrcEnforce then
    let exp := crc8DvbS2 (slice got 1 5 ++ p)
    if t = exp then latch .v2 (byteAt got 0) c l p t s
    else raise (.checksumMismatch c p t exp) s
  else latch .v2 (byteAt got 0) c l p (Config.freeChk s.draws) { s with draws := s.draws + 1 }

/-- `DecV2` (R127), `got` of its bytes already read. -/
def decV2 (cfg : Cfg) (got : Bytes) (s : State) : State :=
  readTo .decV2 6 got s fun got s =>
    if isDirection (byteAt got 0) then
      let len := (ofLe16 (byteAt got 4) (byteAt got 5)).toNat
      readTo .decV2 (6 + len + 1) got s (checkV2 cfg len)
    else raise (.malformedHeader .direction (byteAt got 0)) s

/-- R122, R77: the byte after `'$'` selects the path. -/
def decSelect (cfg : Cfg) (b1 : Byte) (s : State) : State :=
  match decodeVersion b1 with
  | .instr .frameV1 => decV1 [] s
  | .instr .frameV2 => decV2 cfg [] s
  | _ => raise (.malformedHeader .version b1) s

/-- DEC after `'$'`: one in-frame read (R126). -/
def decSecond (cfg : Cfg) (s : State) : State :=
  match rxRead s with
  | (some (.byte b1), s1) => decSelect cfg b1 s1
  | (some .endOfStream, s1) => raise .unexpectedEos s1
  | (some .ioFailure, s1) => raise .ioFailure s1
  | (none, s1) => block .decSecond s1

/-- DEC's first read (R121): an end of the stream here is the protocol outcome `PE_END_OF_STREAM`, and a byte other than
`'$'` ends DEC with nothing more consumed. -/
def decFirst (cfg : Cfg) (s : State) : State :=
  match rxRead s with
  | (some (.byte b0), s1) => if b0 = chDollar then decSecond cfg s1 else raise (.outOfBand b0) s1
  | (some .endOfStream, s1) => raise .endOfStream s1
  | (some .ioFailure, s1) => raise .ioFailure s1
  | (none, s1) => block .decFirst s1

/-- DEC (R120): the attach check, `FR.VALID <- 0`, then the reads. DESIGN CHOICE (log 30): a DEC that faults at the attach check
leaves `FR` as it was, by R120's order and 60_exceptions.md R205, although R131 says that every outcome other than `Ok` leaves
`FR.VALID = 0`. -/
def decFrame (cfg : Cfg) (s : State) : State :=
  if s.attached then decFirst cfg (invalidate (unblock s)) else fault .useAfterClose s

/-- The bytes a waiting V1 path has read. -/
def heldV1 (s : State) : Bytes :=
  match s.pending with
  | some (.decV1 got) => got
  | _ => []

/-- The bytes a waiting V2 path has read. -/
def heldV2 (s : State) : Bytes :=
  match s.pending with
  | some (.decV2 got) => got
  | _ => []

/-- `DEC` (R120). A refused DEC leaves `FR` as it was too (60_exceptions.md R205; DESIGN CHOICE against R131: log 30). -/
def execDec (s : State) : Host.Outcome State Fault Refusal :=
  .next (accept s (decFrame Config.hardware))

/-- `FRAME_V1` (R123): the V1 path of DEC, from where it waits (log 27). -/
def execFrameV1 (s : State) : Host.Outcome State Fault Refusal :=
  .next (accept s fun s => decV1 (heldV1 s) (unblock s))

/-- `FRAME_V2` (R127): the V2 path of DEC, from where it waits (log 27). -/
def execFrameV2 (s : State) : Host.Outcome State Fault Refusal :=
  .next (accept s fun s => decV2 Config.hardware (heldV2 s) (unblock s))

end Sys2Proof.Machine
end

