-- ==== Sys2Proof/Machine/FrameEncode.lean ====
section
/-! DEFINITION. The Frame Codec's encoders (41_frame_encode.md): ENC1 and ENC2. -/

namespace Sys2Proof.Machine

/-- The frame bytes, or the programming fault. -/
inductive EncodeResult
  | frame (f : Bytes)
  | fault (f : PFault)
deriving DecidableEq, Repr

/-- `[L, c[7:0]] ++ p`, what the V1 checksum covers (30_encoding.md R72). -/
def v1Body (c : Half) (p : Bytes) : Bytes := [BitVec.ofNat 8 p.length, c.extractLsb' 0 8] ++ p

/-- `Enc1(c, p)` (R110): the low byte of the command code (R112), a payload over 255 bytes is `PF_V1_TOO_LONG` (R111). -/
def enc1 (cfg : Cfg) (c : Half) (p : Bytes) : EncodeResult :=
  if p.length > cfg.v1MaxPayload then .fault .v1TooLong
  else .frame ([chDollar, chM, chLt] ++ v1Body c p ++ [xorChk (v1Body c p)])

/-- `[flags, c[7:0], c[15:8], L[7:0], L[15:8]] ++ pay`, what the V2 CRC covers (30_encoding.md R74). -/
def v2Body (flags : Byte) (c : Half) (pay : Bytes) : Bytes :=
  [flags] ++ le16 c ++ le16 (BitVec.ofNat 16 pay.length) ++ pay

/-- R115: the payload region ENC2 emits. -/
def v2Region (cfg : Cfg) (p : Bytes) : Bytes :=
  match cfg.v2EncPayload with
  | .zeroFill => List.replicate p.length 0x00#8
  | .verbatim => p

/-- `Enc2(c, p)` (R114): a payload over 65535 bytes is `PF_V2_TOO_LONG` (R116). The payload region has `len(p)` bytes either
way, so its length is the length field. -/
def enc2 (cfg : Cfg) (c : Half) (p : Bytes) : EncodeResult :=
  if p.length > 65535 then .fault .v2TooLong
  else
    let body := v2Body cfg.v2EncFlags c (v2Region cfg p)
    .frame ([chDollar, chX, chLt] ++ body ++ [crc8DvbS2 body])

/-- An encoder's end: the frame as the result, or the fault. -/
def finishEncode (r : EncodeResult) (s : State) : State :=
  match r with
  | .frame f => finish (.bytes f) s
  | .fault f => fault f s

/-- `ENC1 c, p` (R110) -/
def execEnc1 (c : Half) (p : Bytes) (s : State) : Host.Outcome State Fault Refusal :=
  .next (accept s (finishEncode (enc1 Config.hardware c p)))

/-- `ENC2 c, p` (R114) -/
def execEnc2 (c : Half) (p : Bytes) (s : State) : Host.Outcome State Fault Refusal :=
  .next (accept s (finishEncode (enc2 Config.hardware c p)))

end Sys2Proof.Machine
end

