-- ==== Sys2Proof/Machine/Marshal.lean ====
section
/-! DEFINITION. The Payload Marshaler (43_marshal.md): MAR and UNM, for each top-level shape tag. -/

namespace Sys2Proof.Machine

/-- The MAR body: a value that does not conform is `PF_SHAPE_VALUE_MISMATCH` (R147), else `Enc(sh, v)`. -/
def marshal (sh : Shape) (v : Value) (s : State) : State :=
  if conforms sh v then finish (.bytes (layout sh v)) s else fault .shapeValueMismatch s

/-- R151: a short payload. The cursor is drawn from where it stands up to `FR.LEN`. -/
def shortPayload (s : State) : State :=
  raise .endOfPayload
    { s with
      cur := BitVec.ofNat 16 (drawBetween s.cur.toNat s.fr.len.toNat s.draws)
      draws := s.draws + 1 }

/-- The UNM body: no frame (R150), a payload too short for the whole shape (R151; the sum is unbounded, 00_scope.md R13), or
`Dec(sh, CUR)` and `CUR` after it. -/
def unmarshal (sh : Shape) (s : State) : State :=
  if s.fr.valid then
    if s.cur.toNat + shapeSize sh > s.fr.len.toNat then shortPayload s
    else
      let r := readShape s.fr.pay sh s.cur.toNat
      finish (.value r.1) { s with cur := BitVec.ofNat 16 r.2 }
  else fault .noFrame s

/-- MAR with the tag its `SUB` names. -/
def marshalTagged (t : ShapeTag) (sh : Shape) (v : Value) (s : State) : State :=
  accept s fun s => requireTag t sh s (marshal sh v)

/-- UNM with the tag its `SUB` names. -/
def unmarshalTagged (t : ShapeTag) (sh : Shape) (s : State) : State :=
  accept s fun s => requireTag t sh s (unmarshal sh)

/-- `MAR.U8 sh, v` (R142) -/
def execMarU8 (sh : Shape) (v : Value) (s : State) : Host.Outcome State Fault Refusal :=
  .next (marshalTagged .u8 sh v s)

/-- `MAR.U16 sh, v` (R143) -/
def execMarU16 (sh : Shape) (v : Value) (s : State) : Host.Outcome State Fault Refusal :=
  .next (marshalTagged .u16 sh v s)

/-- `MAR.U32 sh, v` (R144) -/
def execMarU32 (sh : Shape) (v : Value) (s : State) : Host.Outcome State Fault Refusal :=
  .next (marshalTagged .u32 sh v s)

/-- `MAR.AGG sh, v` (R145) -/
def execMarAgg (sh : Shape) (v : Value) (s : State) : Host.Outcome State Fault Refusal :=
  .next (marshalTagged .agg sh v s)

/-- `MAR.SEQ sh, v` (R146) -/
def execMarSeq (sh : Shape) (v : Value) (s : State) : Host.Outcome State Fault Refusal :=
  .next (marshalTagged .seq sh v s)

/-- `UNM.U8 sh` (R152) -/
def execUnmU8 (sh : Shape) (s : State) : Host.Outcome State Fault Refusal :=
  .next (unmarshalTagged .u8 sh s)

/-- `UNM.U16 sh` (R153) -/
def execUnmU16 (sh : Shape) (s : State) : Host.Outcome State Fault Refusal :=
  .next (unmarshalTagged .u16 sh s)

/-- `UNM.U32 sh` (R154) -/
def execUnmU32 (sh : Shape) (s : State) : Host.Outcome State Fault Refusal :=
  .next (unmarshalTagged .u32 sh s)

/-- `UNM.AGG sh` (R155) -/
def execUnmAgg (sh : Shape) (s : State) : Host.Outcome State Fault Refusal :=
  .next (unmarshalTagged .agg sh s)

/-- `UNM.SEQ sh` (R156) -/
def execUnmSeq (sh : Shape) (s : State) : Host.Outcome State Fault Refusal :=
  .next (unmarshalTagged .seq sh s)

end Sys2Proof.Machine
end

