-- ==== Sys2Proof/Machine/Transport.lean ====
section
/-! DEFINITION. The transport operations (44_transport_ops.md): SEND, ATT, DET, and how an operation that waits for the
transport goes on. -/

namespace Sys2Proof.Machine

/-- SEND (R170), its checks in R170's order: attached, the value conforms, the frame's length; then the one TX write. -/
def sendFrame (cfg : Cfg) (c : Half) (sh : Shape) (v : Value) (s : State) : State :=
  if s.attached then
    if conforms sh v then
      match enc1 cfg c (layout sh v) with
      | .frame f => offer f s
      | .fault f => fault f s
    else fault .shapeValueMismatch s
  else fault .useAfterClose s

/-- ATT's two ends (R172). -/
def opened (name : PortName) (baud : Nat) (s : State) : State :=
  finish .none { s with attached := true, port := some ⟨name, baud⟩ }

/-- ATT (R172): a second attach is `PF_DOUBLE_ATTACH` (R173); else the environment answers, freely where no answer stands in
`opens` (log 3). -/
def attach (name : PortName) (baud : Nat) (s : State) : State :=
  if s.attached then fault .doubleAttach s
  else
    match s.opens with
    | .opened :: rest => opened name baud { s with opens := rest }
    | .failed :: rest => raise .openFailure { s with opens := rest }
    | [] =>
      if Config.freeOpened s.draws then opened name baud { s with draws := s.draws + 1 }
      else raise .openFailure { s with draws := s.draws + 1 }

/-- DET (R174) -/
def detach (s : State) : State :=
  if s.attached then finish .none { s with attached := false, port := none } else fault .useAfterClose s

/-- `SEND c, sh, v` (R170) -/
def execSend (c : Half) (sh : Shape) (v : Value) (s : State) : Host.Outcome State Fault Refusal :=
  .next (accept s (sendFrame Config.hardware c sh v))

/-- `ATT port, baud` (R172) -/
def execAtt (name : PortName) (baud : Nat) (s : State) : Host.Outcome State Fault Refusal :=
  .next (accept s (attach name baud))

/-- `DET` (R174) -/
def execDet (s : State) : Host.Outcome State Fault Refusal :=
  .next (accept s detach)

end Sys2Proof.Machine
end

