-- ==== Sys2Proof/Machine/Dispatch.lean ====
section
/-! DEFINITION. One arm per constructor of `Instr`: the meaning of each operation. -/

namespace Sys2Proof.Machine

def exec (i : Instr) (s : State) : Host.Outcome State Fault Refusal :=
  match i with
  | .chkx b => Sys2Proof.Machine.execChkx b s
  | .chkc b => Sys2Proof.Machine.execChkc b s
  | .enc1 c p => Sys2Proof.Machine.execEnc1 c p s
  | .enc2 c p => Sys2Proof.Machine.execEnc2 c p s
  | .dec => Sys2Proof.Machine.execDec s
  | .marU8 sh v => Sys2Proof.Machine.execMarU8 sh v s
  | .marU16 sh v => Sys2Proof.Machine.execMarU16 sh v s
  | .marU32 sh v => Sys2Proof.Machine.execMarU32 sh v s
  | .marAgg sh v => Sys2Proof.Machine.execMarAgg sh v s
  | .marSeq sh v => Sys2Proof.Machine.execMarSeq sh v s
  | .unmU8 sh => Sys2Proof.Machine.execUnmU8 sh s
  | .unmU16 sh => Sys2Proof.Machine.execUnmU16 sh s
  | .unmU32 sh => Sys2Proof.Machine.execUnmU32 sh s
  | .unmAgg sh => Sys2Proof.Machine.execUnmAgg sh s
  | .unmSeq sh => Sys2Proof.Machine.execUnmSeq sh s
  | .send c sh v => Sys2Proof.Machine.execSend c sh v s
  | .att name baud => Sys2Proof.Machine.execAtt name baud s
  | .det => Sys2Proof.Machine.execDet s
  | .frameV1 => Sys2Proof.Machine.execFrameV1 s
  | .frameV2 => Sys2Proof.Machine.execFrameV2 s

end Sys2Proof.Machine
end

