-- ==== Sys2Proof/Machine/Fetch.lean ====
section
/-! DEFINITION. What MSPE does next: it has no program counter and fetches nothing (10_state.md R21); it takes the next
input of the host, when no operation is in progress (20_memory.md R61), or goes on with the operation in progress. -/

namespace Sys2Proof.Machine

/-- The next piece of work, with the state it starts from. -/
inductive Work
  /-- nothing issued, nothing in progress (70_reset_and_hazards.md R231) -/
  | idle
  /-- the host asserts reset (R230) -/
  | reset (s : State)
  /-- an operation, or a frame path of the DEC in progress -/
  | run (i : Instr) (s : State)
  /-- a command that is no operation (30_encoding.md R83) -/
  | reject (r : Reject) (s : State)
  /-- a DEC waiting for its first byte -/
  | resumeFirst (s : State)
  /-- a DEC waiting for its second byte -/
  | resumeSecond (s : State)
  /-- a SEND waiting for the answer to its write -/
  | resumeSend (f : Bytes) (s : State)
  /-- the host has broken its duty 2 (60_exceptions.md R221) -/
  | noMeaning
deriving DecidableEq, Repr

/-- How the operation in progress goes on. -/
def resumeWork (p : Pending) (s : State) : Work :=
  match p with
  | .decFirst => .resumeFirst s
  | .decSecond => .resumeSecond s
  | .decV1 _ => .run .frameV1 s
  | .decV2 _ => .run .frameV2 s
  | .send f => .resumeSend f s

/-- The next input of a host that MSPE is free to hear, and the state with it taken: what it has issued, or else the first
thing it means to issue. -/
def nextInput (s : State) : Option (HostInput × State) :=
  match s.issued with
  | some x => some (x, { s with issued := none })
  | none =>
    match s.hostq with
    | [] => none
    | x :: rest => some (x, { s with hostq := rest })

/-- The work of the next input. -/
def takeInput (s : State) : Work :=
  match nextInput s with
  | none => .idle
  | some (.reset, s1) => .reset s1
  | some (.op c, s1) =>
    match decodeCommand c with
    | .instr i => .run i s1
    | .reject r => .reject r s1

/-- An operation waits, and the host has issued this. A reset lands where no answer has arrived (R230; log 7), an operation
that may overtake lets the waiting one go on (44_transport_ops.md R175), and any other breaks duty 2. -/
def duringWait (p : Pending) (x : HostInput) (s : State) : Work :=
  match x with
  | .reset => if answerArrived p s then resumeWork p s else .reset { s with issued := none }
  | .op c => if overtakes c p then resumeWork p s else .noMeaning

/-- The next piece of work. -/
def nextWork (s : State) : Work :=
  match s.pending with
  | none => takeInput s
  | some p =>
    match s.issued with
    | none => resumeWork p s
    | some x => duringWait p x s

/-- A SEND goes on. -/
def resumeSend (f : Bytes) (s : State) : State := accept s fun s => offer f (unblock s)

/-- A DEC goes on with its first read. -/
def resumeFirst (s : State) : State := accept s fun s => decFirst Config.hardware (unblock s)

/-- A DEC goes on with its second read. -/
def resumeSecond (s : State) : State := accept s fun s => decSecond Config.hardware (unblock s)

/-- The form of a table word placed so that it is MSPE's next work (log 15): a command word is what the host has issued, with
no operation in progress; the framing bytes of a frame stand as a DEC that has just read them, with nothing issued since. -/
def placeForm (e : Encoded) (s : State) : State :=
  match decode e, e with
  | .instr .frameV1, _ => { s with pending := some (.decV1 []), issued := none }
  | .instr .frameV2, _ => { s with pending := some (.decV2 []), issued := none }
  | _, .command c => { s with pending := none, issued := some (.op c) }
  | _, .wire b0 b1 => { s with pending := none, issued := some (.op ⟨opWord b0 b1, []⟩) }

end Sys2Proof.Machine
end

