-- ==== Sys2Proof/Machine/Step.lean ====
section
/-! DEFINITION. One step of MSPE. -/

namespace Sys2Proof.Machine

/-- One step: the next piece of work, done. An operation runs whole in one step (00_scope.md R11), unless the transport does
not answer it. -/
def step (s : State) : Host.Outcome State Fault Refusal :=
  match nextWork s with
  | .idle => .next s
  | .reset s1 => .next (machineReset s1)
  | .run i s1 => exec i s1
  | .reject r s1 => .next (rejectOp r s1)
  | .resumeFirst s1 => .next (resumeFirst s1)
  | .resumeSecond s1 => .next (resumeSecond s1)
  | .resumeSend f s1 => .next (resumeSend f s1)
  | .noMeaning => .refused .dutyBroken

/-- `s` with the opcode table's word `w` as its next work (log 15). -/
def State.withFetchWord (s : State) (_nbits w : Nat) : State :=
  placeForm (tableForm (BitVec.ofNat 16 w)) s

end Sys2Proof.Machine
end

