-- ==== Sys2Proof/Machine/Assembler.lean ====
section
/-! DEFINITION. The assembler's view of the operations (30_encoding.md R85, R86): pseudo-operations and their expansion, the
tag that MAR and UNM take from the shape written, and the textual form of an operation (log 26). No step reads this file. -/

namespace Sys2Proof.Machine

/-- R86's pseudo-operations. RESYNC is none: a host issues DEC again. -/
inductive PseudoOp
  | recv
  | query (c : Half)
deriving DecidableEq, Repr

/-- R86: `RECV` is `DEC`, and `QUERY c` is `SEND c, {}, {}`. -/
def expandPseudo : PseudoOp → Instr
  | .recv => .dec
  | .query c => .send c (.agg .nil) (.agg .nil)

/-- R85: `MAR sh, v` takes its tag from the shape written. -/
def asmMar (sh : Shape) (v : Value) : Instr := marInstr sh.tag sh v

/-- R85: `UNM sh` takes its tag from the shape written. -/
def asmUnm (sh : Shape) : Instr := unmInstr sh.tag sh

/-- Text, as characters. -/
abbrev Text := List Char

/-- The left brace of aggregates. -/
def openBrace : Char := Char.ofNat 123
/-- The right brace of aggregates. -/
def closeBrace : Char := Char.ofNat 125

/-- `, ` between operands. -/
def comma : Text := [',', ' ']

/-- Operands separated by commas. -/
def commaSep : List Text → Text
  | [] => []
  | [t] => t
  | t :: r => t ++ comma ++ commaSep r

/-- A number, in decimal. -/
def numberText (n : Nat) : Text := Nat.toDigits 10 n

/-- A byte, as `0x` and two hexadecimal digits. -/
def byteText (b : Byte) : Text := ['0', 'x', Nat.digitChar (b.toNat / 16), Nat.digitChar (b.toNat % 16)]

/-- R85: `[0x10, 0x20]`, and `[]` is empty. -/
def bytesText (s : Bytes) : Text := ['['] ++ commaSep (s.map byteText) ++ [']']

mutual
/-- R85: `u8`, `u16`, `u32`, `{s1, s2, ...}`, `[n]s`. -/
def shapeText : Shape → Text
  | .u8 => ['u', '8']
  | .u16 => ['u', '1', '6']
  | .u32 => ['u', '3', '2']
  | .agg fs => [openBrace] ++ commaSep (shapesText fs) ++ [closeBrace]
  | .seq n s => ['['] ++ numberText n ++ [']'] ++ shapeText s
/-- The fields' texts in order. -/
def shapesText : Shapes → List Text
  | .nil => []
  | .cons s r => shapeText s :: shapesText r
end

mutual
/-- R85: numbers, `{v1, ...}` for aggregates, `[v1, ...]` for sequences. -/
def valueText : Value → Text
  | .v8 x => numberText x.toNat
  | .v16 x => numberText x.toNat
  | .v32 x => numberText x.toNat
  | .agg vs => [openBrace] ++ commaSep (valuesText vs) ++ [closeBrace]
  | .seq vs => ['['] ++ commaSep (valuesText vs) ++ [']']
/-- The parts' texts in order. -/
def valuesText : Values → List Text
  | .nil => []
  | .cons v r => valueText v :: valuesText r
end

/-- A mnemonic followed by its operands, separated by commas (R85). -/
def opText (mnemonic : Text) (operands : List Text) : Text :=
  match operands with
  | [] => mnemonic
  | _ :: _ => mnemonic ++ [' '] ++ commaSep operands

/-- MAR's text; the tag is in the shape. -/
def marText (sh : Shape) (v : Value) : Text := opText ['M', 'A', 'R'] [shapeText sh, valueText v]

/-- UNM's text; the tag is in the shape. -/
def unmText (sh : Shape) : Text := opText ['U', 'N', 'M'] [shapeText sh]

/-- A port name between double quotes, a character for each of its bytes. -/
def portText (name : PortName) : Text :=
  [Char.ofNat 34] ++ name.map (fun b => Char.ofNat b.toNat) ++ [Char.ofNat 34]

/-- The textual form of an operation (R85). The wire rows are no operations and have none. -/
def asmText : Instr → Option Text
  | .chkx s => some (opText ['C', 'H', 'K', 'X'] [bytesText s])
  | .chkc s => some (opText ['C', 'H', 'K', 'C'] [bytesText s])
  | .enc1 c p => some (opText ['E', 'N', 'C', '1'] [numberText c.toNat, bytesText p])
  | .enc2 c p => some (opText ['E', 'N', 'C', '2'] [numberText c.toNat, bytesText p])
  | .dec => some (opText ['D', 'E', 'C'] [])
  | .marU8 sh v => some (marText sh v)
  | .marU16 sh v => some (marText sh v)
  | .marU32 sh v => some (marText sh v)
  | .marAgg sh v => some (marText sh v)
  | .marSeq sh v => some (marText sh v)
  | .unmU8 sh => some (unmText sh)
  | .unmU16 sh => some (unmText sh)
  | .unmU32 sh => some (unmText sh)
  | .unmAgg sh => some (unmText sh)
  | .unmSeq sh => some (unmText sh)
  | .send c sh v => some (opText ['S', 'E', 'N', 'D'] [numberText c.toNat, shapeText sh, valueText v])
  | .att name baud => some (opText ['A', 'T', 'T'] [portText name, numberText baud])
  | .det => some (opText ['D', 'E', 'T'] [])
  | .frameV1 => none
  | .frameV2 => none

/-- R85: a line `; text` is a comment. -/
def commentText (t : Text) : Text := [';', ' '] ++ t

end Sys2Proof.Machine
end

