-- ==== Sys2Proof/Safety.lean ====
section
/-! DEFINITION. What a sound state of MSPE is: the invariants of 10_state.md R37, and what the operation in progress, STATUS
and PORT keep to. -/

namespace Sys2Proof.Machine

/-- R37.1: the length is the payload's, and the cursor stands inside the payload. -/
abbrev FrameLength (s : State) : Prop :=
  s.fr.valid = true → s.fr.len.toNat = s.fr.pay.length ∧ s.cur.toNat ≤ s.fr.len.toNat

/-- R22: `FR.PAY` holds at most `PAYLOAD_CAP` bytes. -/
abbrev FrameFits (s : State) : Prop :=
  s.fr.valid = true → s.fr.pay.length ≤ Config.hardware.payloadCap

/-- R37.2: a V1 frame has an 8-bit length and an 8-bit command code. -/
abbrev FrameV1Bounds (s : State) : Prop :=
  s.fr.valid = true → s.fr.ver = .v1 → s.fr.len.toNat ≤ 255 ∧ s.fr.cmd.toNat ≤ 0x00FF

/-- R37.3: a V1 frame's checksum is the XOR of length, command and payload. -/
abbrev FrameV1Checksum (s : State) : Prop :=
  s.fr.valid = true → s.fr.ver = .v1 →
    s.fr.chk = xorChk ([s.fr.len.extractLsb' 0 8, s.fr.cmd.extractLsb' 0 8] ++ s.fr.pay)

/-- R37.4: the direction is `'<'` or `'>'`. -/
abbrev FrameDirection (s : State) : Prop :=
  s.fr.valid = true → s.fr.dir = 0x3C#8 ∨ s.fr.dir = 0x3E#8

/-- R200: `STATUS.CODE` holds a code of the table. -/
abbrev CodeKnown (s : State) : Prop := s.code ∈ knownCodes

/-- R205, R30: the sticky bit is set exactly while the last outcome that was written is a programming fault. -/
abbrev FaultIsLastOutcome (s : State) : Prop := s.faulted = true ↔ codeClass s.code = some .pf

/-- An operation in progress: it runs on an attached transport, with no fault; a DEC has cleared `FR.VALID` (R120). -/
abbrev PendingRuns (s : State) : Prop :=
  match s.pending with
  | none => True
  | some (.send _) => s.attached = true ∧ s.faulted = false
  | some _ => s.attached = true ∧ s.faulted = false ∧ s.fr.valid = false

/-- R23: an attached transport has a port record. -/
abbrev AttachedHasPort (s : State) : Prop := s.attached = true → s.port.isSome = true

/-- R221: the host keeps its duty 2. -/
abbrev HostKeepsDuty (s : State) : Prop := breaksDuty s = false

/-- The invariant of MSPE. -/
abbrev State.Inv (s : State) : Prop :=
  FrameLength s ∧ FrameFits s ∧ FrameV1Bounds s ∧ FrameV1Checksum s ∧ FrameDirection s ∧ CodeKnown s ∧
    FaultIsLastOutcome s ∧ PendingRuns s ∧ AttachedHasPort s ∧ HostKeepsDuty s

/-- Two states agree on every architectural element of 10_state.md R22. -/
abbrev SameRegisters (s t : State) : Prop :=
  t.attached = s.attached ∧ t.port = s.port ∧ t.fr = s.fr ∧ t.cur = s.cur ∧ t.code = s.code ∧ t.faulted = s.faulted ∧
    t.err = s.err ∧ t.rxpos = s.rxpos ∧ t.txlog = s.txlog

end Sys2Proof.Machine
end

