-- ==== Sys2Proof/Certificates/Slice0/Obligations.lean ====
section
/-! DEFINITION. The statements for the provers, from the spec's numbered rules. Wherever a value is free (the spec's `draw`), a
statement holds for every value of it. -/

namespace Sys2Proof.Claims

open Sys2Proof Sys2Proof.Machine

/-! ## Words of the statements -/

/-- RX answers that deliver these bytes. -/
abbrev bytesRx (s : Bytes) : List RxAnswer := s.map .byte

/-- The state after success with this result: `STATUS.CODE` 0x00, `ERR` as before (10_state.md R31). -/
def okState (r : OpResult) (s : State) : State := { s with code := 0x00#8, resp := some (.ok r) }

/-- The state after an error outcome that records this `ERR`. -/
def errState (code : Byte) (err : ErrReg) (s : State) : State :=
  { s with code := code, err := err, resp := some (.error code) }

/-- The state after a programming fault: the code, `ERR` cleared, the sticky bit, nothing else (60_exceptions.md R205). -/
def faultState (code : Byte) (s : State) : State :=
  { s with code := code, err := ⟨0, [], 0, 0, 0, .none⟩, faulted := true, resp := some (.fault code) }

/-- `ERR` cleared. -/
def noErr : ErrReg := ⟨0, [], 0, 0, 0, .none⟩

/-- The host's next input to a machine that is free is `x`, and `u` is the state with it taken: what it has issued, or else the
first thing it means to issue. -/
def Takes (x : HostInput) (s u : State) : Prop :=
  s.pending = none ∧ ((s.issued = some x ∧ u = { s with issued := none }) ∨
    (s.issued = none ∧ ∃ q, s.hostq = x :: q ∧ u = { s with hostq := q }))

/-- An operation waits, and the host has issued another one: a DET may overtake a DEC (44_transport_ops.md R175), and any other
breaks the host's duty 2 (60_exceptions.md R221). -/
def DutyBroken (s : State) : Prop :=
  ∃ p c, s.pending = some p ∧ s.issued = some (.op c) ∧ (decodeCommand c ≠ .instr .det ∨ ∃ f, p = .send f)

/-- The command DET. -/
abbrev detCommand : HostInput := .op ⟨0x5100#16, []⟩

/-- The step does not assert reset. -/
def NoReset (s : State) : Prop := ∀ u, nextWork s ≠ .reset u

/-- The types of operands. -/
inductive Kind
  | bytes
  | u16
  | shape
  | value
  | port
  | nat
  | foreign
deriving DecidableEq, Repr

/-- The type of an operand. -/
def kindOf : Operand → Kind
  | .bytes _ => .bytes
  | .u16 _ => .u16
  | .shape _ => .shape
  | .value _ => .value
  | .port _ => .port
  | .nat _ => .nat
  | .foreignShape => .foreign

/-- 30_encoding.md R81's operands column. -/
def rowKinds (opc : Byte) : Option (List Kind) :=
  if opc = 0x01#8 ∨ opc = 0x02#8 then some [.bytes]
  else if opc = 0x10#8 ∨ opc = 0x11#8 then some [.u16, .bytes]
  else if opc = 0x20#8 ∨ opc = 0x51#8 then some []
  else if opc = 0x30#8 then some [.shape, .value]
  else if opc = 0x31#8 then some [.shape]
  else if opc = 0x40#8 then some [.u16, .shape, .value]
  else if opc = 0x50#8 then some [.port, .nat]
  else none

/-- R82's number of a shape's top-level constructor. -/
def tagNumber : Shape → Byte
  | .u8 => 0x01#8
  | .u16 => 0x02#8
  | .u32 => 0x04#8
  | .agg _ => 0x10#8
  | .seq _ _ => 0x20#8

/-- R83's five cases of an illegal command word. A missing operand has no type; a shape outside the grammar where the row wants
a shape is R84's own case, and anywhere else an operand of the wrong type. -/
def Illegal (c : Command) : Prop :=
  rowKinds (opcOf c.op) = none ∨
  (opcOf c.op ≠ 0x30#8 ∧ opcOf c.op ≠ 0x31#8 ∧ subOf c.op ≠ 0x00#8) ∨
  ((opcOf c.op = 0x30#8 ∨ opcOf c.op = 0x31#8) ∧ subOf c.op ∉ [0x01#8, 0x02#8, 0x04#8, 0x10#8, 0x20#8]) ∨
  (∃ sh v, opcOf c.op = 0x30#8 ∧ c.args = [.shape sh, .value v] ∧ subOf c.op ≠ tagNumber sh) ∨
  (∃ sh, opcOf c.op = 0x31#8 ∧ c.args = [.shape sh] ∧ subOf c.op ≠ tagNumber sh) ∨
  (∃ ks, rowKinds (opcOf c.op) = some ks ∧ ∃ i < ks.length, (c.args.map kindOf)[i]? ≠ ks[i]? ∧
    ¬ (ks[i]? = some .shape ∧ (c.args.map kindOf)[i]? = some .foreign))

/-- What `ERR` holds after an error outcome of this code: R202's fields, every other one cleared. -/
def RecordsError (code : Byte) (err : ErrReg) : Prop :=
  (code = 0x10#8 → ∃ cmd pay obs exp, obs ≠ exp ∧ err = ⟨cmd, pay, obs, exp, 0, .none⟩) ∧
  (code = 0x11#8 → ∃ b, b ≠ 0x24#8 ∧ err = ⟨0, [], 0, 0, b, .marker⟩) ∧
  (code = 0x12#8 → ∃ b, (b ≠ 0x4D#8 ∧ b ≠ 0x58#8 ∧ err = ⟨0, [], 0, 0, b, .version⟩) ∨
    (b ≠ 0x3C#8 ∧ b ≠ 0x3E#8 ∧ err = ⟨0, [], 0, 0, b, .direction⟩)) ∧
  (code ∉ [0x10#8, 0x11#8, 0x12#8] → err = noErr)

/-- One message bit into the CRC register, most significant first: the feedback bit is the register's top bit against the
message bit, the polynomial is 0xD5 (40_checksum.md R102). -/
def crcBit (c : Byte) (bit : Bool) : Byte := if c.msb != bit then (c <<< 1) ^^^ 0xD5#8 else c <<< 1

/-- The bits of a byte, most significant first. -/
def msbFirst (b : Byte) : List Bool := (List.range 8).map fun i => b.getMsbD i

/-- What a DEC never touches (10_state.md R22), and that it has ended. -/
def DecKeeps (s t : State) : Prop :=
  t.attached = s.attached ∧ t.port = s.port ∧ t.txlog = s.txlog ∧ t.faulted = s.faulted ∧ t.issued = s.issued ∧
    t.hostq = s.hostq ∧ t.tx = s.tx ∧ t.opens = s.opens ∧ t.pending = none

/-- A latched frame: `FR`, `CUR <- 0`, `STATUS.CODE <- 0x00`, `ERR` as before. -/
def Latched (fr : FrameReg) (s t : State) : Prop :=
  t.fr = fr ∧ t.cur = 0 ∧ t.code = 0x00#8 ∧ t.err = s.err ∧ t.resp = some (.ok .none)

/-- An error outcome of DEC: the code and `ERR`, and no frame. -/
def DecError (code : Byte) (err : ErrReg) (t : State) : Prop :=
  t.fr.valid = false ∧ t.code = code ∧ t.err = err ∧ t.resp = some (.error code)

/-- The end of the V1 path on `d L k p obs`, all delivered (42_frame_decode.md R123–R125). -/
def V1Ends (d l k : Byte) (p : Bytes) (obs : Byte) (s t : State) : Prop :=
  let exp := xorChk ([l, k] ++ p)
  if obs = exp then Latched ⟨true, .v1, d, k.setWidth 16, l.setWidth 16, p, obs⟩ s t
  else DecError 0x10#8 ⟨k.setWidth 16, p, obs, exp, 0, .none⟩ t

/-- The fields of an UNM that delivered a value and moved the cursor on by `n` (43_marshal.md R141). -/
def unmDone (v : Value) (n : Nat) (s : State) : State :=
  okState (.value v) { s with cur := s.cur + BitVec.ofNat 16 n }

/-- The three cases of an UNM of `n` bytes that reads `value` (R150, R151 and the UNM body). -/
def UnmCases (i : Instr) (n : Nat) (value : State → Value) : Prop :=
  ∀ s : State, s.faulted = false →
    (s.fr.valid = false → exec i s = .next (faultState 0x45#8 s)) ∧
    (s.fr.valid = true → s.cur.toNat ≤ s.fr.len.toNat → s.cur.toNat + n > s.fr.len.toNat →
      ∃ (c : Half) (d : Nat), s.cur.toNat ≤ c.toNat ∧ c.toNat ≤ s.fr.len.toNat ∧
        exec i s = .next (errState 0x30#8 noErr { s with cur := c, draws := d })) ∧
    (s.fr.valid = true → s.cur.toNat + n ≤ s.fr.len.toNat → exec i s = .next (unmDone (value s) n s))

/-- The operations that read the RX port (20_memory.md R50). -/
def ReadsRx : Instr → Prop
  | .dec => True
  | .frameV1 => True
  | .frameV2 => True
  | _ => False

/-- The operations that write the TX port (R50). -/
def WritesTx : Instr → Prop
  | .send _ _ _ => True
  | _ => False

/-- The operations that open or close the transport (10_state.md R23). -/
def OpensOrCloses : Instr → Prop
  | .att _ _ => True
  | .det => True
  | _ => False

/-- The operations that move the cursor over the payload (R28). -/
def MovesCursor : Instr → Prop
  | .unmU8 _ => True
  | .unmU16 _ => True
  | .unmU32 _ => True
  | .unmAgg _ => True
  | .unmSeq _ => True
  | _ => False

/-- The pure operations: checksums, encoders, marshal (40_checksum.md R104, 41_frame_encode.md R113, 43_marshal.md R148). -/
def PureOp : Instr → Prop
  | .chkx _ => True
  | .chkc _ => True
  | .enc1 _ _ => True
  | .enc2 _ _ => True
  | .marU8 _ _ => True
  | .marU16 _ _ => True
  | .marU32 _ _ => True
  | .marAgg _ _ => True
  | .marSeq _ _ => True
  | _ => False

/-- The answer of a read that ends it without a byte, and the code of the transport error it is inside a frame
(42_frame_decode.md R126). -/
def shortCode : RxAnswer → Option Byte
  | .byte _ => none
  | .endOfStream => some 0x22#8
  | .ioFailure => some 0x21#8

/-- Fewer bytes than the V1 path needs: a part of `d L k`, or, with a legal direction, a part of payload and checksum. -/
def ShortV1 (bs : Bytes) : Prop :=
  bs.length < 3 ∨ ∃ d l k more, bs = d :: l :: k :: more ∧ (d = 0x3C#8 ∨ d = 0x3E#8) ∧ more.length < l.toNat + 1

/-- Fewer bytes than the V2 path needs. -/
def ShortV2 (bs : Bytes) : Prop :=
  bs.length < 6 ∨ ∃ d f cl ch ll lh more, bs = d :: f :: cl :: ch :: ll :: lh :: more ∧ (d = 0x3C#8 ∨ d = 0x3E#8) ∧
    more.length < ll.toNat + 256 * lh.toNat + 1

/-- Is this answer a byte? -/
def isByte : RxAnswer → Bool
  | .byte _ => true
  | _ => false

end Sys2Proof.Claims

open Sys2Proof Sys2Proof.Machine Sys2Proof.Claims

/-! ## Encoding -/

/-- Decoding the encoding of a well-formed instruction gives it back, with every operand at every value (R80–R83, R77). -/
def Obligations.DecodeEncodeAgree : Prop :=
  ∀ i : Instr, i.wf = true → decode (encode i) = .instr i

/-- A form that decodes is the encoding of what it decodes to, and that instruction is well formed: each form has one meaning
(R77, R80–R82). That a form with an operand too many does not decode, on which this rests, is the model's choice (log 13): R83
names missing and wrong operands only. -/
def Obligations.EncodeDecodeAgree : Prop :=
  ∀ (e : Encoded) (i : Instr), decode e = .instr i → i.wf = true ∧ encode i = e

/-- Words written out from R81 and R82, and the framing bytes of R77. -/
def Obligations.CommandWordsDecode : Prop :=
  decodeCommand ⟨0x0100#16, [.bytes [0x00, 0x01]]⟩ = .instr (.chkx [0x00, 0x01]) ∧
  decodeCommand ⟨0x1100#16, [.u16 0x1234, .bytes [1, 2, 3]]⟩ = .instr (.enc2 0x1234 [1, 2, 3]) ∧
  decodeCommand ⟨0x2000#16, []⟩ = .instr .dec ∧
  decodeCommand ⟨0x3004#16, [.shape .u32, .value (.v32 5)]⟩ = .instr (.marU32 .u32 (.v32 5)) ∧
  decodeCommand ⟨0x3120#16, [.shape (.seq 4 .u16)]⟩ = .instr (.unmSeq (.seq 4 .u16)) ∧
  decodeCommand ⟨0x5100#16, []⟩ = .instr .det ∧
  decode (.wire 0x24#8 0x4D#8) = .instr .frameV1 ∧
  decode (.wire 0x24#8 0x58#8) = .instr .frameV2

/-- R83: an illegal command word raises `PF_ILLEGAL_OP` with no other effect (the command itself is taken). -/
def Obligations.IllegalCommandsFault : Prop :=
  ∀ (s u : State) (c : Command), Takes (.op c) s u → s.faulted = false → Illegal c → step s = .next (faultState 0x47#8 u)

/-- A shape outside the grammar, presented in some other form, is `PF_UNSUPPORTED_SHAPE` for MAR, UNM and SEND (R84,
43_marshal.md R147). That it is found at decoding is the model's choice (log 14): before every check of the operation itself, so
for SEND before its attach check, and for UNM before `PF_NO_FRAME`. -/
def Obligations.UnsupportedShapesFault : Prop :=
  ∀ (s u : State) (c : Command) (v : Value) (cmd : Half), Takes (.op c) s u → s.faulted = false →
    ((opcOf c.op = 0x30#8 ∧ subOf c.op ∈ [0x01#8, 0x02#8, 0x04#8, 0x10#8, 0x20#8] ∧ c.args = [.foreignShape, .value v]) ∨
      (opcOf c.op = 0x31#8 ∧ subOf c.op ∈ [0x01#8, 0x02#8, 0x04#8, 0x10#8, 0x20#8] ∧ c.args = [.foreignShape]) ∨
      (c.op = 0x4000#16 ∧ c.args = [.u16 cmd, .foreignShape, .value v])) →
    step s = .next (faultState 0x41#8 u)

/-- MAR and UNM whose shape operand has another top-level constructor than `SUB` names: `PF_ILLEGAL_OP` (R82, R83), as a
meaning of its own (log 25). -/
def Obligations.TagMismatchFaults : Prop :=
  ∀ (t : ShapeTag) (sh : Shape) (v : Value) (s : State), s.faulted = false → sh.tag ≠ t →
    exec (marInstr t sh v) s = .next (faultState 0x47#8 s) ∧ exec (unmInstr t sh) s = .next (faultState 0x47#8 s)

/-! ## The step -/

/-- A command that decodes is run by a machine that is free: the step is `exec` of it, the command taken. It is the one the host
has issued, or else the first one it means to issue (R80, 20_memory.md R61; logs 4, 6). -/
def Obligations.StepRunsDeliveredCommand : Prop :=
  ∀ (s : State) (c : Command) (i : Instr), s.pending = none → decodeCommand c = .instr i →
    (s.issued = some (.op c) → step s = exec i { s with issued := none }) ∧
    (∀ q, s.issued = none → s.hostq = .op c :: q → step s = exec i { s with hostq := q })

/-- A DEC that waits inside a frame goes on as the frame's path (42_frame_decode.md R123, R127; logs 6, 27), unless a reset
lands or the host has broken its duty 2. -/
def Obligations.StepRunsFramePath : Prop :=
  ∀ s : State, NoReset s → ¬ DutyBroken s →
    (∀ got, s.pending = some (.decV1 got) → step s = exec .frameV1 s) ∧
    (∀ got, s.pending = some (.decV2 got) → step s = exec .frameV2 s)

/-- 60_exceptions.md R221, duty 2: a run in which the host issues an operation while another one waits, other than DET while a
DEC waits, has no meaning: the step answers no state. In every other state the step answers one. And no input of the host that
the model offers (log 4) makes such a state out of one that is none. -/
def Obligations.BrokenDutyHasNoMeaning : Prop :=
  (∀ s : State, DutyBroken s → step s = .refused .dutyBroken) ∧
  (∀ s : State, ¬ DutyBroken s → ∃ t, step s = .next t) ∧
  (∀ (s t : State) (x : HostInput), hostIssues x s = some t → t = { s with issued := some x } ∧ ¬ DutyBroken t) ∧
  (∀ (s : State) (x : HostInput), s.issued = none → ¬ DutyBroken { s with issued := some x } →
    hostIssues x s = some { s with issued := some x })

/-- MSPE with nothing issued or meant to be, and nothing in progress, waits (70_reset_and_hazards.md R231). -/
def Obligations.StepIdlesWithoutInput : Prop :=
  ∀ s : State, s.pending = none → s.issued = none → s.hostq = [] → step s = .next s

/-- The reset values of 10_state.md R36, where it gives one. -/
def Obligations.ResetStateHasResetValues : Prop :=
  State.reset.attached = false ∧ State.reset.port = none ∧ State.reset.fr.valid = false ∧ State.reset.cur = 0 ∧
  State.reset.code = 0x00#8 ∧ State.reset.faulted = false ∧ State.reset.err = noErr ∧ State.reset.rxpos = 0 ∧
  State.reset.txlog = []

/-- R230: a reset between two operations, or during a DEC or SEND that waits, puts every element to its reset value, abandons
the operation without an outcome, and leaves the RX bytes consumed. The model's own choices in it: an answer that has arrived is
taken first (log 7); the answers and what the host means to issue stand as they did (log 12); `resp` is none (log 8). -/
def Obligations.ResetStepResets : Prop :=
  ∀ s u : State,
    (Takes .reset s u ∨
      (s.issued = some .reset ∧ u = { s with issued := none } ∧ ∃ p, s.pending = some p ∧ answerArrived p s = false)) →
    ∃ t, step s = .next t ∧
      t.attached = false ∧ t.port = none ∧ t.fr.valid = false ∧ t.cur = 0 ∧ t.code = 0x00#8 ∧ t.faulted = false ∧
      t.err = noErr ∧ t.rxpos = 0 ∧ t.txlog = [] ∧ t.pending = none ∧ t.resp = none ∧
      t.issued = none ∧ t.hostq = u.hostq ∧ t.rx = s.rx ∧ t.tx = s.tx ∧ t.opens = s.opens

/-! ## Outcomes and faults -/

/-- R30: while `STATUS.FAULT` is 1 each operation, and each illegal word, is refused with no state change. That a refused DEC keeps
`FR` too, against 42_frame_decode.md R131, is the model's choice (log 30). -/
def Obligations.FaultedMachineRefuses : Prop :=
  ∀ s : State, s.faulted = true →
    (∀ i : Instr, exec i s = .next { s with resp := some .refused }) ∧
    (∀ (c : Command) (u : State), Takes (.op c) s u → step s = .next { u with resp := some .refused })

/-- R30, R205: once `STATUS.FAULT` is set, no number of steps without a reset changes any register or touches a port.
That refused DECs keep `FR` too, against 42_frame_decode.md R131, is the model's choice (log 30). -/
def Obligations.FaultStaysUntilReset : Prop :=
  ∀ (n : Nat) (s t : State), s.faulted = true → s.issued ≠ some .reset → (∀ x ∈ s.hostq, x ≠ .reset) →
    Host.Core.run core n s = .next t →
    SameRegisters s t ∧ t.rx = s.rx ∧ t.tx = s.tx ∧ t.opens = s.opens

/-- What every operation does to STATUS and ERR, by its outcome (R29, R31, R202, R203, R205): success writes 0x00 and leaves `ERR`;
an error writes its code, of a class PE, TE or UE, clears `ERR` and records the outcome's information, and leaves the sticky bit;
a programming fault changes nothing but the code, `ERR` and the sticky bit (for a detached DEC, whose `FR` stays against
42_frame_decode.md R131, this is the model's choice: log 30); an operation with no outcome yet waits and has written
none of them. That `resp` is none exactly then is the model's choice (log 8), and that a waiting operation has written none of
them is its reading of 00_scope.md R11 (log 28). -/
def Obligations.OutcomesWriteStatus : Prop :=
  ∀ (i : Instr) (s t : State), s.faulted = false → exec i s = .next t →
    match t.resp with
    | some (.ok _) => t.code = 0x00#8 ∧ t.err = s.err ∧ t.faulted = false
    | some (.error c) =>
      t.code = c ∧ t.faulted = false ∧ RecordsError c t.err ∧
        (codeClass c = some .pe ∨ codeClass c = some .te ∨ codeClass c = some .ue)
    | some (.fault c) => t = faultState c s ∧ codeClass c = some .pf
    | some .refused => False
    | none => t.pending.isSome = true ∧ t.code = s.code ∧ t.err = s.err ∧ t.faulted = false

/-! ## Checksum Engine -/

/-- R100: CHKX returns the exclusive-or of all its bytes, whatever their order, and 0x00 for none; it writes `STATUS.CODE`
only. -/
def Obligations.ChkxReturnsXor : Prop :=
  ∀ (b : Bytes) (s : State), s.faulted = false →
    exec (.chkx b) s = .next (okState (.byte (b.foldr (fun x c => x ^^^ c) 0x00#8)) s) ∧
    ∀ b', b.Perm b' → exec (.chkx b') s = exec (.chkx b) s

/-- R102: CHKC returns the CRC that a register of polynomial 0xD5 and initial value 0 gets from the message's bits one at a
time, most significant bit of each byte first; it writes `STATUS.CODE` only. -/
def Obligations.ChkcReturnsBitSerialCrc : Prop :=
  ∀ (b : Bytes) (s : State), s.faulted = false →
    exec (.chkc b) s = .next (okState (.byte ((b.flatMap msbFirst).foldl crcBit 0x00#8)) s)

/-- R105: the table-driven CRC, and some entries of the table. -/
def Obligations.CrcEqualsTableDriven : Prop :=
  (∀ b : Bytes, crc8DvbS2 b = b.foldl (fun c x => crc8DvbS2 [c ^^^ x]) 0x00#8) ∧
  crc8DvbS2 [0x00] = 0x00#8 ∧ crc8DvbS2 [0x01] = 0xD5#8 ∧ crc8DvbS2 [0x80] = 0xEF#8 ∧ crc8DvbS2 [0xD5] = 0x0B#8 ∧
  crc8DvbS2 [0xFF] = 0xF9#8

/-- R101: one changed byte changes the XOR checksum, by the difference of the two bytes. -/
def Obligations.XorDetectsByteChange : Prop :=
  ∀ (pre post : Bytes) (a a' : Byte), a ≠ a' →
    xorChk (pre ++ a :: post) ^^^ xorChk (pre ++ a' :: post) = a ^^^ a' ∧
    xorChk (pre ++ a :: post) ≠ xorChk (pre ++ a' :: post)

/-- One changed byte changes the CRC (the polynomial 0xD5 is odd, so a step loses nothing; R102). -/
def Obligations.CrcDetectsByteChange : Prop :=
  ∀ (pre post : Bytes) (a a' : Byte), a ≠ a' → crc8DvbS2 (pre ++ a :: post) ≠ crc8DvbS2 (pre ++ a' :: post)

/-! ## Frame Codec, encode -/

/-- R110, R111: ENC1's frame, of `len(p) + 6` bytes, and the fault on a payload over 255 bytes. -/
def Obligations.Enc1ReturnsFrame : Prop :=
  ∀ (c : Half) (p : Bytes) (s : State), s.faulted = false →
    (p.length ≤ 255 → ∃ f : Bytes,
      f = [0x24#8, 0x4D#8, 0x3C#8, BitVec.ofNat 8 p.length, c.setWidth 8] ++ p ++
        [xorChk ([BitVec.ofNat 8 p.length, c.setWidth 8] ++ p)] ∧
      f.length = p.length + 6 ∧ exec (.enc1 c p) s = .next (okState (.bytes f) s)) ∧
    (p.length > 255 → exec (.enc1 c p) s = .next (faultState 0x43#8 s))

/-- R114, R116: ENC2's frame, of `len(p) + 9` bytes, with flags 0x00, its payload region zeros or `p` as `V2_ENC_PAYLOAD`
says (R115; the parameter is open), and the fault on a payload over 65535 bytes. -/
def Obligations.Enc2ReturnsFrame : Prop :=
  ∀ (c : Half) (p : Bytes) (s : State), s.faulted = false →
    (p.length ≤ 65535 → ∃ f pay body : Bytes,
      pay = (if Config.v2EncPayload = .zeroFill then List.replicate p.length 0x00#8 else p) ∧
      body = [0x00#8, c.setWidth 8, (c >>> 8).setWidth 8, BitVec.ofNat 8 p.length, BitVec.ofNat 8 (p.length / 256)] ++ pay ∧
      f = [0x24#8, 0x58#8, 0x3C#8] ++ body ++ [crc8DvbS2 body] ∧
      f.length = p.length + 9 ∧ exec (.enc2 c p) s = .next (okState (.bytes f) s)) ∧
    (p.length > 65535 → exec (.enc2 c p) s = .next (faultState 0x44#8 s))

/-! ## Frame Codec, decode -/

/-- R121: DEC's first read decides. A byte other than `'$'` ends DEC with that one byte consumed; the end of the stream is
`PE_END_OF_STREAM`; a read failure is `TE_IO_FAILURE`, with `ATTACHED` drawn. -/
def Obligations.DecFirstReadDecides : Prop :=
  ∀ (s : State) (rest : List RxAnswer), s.faulted = false → s.attached = true →
    (∀ b : Byte, b ≠ 0x24#8 → s.rx = .byte b :: rest → ∃ t, exec .dec s = .next t ∧
      DecError 0x11#8 ⟨0, [], 0, 0, b, .marker⟩ t ∧ DecKeeps s t ∧ t.rxpos = s.rxpos + 1 ∧ t.rx = rest) ∧
    (s.rx = .endOfStream :: rest → ∃ t, exec .dec s = .next t ∧
      DecError 0x13#8 noErr t ∧ DecKeeps s t ∧ t.rxpos = s.rxpos ∧ t.rx = rest) ∧
    (s.rx = .ioFailure :: rest → ∃ t, exec .dec s = .next t ∧
      DecError 0x21#8 noErr t ∧ DecKeeps { s with attached := t.attached } t ∧ t.rxpos = s.rxpos ∧ t.rx = rest)

/-- R122: the second byte selects the sub-format: `'M'` and `'X'` go on as the V1 and V2 paths, with `FR.VALID` cleared and
two bytes consumed; any other value is malformed-header with that byte. -/
def Obligations.DecSecondByteSelects : Prop :=
  ∀ (s : State) (b1 : Byte) (rest : List RxAnswer), s.faulted = false → s.attached = true →
    s.rx = .byte 0x24#8 :: .byte b1 :: rest →
    (b1 = 0x4D#8 ∨ b1 = 0x58#8 → ∃ u : State, DecKeeps s { u with pending := none } ∧ u.fr.valid = false ∧
      u.rx = rest ∧ u.rxpos = s.rxpos + 2 ∧ u.code = s.code ∧ u.err = s.err ∧
      (b1 = 0x4D#8 → u.pending = some (.decV1 []) ∧ exec .dec s = exec .frameV1 u) ∧
      (b1 = 0x58#8 → u.pending = some (.decV2 []) ∧ exec .dec s = exec .frameV2 u)) ∧
    (b1 ≠ 0x4D#8 → b1 ≠ 0x58#8 → ∃ t, exec .dec s = .next t ∧
      DecError 0x12#8 ⟨0, [], 0, 0, b1, .version⟩ t ∧ DecKeeps s t ∧ t.rxpos = s.rxpos + 2 ∧ t.rx = rest)

/-- R123–R125, R130: FRAME_V1 on a whole frame, from wherever the path waits (`got` read before, `more` to come): a legal
direction and the right checksum latch the frame; a wrong checksum is surfaced with observed and expected values and no frame
is latched. All the bytes are consumed. -/
def Obligations.FrameV1EndsByChecksum : Prop :=
  ∀ (s : State) (d l k : Byte) (p : Bytes) (obs : Byte) (got more : Bytes) (rest : List RxAnswer),
    s.faulted = false → s.fr.valid = false → s.pending = some (.decV1 got) → s.rx = bytesRx more ++ rest →
    got ++ more = d :: l :: k :: p ++ [obs] → p.length = l.toNat → (d = 0x3C#8 ∨ d = 0x3E#8) →
    ∃ t, exec .frameV1 s = .next t ∧ V1Ends d l k p obs s t ∧ DecKeeps s t ∧ t.rxpos = s.rxpos + more.length ∧ t.rx = rest

/-- R127–R130: FRAME_V2 on a whole frame, from wherever the path waits: the frame is latched whatever the trailing byte is,
with the little-endian command and length, the flags discarded, and all the bytes are consumed. `FR.CHK` is free. -/
def Obligations.FrameV2LatchesAnyTrailer : Prop :=
  ∀ (s : State) (d f cl ch ll lh : Byte) (p : Bytes) (trailer : Byte) (got more : Bytes) (rest : List RxAnswer),
    s.faulted = false → s.pending = some (.decV2 got) → s.rx = bytesRx more ++ rest →
    got ++ more = d :: f :: cl :: ch :: ll :: lh :: p ++ [trailer] → p.length = ll.toNat + 256 * lh.toNat →
    (d = 0x3C#8 ∨ d = 0x3E#8) →
    ∃ (t : State) (chk : Byte), exec .frameV2 s = .next t ∧ Latched ⟨true, .v2, d, ch ++ cl, lh ++ ll, p, chk⟩ s t ∧
      DecKeeps s t ∧ t.rxpos = s.rxpos + more.length ∧ t.rx = rest

/-- R128: a DEC of a V2 frame consumes its two framing bytes and then `6 + length + 1` bytes, whatever the checksum byte, and
latches it. -/
def Obligations.DecV2ConsumesWholeFrame : Prop :=
  ∀ (s : State) (d f cl ch ll lh : Byte) (p : Bytes) (trailer : Byte) (rest : List RxAnswer),
    s.faulted = false → s.attached = true →
    s.rx = bytesRx ([0x24#8, 0x58#8, d, f, cl, ch, ll, lh] ++ p ++ [trailer]) ++ rest →
    p.length = ll.toNat + 256 * lh.toNat → (d = 0x3C#8 ∨ d = 0x3E#8) →
    ∃ (t : State) (chk : Byte), exec .dec s = .next t ∧ Latched ⟨true, .v2, d, ch ++ cl, lh ++ ll, p, chk⟩ s t ∧
      DecKeeps s t ∧ t.rxpos = s.rxpos + 2 + (6 + p.length + 1) ∧ t.rx = rest

/-- R129: with `V2_CRC_ENFORCE` set (a device that enforces it), DEC latches a V2 frame exactly when its trailing byte is the
CRC over flags to payload, and reports a mismatch as for V1. -/
def Obligations.EnforcedV2ChecksCrc : Prop :=
  ∀ (cfg : Cfg) (s : State) (d f cl ch ll lh : Byte) (p : Bytes) (trailer : Byte) (rest : List RxAnswer),
    cfg.v2CrcEnforce = true → s.attached = true →
    s.rx = bytesRx ([0x24#8, 0x58#8, d, f, cl, ch, ll, lh] ++ p ++ [trailer]) ++ rest →
    p.length = ll.toNat + 256 * lh.toNat → (d = 0x3C#8 ∨ d = 0x3E#8) →
    let t := decFrame cfg s
    let exp := crc8DvbS2 ([f, cl, ch, ll, lh] ++ p)
    DecKeeps s t ∧ t.rxpos = s.rxpos + 9 + p.length ∧ t.rx = rest ∧
    if trailer = exp then Latched ⟨true, .v2, d, ch ++ cl, lh ++ ll, p, trailer⟩ s t
    else DecError 0x10#8 ⟨ch ++ cl, p, trailer, exp, 0, .none⟩ t

/-- R78, R130: an illegal direction byte is malformed-header, found only after the whole header is read: 5 bytes for V1, 8 for
V2; the payload is not read. -/
def Obligations.DecRejectsBadDirection : Prop :=
  ∀ (s : State) (d : Byte) (rest : List RxAnswer), s.faulted = false → s.attached = true → d ≠ 0x3C#8 → d ≠ 0x3E#8 →
    (∀ l k : Byte, s.rx = bytesRx [0x24#8, 0x4D#8, d, l, k] ++ rest → ∃ t, exec .dec s = .next t ∧
      DecError 0x12#8 ⟨0, [], 0, 0, d, .direction⟩ t ∧ DecKeeps s t ∧ t.rxpos = s.rxpos + 5 ∧ t.rx = rest) ∧
    (∀ f cl ch ll lh : Byte, s.rx = bytesRx [0x24#8, 0x58#8, d, f, cl, ch, ll, lh] ++ rest → ∃ t, exec .dec s = .next t ∧
      DecError 0x12#8 ⟨0, [], 0, 0, d, .direction⟩ t ∧ DecKeeps s t ∧ t.rxpos = s.rxpos + 8 ∧ t.rx = rest)

/-- R126: a short read inside a frame is a transport error, on every path: the bytes before it stay consumed, `ATTACHED` is
drawn, and no frame is latched. -/
def Obligations.ShortFrameIsTransportError : Prop :=
  ∀ (s : State) (bs : Bytes) (a : RxAnswer) (code : Byte) (rest : List RxAnswer),
    s.faulted = false → s.attached = true → shortCode a = some code →
    s.rx = bytesRx (0x24#8 :: bs) ++ a :: rest →
    (bs = [] ∨ (∃ more, bs = 0x4D#8 :: more ∧ ShortV1 more) ∨ (∃ more, bs = 0x58#8 :: more ∧ ShortV2 more)) →
    ∃ t, exec .dec s = .next t ∧ DecError code noErr t ∧ DecKeeps { s with attached := t.attached } t ∧
      t.rxpos = s.rxpos + 1 + bs.length ∧ t.rx = rest

/-- R133: DEC of the bytes of `Enc1(c, p)` gives the frame back: V1, `'<'`, command, payload, `len(p) + 6` bytes consumed. -/
def Obligations.Enc1DecRoundTrip : Prop :=
  ∀ (c : Half) (p f : Bytes) (s : State) (rest : List RxAnswer),
    c.toNat ≤ 0x00FF → p.length ≤ 255 → enc1 Config.hardware c p = .frame f →
    s.faulted = false → s.attached = true → s.rx = bytesRx f ++ rest →
    ∃ (t : State) (chk : Byte), exec .dec s = .next t ∧
      Latched ⟨true, .v1, 0x3C#8, c, BitVec.ofNat 16 p.length, p, chk⟩ s t ∧ DecKeeps s t ∧
      t.rxpos = s.rxpos + (p.length + 6) ∧ t.rx = rest

/-- Under `VERBATIM`, DEC of the bytes of `Enc2(c, p)` gives command and payload back, with the CRC enforced or not (R114,
R127; a statement over every configuration, since `V2_ENC_PAYLOAD` is open). -/
def Obligations.Enc2DecRoundTrip : Prop :=
  ∀ (cfg : Cfg) (c : Half) (p f : Bytes) (s : State) (rest : List RxAnswer),
    cfg.v2EncPayload = .verbatim → p.length ≤ 65535 → enc2 cfg c p = .frame f →
    s.attached = true → s.rx = bytesRx f ++ rest →
    ∃ chk : Byte, Latched ⟨true, .v2, 0x3C#8, c, BitVec.ofNat 16 p.length, p, chk⟩ s (decFrame cfg s) ∧
      DecKeeps s (decFrame cfg s) ∧ (decFrame cfg s).rxpos = s.rxpos + (p.length + 9) ∧ (decFrame cfg s).rx = rest

/-- Splitting the stream changes nothing: a DEC that ran out of answers, and goes on when more arrive, ends where a DEC with
all of them at once ends (R11, R52, R132: what it has read it never reads again; that it waits in a register of its own, over
several steps, is the model's form: log 6). -/
def Obligations.WaitingDecResumesExactly : Prop :=
  ∀ (s t : State) (more : List RxAnswer), s.faulted = false → s.attached = true → s.issued = none → more ≠ [] →
    exec .dec s = .next t → t.pending.isSome = true →
    step { t with rx := more } = exec .dec { s with rx := s.rx ++ more }

/-- A DEC whose read has no answer waits, with no outcome: further steps change nothing until an input arrives, whatever the host
means to issue after it (R52, R236). That it waits in steps that change nothing is the model's form (log 6), that `resp` is none
meanwhile its choice (log 8), and that STATUS and ERR are as before its reading of 00_scope.md R11 (log 28). -/
def Obligations.UnansweredDecWaits : Prop :=
  ∀ s t : State, s.faulted = false → s.attached = true → s.issued = none → exec .dec s = .next t → t.pending.isSome = true →
    t.rx = [] ∧ t.resp = none ∧ t.fr.valid = false ∧ t.code = s.code ∧ t.err = s.err ∧ t.attached = true ∧
    t.txlog = s.txlog ∧ ∀ n, Host.Core.run core n t = .next t

/-- A SEND whose write has no answer waits, with no outcome and nothing written: further steps change nothing until an input
arrives, whatever the host means to issue after it (20_memory.md R54, R236; logs 6, 8, 28 as for DEC). A DET does not overtake it,
as only a DEC can be overtaken (R175): one that the host means to issue waits, and to issue it meanwhile breaks duty 2 (R221),
which no step answers. -/
def Obligations.UnansweredSendWaits : Prop :=
  ∀ (c : Half) (sh : Shape) (v : Value) (s t : State), s.faulted = false → s.issued = none →
    exec (.send c sh v) s = .next t → t.resp = none →
    s.tx = [] ∧ (∃ f, t = { s with pending := some (.send f), resp := none }) ∧
    (∀ n, Host.Core.run core n t = .next t) ∧
    (∀ n, Host.Core.run core n { t with hostq := detCommand :: t.hostq } = .next { t with hostq := detCommand :: t.hostq }) ∧
    hostIssues detCommand t = none ∧ step { t with issued := some detCommand } = .refused .dutyBroken

/-- R175: a DET issued while a DEC waits for an answer ends the read with `EndOfStream` (log 5), so the DEC ends with
`PE_END_OF_STREAM` before its first byte and with `TE_UNEXPECTED_EOS` later (`ATTACHED` drawn); after that the DET takes effect
as R174 says. -/
def Obligations.DetOvertakesWaitingDec : Prop :=
  ∀ s t : State, s.faulted = false → s.attached = true → s.issued = none →
    exec .dec s = .next t → t.pending.isSome = true →
    hostIssues detCommand t = some { t with issued := some detCommand } ∧
    ∃ u, step { t with issued := some detCommand } = .next u ∧
      u.pending = none ∧ u.issued = some detCommand ∧ u.hostq = t.hostq ∧ u.rxpos = t.rxpos ∧ u.faulted = false ∧
      (t.pending = some .decFirst → DecError 0x13#8 noErr u ∧ u.attached = true) ∧
      (t.pending ≠ some .decFirst → DecError 0x22#8 noErr u) ∧
      (u.attached = true → step u = .next (okState .none { u with attached := false, port := none, issued := none })) ∧
      (u.attached = false → step u = .next (faultState 0x40#8 { u with issued := none }))

/-- R237: each DEC at a stray byte consumes that one byte, so `n` DECs skip `n` stray bytes up to a `'$'`. -/
def Obligations.RepeatedDecSkipsStrayBytes : Prop :=
  ∀ (stray : Bytes) (s t : State) (rest : List RxAnswer) (q : List HostInput),
    s.pending = none → s.faulted = false → s.attached = true → stray ≠ [] → (∀ b ∈ stray, b ≠ 0x24#8) →
    s.rx = bytesRx stray ++ rest → s.issued = none → s.hostq = List.replicate stray.length (.op ⟨0x2000#16, []⟩) ++ q →
    Host.Core.run core stray.length s = .next t →
    t.rx = rest ∧ t.hostq = q ∧ t.rxpos = s.rxpos + stray.length ∧ t.pending = none ∧ t.attached = true ∧
    DecError 0x11#8 ⟨0, [], 0, 0, stray.getLastD 0, .marker⟩ t

/-! ## Payload Marshaler -/

/-- R142–R144: MAR of one integer, little-endian, and the fault on a value of another type. -/
def Obligations.MarPacksIntegers : Prop :=
  ∀ s : State, s.faulted = false →
    (∀ x : Byte, exec (.marU8 .u8 (.v8 x)) s = .next (okState (.bytes [x]) s)) ∧
    (∀ x : Half, exec (.marU16 .u16 (.v16 x)) s = .next (okState (.bytes [x.setWidth 8, (x >>> 8).setWidth 8]) s)) ∧
    (∀ x : Word, exec (.marU32 .u32 (.v32 x)) s =
      .next (okState (.bytes [x.setWidth 8, (x >>> 8).setWidth 8, (x >>> 16).setWidth 8, (x >>> 24).setWidth 8]) s)) ∧
    (∀ v : Value, (∀ x, v ≠ .v8 x) → exec (.marU8 .u8 v) s = .next (faultState 0x42#8 s)) ∧
    (∀ v : Value, (∀ x, v ≠ .v16 x) → exec (.marU16 .u16 v) s = .next (faultState 0x42#8 s)) ∧
    (∀ v : Value, (∀ x, v ≠ .v32 x) → exec (.marU32 .u32 v) s = .next (faultState 0x42#8 s))

/-- R145: MAR of an aggregate concatenates its fields' layouts in declared order; a field count that differs, a field that does
not conform at any depth, or a value that is no aggregate is the fault. -/
def Obligations.MarPacksAggregates : Prop :=
  ∀ (ss : List Shape) (s : State), s.faulted = false →
    (∀ vs : List Value, List.Forall₂ (fun sh v => conforms sh v = true) ss vs →
      exec (.marAgg (.agg (.ofList ss)) (.agg (.ofList vs))) s =
        .next (okState (.bytes (List.zipWith layout ss vs).flatten) s)) ∧
    (∀ vs : List Value, ¬ List.Forall₂ (fun sh v => conforms sh v = true) ss vs →
      exec (.marAgg (.agg (.ofList ss)) (.agg (.ofList vs))) s = .next (faultState 0x42#8 s)) ∧
    (∀ v : Value, (∀ vs, v ≠ .agg vs) → exec (.marAgg (.agg (.ofList ss)) v) s = .next (faultState 0x42#8 s))

/-- R146: MAR of a sequence concatenates its elements' layouts in index order; another element count, an element that does not
conform, or a value that is no sequence is the fault. -/
def Obligations.MarPacksSequences : Prop :=
  ∀ (n : Nat) (sh : Shape) (s : State), s.faulted = false →
    (∀ vs : List Value, vs.length = n → (∀ v ∈ vs, conforms sh v = true) →
      exec (.marSeq (.seq n sh) (.seq (.ofList vs))) s = .next (okState (.bytes (vs.map (layout sh)).flatten) s)) ∧
    (∀ vs : List Value, ¬ (vs.length = n ∧ ∀ v ∈ vs, conforms sh v = true) →
      exec (.marSeq (.seq n sh) (.seq (.ofList vs))) s = .next (faultState 0x42#8 s)) ∧
    (∀ v : Value, (∀ vs, v ≠ .seq vs) → exec (.marSeq (.seq n sh) v) s = .next (faultState 0x42#8 s))

/-- R141, R148: the layout of a conforming value has exactly `size(sh)` bytes. -/
def Obligations.LayoutHasShapeSize : Prop :=
  ∀ (sh : Shape) (v : Value), conforms sh v = true → (layout sh v).length = shapeSize sh

/-- R152–R154: UNM of one integer: no frame faults, a short payload raises `UE_END_OF_PAYLOAD` with the cursor drawn in
`[CUR, FR.LEN]`, else the little-endian value at the cursor, which moves on by the integer's size; all else as before. -/
def Obligations.UnmUnpacksIntegers : Prop :=
  UnmCases (.unmU8 .u8) 1 (fun s => .v8 (byteAt s.fr.pay s.cur.toNat)) ∧
  UnmCases (.unmU16 .u16) 2
    (fun s => .v16 (byteAt s.fr.pay (s.cur.toNat + 1) ++ byteAt s.fr.pay s.cur.toNat)) ∧
  UnmCases (.unmU32 .u32) 4
    (fun s => .v32 (byteAt s.fr.pay (s.cur.toNat + 3) ++ byteAt s.fr.pay (s.cur.toNat + 2) ++
      byteAt s.fr.pay (s.cur.toNat + 1) ++ byteAt s.fr.pay s.cur.toNat))

/-- R155, R156 (and every other shape): an UNM that has enough payload returns a value that conforms to its shape and whose
layout is exactly the bytes it consumed, and moves the cursor past them; all else as before. -/
def Obligations.UnmReturnsLaidOutValue : Prop :=
  ∀ (sh : Shape) (s : State), s.faulted = false → s.fr.valid = true → s.fr.len.toNat = s.fr.pay.length →
    s.cur.toNat + shapeSize sh ≤ s.fr.len.toNat →
    ∃ v : Value, conforms sh v = true ∧ layout sh v = slice s.fr.pay s.cur.toNat (shapeSize sh) ∧
      exec (unmInstr sh.tag sh) s = .next (unmDone v (shapeSize sh) s)

/-- R150, R151: for every shape, an UNM with no latched frame faults `PF_NO_FRAME`, and one with too short a payload fails with
`UE_END_OF_PAYLOAD`, no value, and the cursor drawn between where it was and `FR.LEN`. -/
def Obligations.UnmNeedsFrameAndBytes : Prop :=
  ∀ (sh : Shape) (s : State), s.faulted = false →
    (s.fr.valid = false → exec (unmInstr sh.tag sh) s = .next (faultState 0x45#8 s)) ∧
    (s.fr.valid = true → s.cur.toNat ≤ s.fr.len.toNat → s.cur.toNat + shapeSize sh > s.fr.len.toNat →
      ∃ (c : Half) (d : Nat), s.cur.toNat ≤ c.toNat ∧ c.toNat ≤ s.fr.len.toNat ∧
        exec (unmInstr sh.tag sh) s = .next (errState 0x30#8 noErr { s with cur := c, draws := d }))

/-- R158: unmarshaling a marshaled value gives it back, whatever follows it in the payload. -/
def Obligations.MarUnmRoundTrip : Prop :=
  ∀ (sh : Shape) (v : Value) (tail : Bytes) (s : State), conforms sh v = true → s.faulted = false → s.fr.valid = true →
    s.fr.pay = layout sh v ++ tail → s.fr.len.toNat = s.fr.pay.length → s.cur = 0 →
    exec (unmInstr sh.tag sh) s = .next (okState (.value v) { s with cur := BitVec.ofNat 16 (shapeSize sh) })

/-- R159: two UNMs one after the other give the values one UNM of the aggregate of the two shapes gives. -/
def Obligations.SuccessiveUnmsCompose : Prop :=
  ∀ (s1 s2 : Shape) (v1 v2 : Value) (s t u : State), s.faulted = false →
    exec (unmInstr s1.tag s1) s = .next t → t.resp = some (.ok (.value v1)) →
    exec (unmInstr s2.tag s2) t = .next u → u.resp = some (.ok (.value v2)) →
    exec (.unmAgg (.agg (.ofList [s1, s2]))) s = .next { u with resp := some (.ok (.value (.agg (.ofList [v1, v2])))) }

/-! ## Transport operations -/

/-- R170, R54: SEND's checks in order, then the one write of the V1 frame of the marshaled value: all accepted; or a prefix and
`TE_IO_FAILURE` with `ATTACHED` drawn; or no answer, and SEND waits. That the waiting SEND holds its frame in `pending` and that
`resp` is none meanwhile is the model's choice of form (logs 6, 8). -/
def Obligations.SendWritesOneFrame : Prop :=
  ∀ (c : Half) (sh : Shape) (v : Value) (s : State), s.faulted = false →
    (s.attached = false → exec (.send c sh v) s = .next (faultState 0x40#8 s)) ∧
    (s.attached = true → conforms sh v = false → exec (.send c sh v) s = .next (faultState 0x42#8 s)) ∧
    (s.attached = true → conforms sh v = true → (layout sh v).length > 255 →
      exec (.send c sh v) s = .next (faultState 0x43#8 s)) ∧
    (s.attached = true → conforms sh v = true → (layout sh v).length ≤ 255 →
      ∃ f : Bytes, enc1 Config.hardware c (layout sh v) = .frame f ∧
        (∀ rest, s.tx = .ok :: rest →
          exec (.send c sh v) s = .next (okState .none { s with tx := rest, txlog := s.txlog ++ f })) ∧
        (∀ k rest, s.tx = .ioFailure k :: rest → ∃ (b : Bool) (d : Nat),
          exec (.send c sh v) s =
            .next (errState 0x21#8 noErr { s with tx := rest, txlog := s.txlog ++ f.take k, attached := b, draws := d })) ∧
        (s.tx = [] → exec (.send c sh v) s = .next { s with pending := some (.send f), resp := none }))

/-- R87: SEND behaves as MAR, then ENC1 of its result, then one write of that result. -/
def Obligations.SendIsMarEncWrite : Prop :=
  ∀ (c : Half) (sh : Shape) (v : Value) (s t u : State) (p f : Bytes) (rest : List TxAnswer),
    s.faulted = false → s.attached = true → s.tx = .ok :: rest →
    exec (marInstr sh.tag sh v) s = .next t → t.resp = some (.ok (.bytes p)) →
    exec (.enc1 c p) t = .next u → u.resp = some (.ok (.bytes f)) →
    exec (.send c sh v) s = .next { u with tx := rest, txlog := s.txlog ++ f, resp := some (.ok .none) }

/-- A SEND that waits for its answer ends, when the answer arrives, as if it had been there at once (R54, R236; the waiting
register is log 6's form). -/
def Obligations.WaitingSendResumesExactly : Prop :=
  ∀ (c : Half) (sh : Shape) (v : Value) (s t : State) (a : TxAnswer) (rest : List TxAnswer),
    s.faulted = false → s.pending = none → s.issued = none → s.tx = [] →
    exec (.send c sh v) s = .next t → t.pending.isSome = true →
    step { t with tx := a :: rest } = exec (.send c sh v) { s with tx := a :: rest }

/-- R172, R173: ATT while attached faults; else the environment answers `Opened` (attached, `PORT` recorded) or `Failed`
(`TE_OPEN_FAILURE`, `ATTACHED` stays 0); with no answer waiting it is one of the two (log 3). -/
def Obligations.AttOpensOrFails : Prop :=
  ∀ (name : PortName) (baud : Nat) (s : State), s.faulted = false →
    (s.attached = true → exec (.att name baud) s = .next (faultState 0x46#8 s)) ∧
    (s.attached = false →
      (∀ rest, s.opens = .opened :: rest → exec (.att name baud) s =
        .next (okState .none { s with opens := rest, attached := true, port := some ⟨name, baud⟩ })) ∧
      (∀ rest, s.opens = .failed :: rest → exec (.att name baud) s = .next (errState 0x20#8 noErr { s with opens := rest })) ∧
      (s.opens = [] → ∃ d : Nat,
        exec (.att name baud) s = .next (okState .none { s with draws := d, attached := true, port := some ⟨name, baud⟩ }) ∨
        exec (.att name baud) s = .next (errState 0x20#8 noErr { s with draws := d })))

/-- R174: DET detaches, and faults when nothing is attached; `FR` and `CUR` are left. -/
def Obligations.DetDetaches : Prop :=
  ∀ s : State, s.faulted = false →
    (s.attached = true → exec .det s = .next (okState .none { s with attached := false, port := none })) ∧
    (s.attached = false → exec .det s = .next (faultState 0x40#8 s))

/-- R176: DEC and SEND with nothing attached fault before any port is touched; the pure operations give the same result, and
the same status, whether a transport is attached or not. That a detached DEC keeps `FR` (R205), against 42_frame_decode.md R131, is
the model's choice (log 30). -/
def Obligations.UseAfterCloseFaults : Prop :=
  ∀ s : State, s.faulted = false →
    (s.attached = false → exec .dec s = .next (faultState 0x40#8 s)) ∧
    (s.attached = false → ∀ c sh v, exec (.send c sh v) s = .next (faultState 0x40#8 s)) ∧
    (∀ (i : Instr) (b : Bool) (t : State), PureOp i ∨ MovesCursor i → exec i s = .next t →
      exec i { s with attached := b } = .next { t with attached := b })

/-! ## Whole-machine rules -/

/-- 10_state.md R22's "written by" column, 20_memory.md R50, R65: only DEC reads the RX port and changes `FR`, only SEND writes
the TX port, only ATT and DET change `PORT`, only DEC and UNM change `CUR`, and no operation issues another. -/
def Obligations.OperationsKeepToTheirRegisters : Prop :=
  ∀ (i : Instr) (s t : State), exec i s = .next t →
    (¬ ReadsRx i → t.rx = s.rx ∧ t.rxpos = s.rxpos ∧ t.fr = s.fr) ∧
    (¬ WritesTx i → t.tx = s.tx ∧ t.txlog = s.txlog) ∧
    (¬ OpensOrCloses i → t.port = s.port ∧ t.opens = s.opens) ∧
    (¬ OpensOrCloses i → ¬ ReadsRx i → ¬ WritesTx i → t.attached = s.attached) ∧
    (¬ MovesCursor i → ¬ ReadsRx i → t.cur = s.cur) ∧
    (PureOp i → t = { s with code := t.code, err := t.err, faulted := t.faulted, resp := t.resp }) ∧
    t.issued = s.issued ∧ t.hostq = s.hostq

/-- R32: in a step that asserts no reset, `RXPOS` grows by the number of bytes that the environment's answers delivered, and by
nothing for the other answers; the answers are taken in order. -/
def Obligations.RxposCountsConsumedBytes : Prop :=
  ∀ s t : State, NoReset s → step s = .next t →
    ∃ used : List RxAnswer, s.rx = used ++ t.rx ∧ t.rxpos = s.rxpos + (used.filter isByte).length

/-- R37.5: `RXPOS` and `TXLOG` never decrease except at reset: bytes once logged stay, in order. -/
def Obligations.CountersNeverDecrease : Prop :=
  ∀ s t : State, NoReset s → step s = .next t → s.rxpos ≤ t.rxpos ∧ s.txlog <+: t.txlog

/-- R21, R28: `CUR` only moves forward, except at reset and when a new frame is latched (then it is 0). That it does not go back
on a failed DEC, where R131 leaves it unspecified, is the model's reading of R21 (log 11). -/
def Obligations.CursorOnlyMovesForward : Prop :=
  ∀ s t : State, s.Inv → NoReset s → step s = .next t →
    s.cur.toNat ≤ t.cur.toNat ∨ (t.cur = 0 ∧ t.fr.valid = true ∧ t.resp = some (.ok .none))

/-- R177: the session opens only by an ATT that succeeds, and closes only by a DET or after a transport error. -/
def Obligations.SessionOpensAndClosesOnlyAs : Prop :=
  ∀ s t : State, s.Inv → NoReset s → step s = .next t →
    (s.attached = false → t.attached = true → ∃ name baud,
      nextWork s = .run (.att name baud) { s with issued := none, hostq := t.hostq } ∧ t.resp = some (.ok .none) ∧
        t.port = some ⟨name, baud⟩) ∧
    (s.attached = true → t.attached = false →
      nextWork s = .run .det { s with issued := none, hostq := t.hostq } ∨
        t.resp = some (.error 0x21#8) ∨ t.resp = some (.error 0x22#8))

/-- R37, R200, R205: every step keeps the invariant. -/
def Obligations.StepKeepsInv : Prop :=
  ∀ s t : State, s.Inv → step s = .next t → t.Inv

/-- The state after reset meets the invariant. -/
def Obligations.ResetMeetsInv : Prop := State.reset.Inv

/-- No input from outside breaks the invariant (R220). -/
def Obligations.InputsKeepInv : Prop :=
  ∀ s : State, s.Inv →
    (∀ x t, hostIssues x s = some t → t.Inv) ∧ (∀ x, (hostPlans x s).Inv) ∧ (∀ a, (rxArrives a s).Inv) ∧
    (∀ a, (txAnswers a s).Inv) ∧ (∀ a, (openAnswers a s).Inv)
end

