-- ==== Sys2Proof/Laws/State.lean ====
section
/-! SUPPORT. What each update of the state leaves and writes, field by field, true by definition. -/

namespace Sys2Proof.Laws

open Sys2Proof Sys2Proof.Machine

variable (s : State)

/-! ## Success -/

@[simp] theorem finish_attached (r : OpResult) : (finish r s).attached = s.attached := rfl
@[simp] theorem finish_port (r : OpResult) : (finish r s).port = s.port := rfl
@[simp] theorem finish_fr (r : OpResult) : (finish r s).fr = s.fr := rfl
@[simp] theorem finish_cur (r : OpResult) : (finish r s).cur = s.cur := rfl
@[simp] theorem finish_code (r : OpResult) : (finish r s).code = codeOk := rfl
@[simp] theorem finish_faulted (r : OpResult) : (finish r s).faulted = s.faulted := rfl
@[simp] theorem finish_err (r : OpResult) : (finish r s).err = s.err := rfl
@[simp] theorem finish_rxpos (r : OpResult) : (finish r s).rxpos = s.rxpos := rfl
@[simp] theorem finish_txlog (r : OpResult) : (finish r s).txlog = s.txlog := rfl
@[simp] theorem finish_pending (r : OpResult) : (finish r s).pending = s.pending := rfl
@[simp] theorem finish_resp (r : OpResult) : (finish r s).resp = some (.ok r) := rfl
@[simp] theorem finish_issued (r : OpResult) : (finish r s).issued = s.issued := rfl
@[simp] theorem finish_hostq (r : OpResult) : (finish r s).hostq = s.hostq := rfl
@[simp] theorem finish_rx (r : OpResult) : (finish r s).rx = s.rx := rfl
@[simp] theorem finish_tx (r : OpResult) : (finish r s).tx = s.tx := rfl
@[simp] theorem finish_opens (r : OpResult) : (finish r s).opens = s.opens := rfl
@[simp] theorem finish_draws (r : OpResult) : (finish r s).draws = s.draws := rfl

/-! ## An error outcome -/

@[simp] theorem raise_attached (e : Raise) : (raise e s).attached = if raiseDrawsAttached e then Config.freeAttached s.draws else s.attached := rfl
@[simp] theorem raise_port (e : Raise) : (raise e s).port = s.port := rfl
@[simp] theorem raise_fr (e : Raise) : (raise e s).fr = s.fr := rfl
@[simp] theorem raise_cur (e : Raise) : (raise e s).cur = s.cur := rfl
@[simp] theorem raise_code (e : Raise) : (raise e s).code = raiseCode e := rfl
@[simp] theorem raise_faulted (e : Raise) : (raise e s).faulted = s.faulted := rfl
@[simp] theorem raise_err (e : Raise) : (raise e s).err = raiseErr e := rfl
@[simp] theorem raise_rxpos (e : Raise) : (raise e s).rxpos = s.rxpos := rfl
@[simp] theorem raise_txlog (e : Raise) : (raise e s).txlog = s.txlog := rfl
@[simp] theorem raise_pending (e : Raise) : (raise e s).pending = s.pending := rfl
@[simp] theorem raise_resp (e : Raise) : (raise e s).resp = some (.error (raiseCode e)) := rfl
@[simp] theorem raise_issued (e : Raise) : (raise e s).issued = s.issued := rfl
@[simp] theorem raise_hostq (e : Raise) : (raise e s).hostq = s.hostq := rfl
@[simp] theorem raise_rx (e : Raise) : (raise e s).rx = s.rx := rfl
@[simp] theorem raise_tx (e : Raise) : (raise e s).tx = s.tx := rfl
@[simp] theorem raise_opens (e : Raise) : (raise e s).opens = s.opens := rfl
@[simp] theorem raise_draws (e : Raise) : (raise e s).draws = if raiseDrawsAttached e then s.draws + 1 else s.draws := rfl

/-! ## A programming fault -/

@[simp] theorem fault_attached (f : PFault) : (fault f s).attached = s.attached := rfl
@[simp] theorem fault_port (f : PFault) : (fault f s).port = s.port := rfl
@[simp] theorem fault_fr (f : PFault) : (fault f s).fr = s.fr := rfl
@[simp] theorem fault_cur (f : PFault) : (fault f s).cur = s.cur := rfl
@[simp] theorem fault_code (f : PFault) : (fault f s).code = faultCode f := rfl
@[simp] theorem fault_faulted (f : PFault) : (fault f s).faulted = true := rfl
@[simp] theorem fault_err (f : PFault) : (fault f s).err = ErrReg.cleared := rfl
@[simp] theorem fault_rxpos (f : PFault) : (fault f s).rxpos = s.rxpos := rfl
@[simp] theorem fault_txlog (f : PFault) : (fault f s).txlog = s.txlog := rfl
@[simp] theorem fault_pending (f : PFault) : (fault f s).pending = s.pending := rfl
@[simp] theorem fault_resp (f : PFault) : (fault f s).resp = some (.fault (faultCode f)) := rfl
@[simp] theorem fault_issued (f : PFault) : (fault f s).issued = s.issued := rfl
@[simp] theorem fault_hostq (f : PFault) : (fault f s).hostq = s.hostq := rfl
@[simp] theorem fault_rx (f : PFault) : (fault f s).rx = s.rx := rfl
@[simp] theorem fault_tx (f : PFault) : (fault f s).tx = s.tx := rfl
@[simp] theorem fault_opens (f : PFault) : (fault f s).opens = s.opens := rfl
@[simp] theorem fault_draws (f : PFault) : (fault f s).draws = s.draws := rfl

/-! ## Waiting -/

@[simp] theorem block_attached (p : Pending) : (block p s).attached = s.attached := rfl
@[simp] theorem block_port (p : Pending) : (block p s).port = s.port := rfl
@[simp] theorem block_fr (p : Pending) : (block p s).fr = s.fr := rfl
@[simp] theorem block_cur (p : Pending) : (block p s).cur = s.cur := rfl
@[simp] theorem block_code (p : Pending) : (block p s).code = s.code := rfl
@[simp] theorem block_faulted (p : Pending) : (block p s).faulted = s.faulted := rfl
@[simp] theorem block_err (p : Pending) : (block p s).err = s.err := rfl
@[simp] theorem block_rxpos (p : Pending) : (block p s).rxpos = s.rxpos := rfl
@[simp] theorem block_txlog (p : Pending) : (block p s).txlog = s.txlog := rfl
@[simp] theorem block_pending (p : Pending) : (block p s).pending = some p := rfl
@[simp] theorem block_resp (p : Pending) : (block p s).resp = none := rfl
@[simp] theorem block_issued (p : Pending) : (block p s).issued = s.issued := rfl
@[simp] theorem block_hostq (p : Pending) : (block p s).hostq = s.hostq := rfl
@[simp] theorem block_rx (p : Pending) : (block p s).rx = s.rx := rfl
@[simp] theorem block_tx (p : Pending) : (block p s).tx = s.tx := rfl
@[simp] theorem block_opens (p : Pending) : (block p s).opens = s.opens := rfl
@[simp] theorem block_draws (p : Pending) : (block p s).draws = s.draws := rfl

/-! ## Going on -/

@[simp] theorem unblock_attached : (unblock s).attached = s.attached := rfl
@[simp] theorem unblock_port : (unblock s).port = s.port := rfl
@[simp] theorem unblock_fr : (unblock s).fr = s.fr := rfl
@[simp] theorem unblock_cur : (unblock s).cur = s.cur := rfl
@[simp] theorem unblock_code : (unblock s).code = s.code := rfl
@[simp] theorem unblock_faulted : (unblock s).faulted = s.faulted := rfl
@[simp] theorem unblock_err : (unblock s).err = s.err := rfl
@[simp] theorem unblock_rxpos : (unblock s).rxpos = s.rxpos := rfl
@[simp] theorem unblock_txlog : (unblock s).txlog = s.txlog := rfl
@[simp] theorem unblock_pending : (unblock s).pending = none := rfl
@[simp] theorem unblock_resp : (unblock s).resp = s.resp := rfl
@[simp] theorem unblock_issued : (unblock s).issued = s.issued := rfl
@[simp] theorem unblock_hostq : (unblock s).hostq = s.hostq := rfl
@[simp] theorem unblock_rx : (unblock s).rx = s.rx := rfl
@[simp] theorem unblock_tx : (unblock s).tx = s.tx := rfl
@[simp] theorem unblock_opens : (unblock s).opens = s.opens := rfl
@[simp] theorem unblock_draws : (unblock s).draws = s.draws := rfl

/-! ## No frame -/

@[simp] theorem invalidate_attached : (invalidate s).attached = s.attached := rfl
@[simp] theorem invalidate_port : (invalidate s).port = s.port := rfl
@[simp] theorem invalidate_fr : (invalidate s).fr = noFrame s.draws := rfl
@[simp] theorem invalidate_cur : (invalidate s).cur = BitVec.ofNat 16 (drawBetween s.cur.toNat 65535 s.draws) := rfl
@[simp] theorem invalidate_code : (invalidate s).code = s.code := rfl
@[simp] theorem invalidate_faulted : (invalidate s).faulted = s.faulted := rfl
@[simp] theorem invalidate_err : (invalidate s).err = s.err := rfl
@[simp] theorem invalidate_rxpos : (invalidate s).rxpos = s.rxpos := rfl
@[simp] theorem invalidate_txlog : (invalidate s).txlog = s.txlog := rfl
@[simp] theorem invalidate_pending : (invalidate s).pending = s.pending := rfl
@[simp] theorem invalidate_resp : (invalidate s).resp = s.resp := rfl
@[simp] theorem invalidate_issued : (invalidate s).issued = s.issued := rfl
@[simp] theorem invalidate_hostq : (invalidate s).hostq = s.hostq := rfl
@[simp] theorem invalidate_rx : (invalidate s).rx = s.rx := rfl
@[simp] theorem invalidate_tx : (invalidate s).tx = s.tx := rfl
@[simp] theorem invalidate_opens : (invalidate s).opens = s.opens := rfl
@[simp] theorem invalidate_draws : (invalidate s).draws = s.draws + 1 := rfl

/-! ## A frame latched -/

@[simp] theorem latch_attached (ver : Version) (dir : Byte) (cmd len : Half) (pay : Bytes) (chk : Byte) : (latch ver dir cmd len pay chk s).attached = s.attached := rfl
@[simp] theorem latch_port (ver : Version) (dir : Byte) (cmd len : Half) (pay : Bytes) (chk : Byte) : (latch ver dir cmd len pay chk s).port = s.port := rfl
@[simp] theorem latch_fr (ver : Version) (dir : Byte) (cmd len : Half) (pay : Bytes) (chk : Byte) : (latch ver dir cmd len pay chk s).fr = ⟨true, ver, dir, cmd, len, pay, chk⟩ := rfl
@[simp] theorem latch_cur (ver : Version) (dir : Byte) (cmd len : Half) (pay : Bytes) (chk : Byte) : (latch ver dir cmd len pay chk s).cur = 0 := rfl
@[simp] theorem latch_code (ver : Version) (dir : Byte) (cmd len : Half) (pay : Bytes) (chk : Byte) : (latch ver dir cmd len pay chk s).code = codeOk := rfl
@[simp] theorem latch_faulted (ver : Version) (dir : Byte) (cmd len : Half) (pay : Bytes) (chk : Byte) : (latch ver dir cmd len pay chk s).faulted = s.faulted := rfl
@[simp] theorem latch_err (ver : Version) (dir : Byte) (cmd len : Half) (pay : Bytes) (chk : Byte) : (latch ver dir cmd len pay chk s).err = s.err := rfl
@[simp] theorem latch_rxpos (ver : Version) (dir : Byte) (cmd len : Half) (pay : Bytes) (chk : Byte) : (latch ver dir cmd len pay chk s).rxpos = s.rxpos := rfl
@[simp] theorem latch_txlog (ver : Version) (dir : Byte) (cmd len : Half) (pay : Bytes) (chk : Byte) : (latch ver dir cmd len pay chk s).txlog = s.txlog := rfl
@[simp] theorem latch_pending (ver : Version) (dir : Byte) (cmd len : Half) (pay : Bytes) (chk : Byte) : (latch ver dir cmd len pay chk s).pending = s.pending := rfl
@[simp] theorem latch_resp (ver : Version) (dir : Byte) (cmd len : Half) (pay : Bytes) (chk : Byte) : (latch ver dir cmd len pay chk s).resp = some (.ok .none) := rfl
@[simp] theorem latch_issued (ver : Version) (dir : Byte) (cmd len : Half) (pay : Bytes) (chk : Byte) : (latch ver dir cmd len pay chk s).issued = s.issued := rfl
@[simp] theorem latch_hostq (ver : Version) (dir : Byte) (cmd len : Half) (pay : Bytes) (chk : Byte) : (latch ver dir cmd len pay chk s).hostq = s.hostq := rfl
@[simp] theorem latch_rx (ver : Version) (dir : Byte) (cmd len : Half) (pay : Bytes) (chk : Byte) : (latch ver dir cmd len pay chk s).rx = s.rx := rfl
@[simp] theorem latch_tx (ver : Version) (dir : Byte) (cmd len : Half) (pay : Bytes) (chk : Byte) : (latch ver dir cmd len pay chk s).tx = s.tx := rfl
@[simp] theorem latch_opens (ver : Version) (dir : Byte) (cmd len : Half) (pay : Bytes) (chk : Byte) : (latch ver dir cmd len pay chk s).opens = s.opens := rfl
@[simp] theorem latch_draws (ver : Version) (dir : Byte) (cmd len : Half) (pay : Bytes) (chk : Byte) : (latch ver dir cmd len pay chk s).draws = s.draws := rfl

/-! ## Reset -/

@[simp] theorem machineReset_attached : (machineReset s).attached = false := rfl
@[simp] theorem machineReset_port : (machineReset s).port = none := rfl
@[simp] theorem machineReset_fr : (machineReset s).fr = noFrame s.draws := rfl
@[simp] theorem machineReset_cur : (machineReset s).cur = 0 := rfl
@[simp] theorem machineReset_code : (machineReset s).code = 0x00#8 := rfl
@[simp] theorem machineReset_faulted : (machineReset s).faulted = false := rfl
@[simp] theorem machineReset_err : (machineReset s).err = ErrReg.cleared := rfl
@[simp] theorem machineReset_rxpos : (machineReset s).rxpos = 0 := rfl
@[simp] theorem machineReset_txlog : (machineReset s).txlog = [] := rfl
@[simp] theorem machineReset_pending : (machineReset s).pending = none := rfl
@[simp] theorem machineReset_resp : (machineReset s).resp = none := rfl
@[simp] theorem machineReset_issued : (machineReset s).issued = s.issued := rfl
@[simp] theorem machineReset_hostq : (machineReset s).hostq = s.hostq := rfl
@[simp] theorem machineReset_rx : (machineReset s).rx = s.rx := rfl
@[simp] theorem machineReset_tx : (machineReset s).tx = s.tx := rfl
@[simp] theorem machineReset_opens : (machineReset s).opens = s.opens := rfl
@[simp] theorem machineReset_draws : (machineReset s).draws = s.draws + 1 := rfl

/-! ## Answers taken from the RX port -/

@[simp] theorem tookRx_attached (rest : List RxAnswer) (k : Nat) : (tookRx rest k s).attached = s.attached := rfl
@[simp] theorem tookRx_port (rest : List RxAnswer) (k : Nat) : (tookRx rest k s).port = s.port := rfl
@[simp] theorem tookRx_fr (rest : List RxAnswer) (k : Nat) : (tookRx rest k s).fr = s.fr := rfl
@[simp] theorem tookRx_cur (rest : List RxAnswer) (k : Nat) : (tookRx rest k s).cur = s.cur := rfl
@[simp] theorem tookRx_code (rest : List RxAnswer) (k : Nat) : (tookRx rest k s).code = s.code := rfl
@[simp] theorem tookRx_faulted (rest : List RxAnswer) (k : Nat) : (tookRx rest k s).faulted = s.faulted := rfl
@[simp] theorem tookRx_err (rest : List RxAnswer) (k : Nat) : (tookRx rest k s).err = s.err := rfl
@[simp] theorem tookRx_rxpos (rest : List RxAnswer) (k : Nat) : (tookRx rest k s).rxpos = s.rxpos + k := rfl
@[simp] theorem tookRx_txlog (rest : List RxAnswer) (k : Nat) : (tookRx rest k s).txlog = s.txlog := rfl
@[simp] theorem tookRx_pending (rest : List RxAnswer) (k : Nat) : (tookRx rest k s).pending = s.pending := rfl
@[simp] theorem tookRx_resp (rest : List RxAnswer) (k : Nat) : (tookRx rest k s).resp = s.resp := rfl
@[simp] theorem tookRx_issued (rest : List RxAnswer) (k : Nat) : (tookRx rest k s).issued = s.issued := rfl
@[simp] theorem tookRx_hostq (rest : List RxAnswer) (k : Nat) : (tookRx rest k s).hostq = s.hostq := rfl
@[simp] theorem tookRx_rx (rest : List RxAnswer) (k : Nat) : (tookRx rest k s).rx = rest := rfl
@[simp] theorem tookRx_tx (rest : List RxAnswer) (k : Nat) : (tookRx rest k s).tx = s.tx := rfl
@[simp] theorem tookRx_opens (rest : List RxAnswer) (k : Nat) : (tookRx rest k s).opens = s.opens := rfl
@[simp] theorem tookRx_draws (rest : List RxAnswer) (k : Nat) : (tookRx rest k s).draws = s.draws := rfl

@[simp] theorem noFrame_valid (n : Nat) : (noFrame n).valid = false := rfl

end Sys2Proof.Laws
end

