-- ==== Sys2Proof/Laws/Ops.lean ====
section
/-! SUPPORT. One lemma for each shared operation that says all it can do, for the provers to cite. -/

namespace Sys2Proof.Laws

open Sys2Proof Sys2Proof.Machine

/-! ## Accepting and ending an operation -/

@[simp] theorem accept_running {s : State} (h : s.faulted = false) (run : State → State) : accept s run = run s := by
  simp [accept, h]

@[simp] theorem accept_faulted {s : State} (h : s.faulted = true) (run : State → State) :
    accept s run = { s with resp := some .refused } := by
  simp [accept, h]

theorem accept_cases (s : State) (run : State → State) :
    (s.faulted = true ∧ accept s run = { s with resp := some .refused }) ∨ (s.faulted = false ∧ accept s run = run s) := by
  cases h : s.faulted <;> simp [h]

@[simp] theorem requireTag_same (sh : Shape) (s : State) (run : State → State) : requireTag sh.tag sh s run = run s := by
  simp [requireTag]

theorem requireTag_other {t : ShapeTag} {sh : Shape} (h : sh.tag ≠ t) (s : State) (run : State → State) :
    requireTag t sh s run = fault .illegalOp s := by
  simp [requireTag, h]

/-- An error outcome whose code draws nothing keeps the attachment and the draws. -/
theorem raise_undrawn {e : Raise} (h : raiseDrawsAttached e = false) (s : State) :
    raise e s = { s with code := raiseCode e, err := raiseErr e, resp := some (.error (raiseCode e)) } := by
  simp [raise, h]

/-- The code an error outcome writes is in the table and no programming fault's. -/
theorem raiseCode_class (e : Raise) :
    raiseCode e ∈ knownCodes ∧
      (codeClass (raiseCode e) = some .pe ∨ codeClass (raiseCode e) = some .te ∨ codeClass (raiseCode e) = some .ue) := by
  cases e <;> simp only [raiseCode] <;> decide

theorem faultCode_class (f : PFault) : faultCode f ∈ knownCodes ∧ codeClass (faultCode f) = some .pf := by
  cases f <;> decide

/-! ## Draws -/

theorem drawBetween_ge (lo hi n : Nat) : lo ≤ drawBetween lo hi n := Nat.le_add_right _ _

theorem drawBetween_le {lo hi : Nat} (h : lo ≤ hi) (n : Nat) : drawBetween lo hi n ≤ hi := by
  have : Config.freeCursor n % (hi - lo + 1) < hi - lo + 1 := Nat.mod_lt _ (Nat.succ_pos _)
  unfold drawBetween
  omega

/-- A drawn cursor stays between where it was and its bound. -/
theorem drawn_cursor {lo hi : Half} (h : lo.toNat ≤ hi.toNat) (n : Nat) :
    lo.toNat ≤ (BitVec.ofNat 16 (drawBetween lo.toNat hi.toNat n)).toNat ∧
      (BitVec.ofNat 16 (drawBetween lo.toNat hi.toNat n)).toNat ≤ hi.toNat := by
  have h1 := drawBetween_ge lo.toNat hi.toNat n
  have h2 := drawBetween_le h n
  have h3 := hi.isLt
  rw [BitVec.toNat_ofNat, Nat.mod_eq_of_lt (by omega)]
  exact ⟨h1, h2⟩

/-! ## The RX port -/

@[simp] theorem tookRx_tookRx (r1 r2 : List RxAnswer) (a b : Nat) (s : State) :
    tookRx r2 b (tookRx r1 a s) = tookRx r2 (a + b) s := by
  simp [tookRx, Nat.add_assoc]

@[simp] theorem tookRx_nothing (s : State) : tookRx s.rx 0 s = s := rfl

@[simp] theorem detIssued_tookRx (rest : List RxAnswer) (k : Nat) (s : State) :
    detIssued (tookRx rest k s) = detIssued s := rfl

/-- Everything a read can do: deliver the first answer, or, with none, answer `EndOfStream` to an issued DET or nothing. -/
theorem rxRead_cases (s : State) :
    (∃ b rest, s.rx = .byte b :: rest ∧ rxRead s = (some (.byte b), tookRx rest 1 s)) ∨
    (∃ rest, s.rx = .endOfStream :: rest ∧ rxRead s = (some .endOfStream, tookRx rest 0 s)) ∨
    (∃ rest, s.rx = .ioFailure :: rest ∧ rxRead s = (some .ioFailure, tookRx rest 0 s)) ∨
    (s.rx = [] ∧ detIssued s = true ∧ rxRead s = (some .endOfStream, s)) ∨
    (s.rx = [] ∧ detIssued s = false ∧ rxRead s = (none, s)) := by
  unfold rxRead
  match h : s.rx with
  | .byte b :: rest => simp
  | .endOfStream :: rest => simp
  | .ioFailure :: rest => simp
  | [] => cases hd : detIssued s <;> simp

theorem rxRead_byte {s : State} {b : Byte} {rest : List RxAnswer} (h : s.rx = .byte b :: rest) :
    rxRead s = (some (.byte b), tookRx rest 1 s) := by
  simp [rxRead, h]

theorem rxRead_eos {s : State} {rest : List RxAnswer} (h : s.rx = .endOfStream :: rest) :
    rxRead s = (some .endOfStream, tookRx rest 0 s) := by
  simp [rxRead, h]

theorem rxRead_io {s : State} {rest : List RxAnswer} (h : s.rx = .ioFailure :: rest) :
    rxRead s = (some .ioFailure, tookRx rest 0 s) := by
  simp [rxRead, h]

theorem rxRead_det {s : State} (h : s.rx = []) (hd : detIssued s = true) : rxRead s = (some .endOfStream, s) := by
  simp [rxRead, h, hd]

theorem rxRead_none {s : State} (h : s.rx = []) (hd : detIssued s = false) : rxRead s = (none, s) := by
  simp [rxRead, h, hd]

/-- The bytes all delivered: as many reads take them all. -/
theorem rxReadN_bytes (bs : Bytes) (rest : List RxAnswer) (s : State) (h : s.rx = bs.map .byte ++ rest) :
    rxReadN bs.length s = ⟨bs, none, tookRx rest bs.length s⟩ := by
  induction bs generalizing s with
  | nil =>
    obtain rfl : s.rx = rest := by simpa using h
    simp [rxReadN]
  | cons b bs ih =>
    have hr := rxRead_byte (s := s) (b := b) (rest := bs.map .byte ++ rest) (by simpa using h)
    simp only [List.length_cons, rxReadN, hr]
    rw [ih _ rfl]
    simp [Nat.add_comm]

/-- What a run of reads gives, in every case: a block of bytes taken from the front of the answers, at most `n` of them; if it
stopped, the answer that stopped it was next. -/
theorem rxReadN_cases (n : Nat) (s : State) :
    ∃ (bs : Bytes) (rest : List RxAnswer), s.rx = bs.map .byte ++ rest ∧
      ((bs.length = n ∧ rxReadN n s = ⟨bs, none, tookRx rest n s⟩) ∨
        (bs.length < n ∧
          ((∃ r, rest = .endOfStream :: r ∧ rxReadN n s = ⟨bs, some .endOfStream, tookRx r bs.length s⟩) ∨
            (∃ r, rest = .ioFailure :: r ∧ rxReadN n s = ⟨bs, some .ioFailure, tookRx r bs.length s⟩) ∨
            (rest = [] ∧ detIssued s = true ∧ rxReadN n s = ⟨bs, some .endOfStream, tookRx [] bs.length s⟩) ∨
            (rest = [] ∧ detIssued s = false ∧ rxReadN n s = ⟨bs, some .noAnswer, tookRx [] bs.length s⟩)))) := by
  induction n generalizing s with
  | zero => exact ⟨[], s.rx, rfl, Or.inl ⟨rfl, rfl⟩⟩
  | succ n ih =>
    rcases rxRead_cases s with ⟨b, rest, hx, hr⟩ | ⟨rest, hx, hr⟩ | ⟨rest, hx, hr⟩ | ⟨hx, hd, hr⟩ | ⟨hx, hd, hr⟩
    · obtain ⟨bs, rest', h1, h2⟩ := ih (tookRx rest 1 s)
      obtain rfl : rest = bs.map RxAnswer.byte ++ rest' := h1
      refine ⟨b :: bs, rest', by simp [hx], ?_⟩
      simp only [rxReadN, hr]
      rcases h2 with ⟨ha, hb⟩ | ⟨ha, ⟨r, hb, hc⟩ | ⟨r, hb, hc⟩ | ⟨hb, hd, hc⟩ | ⟨hb, hd, hc⟩⟩
      · exact Or.inl ⟨by simp [ha], by simp [hb, Nat.add_comm]⟩
      · exact Or.inr ⟨by simp [ha], Or.inl ⟨r, hb, by simp [hc, Nat.add_comm]⟩⟩
      · exact Or.inr ⟨by simp [ha], Or.inr (Or.inl ⟨r, hb, by simp [hc, Nat.add_comm]⟩)⟩
      · exact Or.inr ⟨by simp [ha], Or.inr (Or.inr (Or.inl ⟨hb, hd, by simp [hc, Nat.add_comm]⟩))⟩
      · exact Or.inr ⟨by simp [ha], Or.inr (Or.inr (Or.inr ⟨hb, hd, by simp [hc, Nat.add_comm]⟩))⟩
    · exact ⟨[], .endOfStream :: rest, hx, Or.inr ⟨by simp, Or.inl ⟨rest, rfl, by simp [rxReadN, hr]⟩⟩⟩
    · exact ⟨[], .ioFailure :: rest, hx, Or.inr ⟨by simp, Or.inr (Or.inl ⟨rest, rfl, by simp [rxReadN, hr]⟩)⟩⟩
    · have hs : tookRx [] 0 s = s := by rw [← hx]; rfl
      exact ⟨[], [], hx, Or.inr ⟨by simp, Or.inr (Or.inr (Or.inl ⟨rfl, hd, by simp [rxReadN, hr, hs]⟩))⟩⟩
    · have hs : tookRx [] 0 s = s := by rw [← hx]; rfl
      exact ⟨[], [], hx, Or.inr ⟨by simp, Or.inr (Or.inr (Or.inr ⟨rfl, hd, by simp [rxReadN, hr, hs]⟩))⟩⟩

/-- A path whose bytes are all delivered goes on with them. -/
theorem readTo_bytes (hold : Bytes → Pending) (n : Nat) (got bs : Bytes) (rest : List RxAnswer) (s : State)
    (path : Bytes → State → State) (hn : n - got.length = bs.length) (h : s.rx = bs.map .byte ++ rest) :
    readTo hold n got s path = path (got ++ bs) (tookRx rest bs.length s) := by
  simp only [readTo, hn, rxReadN_bytes bs rest s h]

/-- Everything `readTo` can do: go on with exactly the bytes asked for, end with a transport error, or wait. -/
theorem readTo_cases (hold : Bytes → Pending) (n : Nat) (got : Bytes) (s : State) (path : Bytes → State → State) :
    ∃ (bs : Bytes) (rest : List RxAnswer), s.rx = bs.map .byte ++ rest ∧
      ((bs.length = n - got.length ∧ readTo hold n got s path = path (got ++ bs) (tookRx rest bs.length s)) ∨
        (bs.length < n - got.length ∧
          ((∃ r, rest = .endOfStream :: r ∧ readTo hold n got s path = raise .unexpectedEos (tookRx r bs.length s)) ∨
            (∃ r, rest = .ioFailure :: r ∧ readTo hold n got s path = raise .ioFailure (tookRx r bs.length s)) ∨
            (rest = [] ∧ detIssued s = true ∧
              readTo hold n got s path = raise .unexpectedEos (tookRx [] bs.length s)) ∨
            (rest = [] ∧ detIssued s = false ∧
              readTo hold n got s path = block (hold (got ++ bs)) (tookRx [] bs.length s))))) := by
  obtain ⟨bs, rest, h1, h2⟩ := rxReadN_cases (n - got.length) s
  refine ⟨bs, rest, h1, ?_⟩
  rcases h2 with ⟨ha, hb⟩ | ⟨ha, ⟨r, hb, hc⟩ | ⟨r, hb, hc⟩ | ⟨hb, hd, hc⟩ | ⟨hb, hd, hc⟩⟩
  · exact Or.inl ⟨ha, by simp only [readTo, hb, ha]⟩
  · exact Or.inr ⟨ha, Or.inl ⟨r, hb, by simp only [readTo, hc]⟩⟩
  · exact Or.inr ⟨ha, Or.inr (Or.inl ⟨r, hb, by simp only [readTo, hc]⟩)⟩
  · exact Or.inr ⟨ha, Or.inr (Or.inr (Or.inl ⟨hb, hd, by simp only [readTo, hc]⟩))⟩
  · exact Or.inr ⟨ha, Or.inr (Or.inr (Or.inr ⟨hb, hd, by simp only [readTo, hc]⟩))⟩

/-! ## The TX port -/

/-- Everything an offered frame can come to. -/
theorem offer_cases (f : Bytes) (s : State) :
    (∃ rest, s.tx = .ok :: rest ∧ offer f s = finish .none { s with tx := rest, txlog := s.txlog ++ f }) ∨
    (∃ k rest, s.tx = .ioFailure k :: rest ∧
      offer f s = raise .ioFailure { s with tx := rest, txlog := s.txlog ++ f.take k }) ∨
    (s.tx = [] ∧ offer f s = block (.send f) s) := by
  unfold offer
  match s.tx with
  | .ok :: rest => simp
  | .ioFailure k :: rest => simp
  | [] => simp

end Sys2Proof.Laws
end

