-- ==== Sys2Proof/Laws/Frames.lean ====
section
/-! SUPPORT. Everything a DEC can come to: one inductive list of ends, and the lemma that each part of DEC reaches one of them
after taking a front part of the RX answers. -/

namespace Sys2Proof.Laws

open Sys2Proof Sys2Proof.Machine

/-- How many of these answers deliver a byte. -/
def bytesIn (l : List RxAnswer) : Nat :=
  (l.filter fun a => match a with
    | .byte _ => true
    | _ => false).length

@[simp] theorem bytesIn_nil : bytesIn [] = 0 := rfl
@[simp] theorem bytesIn_byte (b : Byte) (l : List RxAnswer) : bytesIn (.byte b :: l) = bytesIn l + 1 := by simp [bytesIn]
@[simp] theorem bytesIn_eos (l : List RxAnswer) : bytesIn (.endOfStream :: l) = bytesIn l := by simp [bytesIn]
@[simp] theorem bytesIn_io (l : List RxAnswer) : bytesIn (.ioFailure :: l) = bytesIn l := by simp [bytesIn]
@[simp] theorem bytesIn_append (l m : List RxAnswer) : bytesIn (l ++ m) = bytesIn l + bytesIn m := by simp [bytesIn]
@[simp] theorem bytesIn_map (bs : Bytes) : bytesIn (bs.map .byte) = bs.length := by
  induction bs with
  | nil => rfl
  | cons b bs ih => simp [ih]

/-- The ends of a DEC from `u`, the state in which its last read left MSPE. -/
inductive DecEnd (cfg : Cfg) (u : State) : State → Prop
  | shortRead : DecEnd cfg u (raise .unexpectedEos u)
  | ioFailure : DecEnd cfg u (raise .ioFailure u)
  | endOfStream : DecEnd cfg u (raise .endOfStream u)
  | outOfBand (b : Byte) : b ≠ chDollar → DecEnd cfg u (raise (.outOfBand b) u)
  | badVersion (b : Byte) : b ≠ chM → b ≠ chX → DecEnd cfg u (raise (.malformedHeader .version b) u)
  | badDirection (d : Byte) : isDirection d = false → DecEnd cfg u (raise (.malformedHeader .direction d) u)
  | waitFirst : u.rx = [] → detIssued u = false → DecEnd cfg u (block .decFirst u)
  | waitSecond : u.rx = [] → detIssued u = false → DecEnd cfg u (block .decSecond u)
  | waitV1 (g : Bytes) : u.rx = [] → detIssued u = false → DecEnd cfg u (block (.decV1 g) u)
  | waitV2 (g : Bytes) : u.rx = [] → detIssued u = false → DecEnd cfg u (block (.decV2 g) u)
  | wholeV1 (g : Bytes) : isDirection (byteAt g 0) = true → 3 + (byteAt g 1).toNat + 1 ≤ g.length →
      DecEnd cfg u (checkV1 (byteAt g 1).toNat g u)
  | wholeV2 (g : Bytes) : isDirection (byteAt g 0) = true →
      6 + (ofLe16 (byteAt g 4) (byteAt g 5)).toNat + 1 ≤ g.length →
      DecEnd cfg u (checkV2 cfg (ofLe16 (byteAt g 4) (byteAt g 5)).toNat g u)

/-- `t` is an end of a DEC from `s`, with a front part of the RX answers taken. -/
def EndsDec (cfg : Cfg) (s t : State) : Prop :=
  ∃ used rest, s.rx = used ++ rest ∧ DecEnd cfg (tookRx rest (bytesIn used) s) t

/-- An end after some answers were taken is an end before they were. -/
theorem EndsDec.after_taking {cfg : Cfg} {s t : State} {used rest : List RxAnswer} (h : s.rx = used ++ rest)
    (ht : EndsDec cfg (tookRx rest (bytesIn used) s) t) : EndsDec cfg s t := by
  obtain ⟨u2, r2, h2, h3⟩ := ht
  refine ⟨used ++ u2, r2, ?_, ?_⟩
  · rw [h, List.append_assoc, ← h2]; rfl
  · simpa using h3

/-- Bytes read before stay in front: indexing into them does not see what is read after. -/
theorem byteAt_append {g bs : Bytes} {i : Nat} (h : i < g.length) : byteAt (g ++ bs) i = byteAt g i := by
  simp [byteAt, List.getD, List.getElem?_append_left h]

/-- A `readTo` ends DEC where its continuation does, or by a short read, or waits. -/
theorem endsDec_readTo {cfg : Cfg} (hold : Bytes → Pending) (n : Nat) (got : Bytes) (s : State) (path : Bytes → State → State)
    (hwait : ∀ g u, u.rx = [] → detIssued u = false → DecEnd cfg u (block (hold g) u))
    (hpath : ∀ (bs : Bytes) u, n ≤ (got ++ bs).length → EndsDec cfg u (path (got ++ bs) u)) :
    EndsDec cfg s (readTo hold n got s path) := by
  obtain ⟨bs, rest, h1, h2⟩ := readTo_cases hold n got s path
  rcases h2 with ⟨ha, hb⟩ | ⟨ha, ⟨r, hb, hc⟩ | ⟨r, hb, hc⟩ | ⟨hb, hd, hc⟩ | ⟨hb, hd, hc⟩⟩
  · refine EndsDec.after_taking h1 ?_
    rw [hb, bytesIn_map]
    exact hpath _ _ (by rw [List.length_append]; omega)
  · exact ⟨bs.map .byte ++ [.endOfStream], r, by simp [h1, hb], by rw [hc]; simpa using .shortRead⟩
  · exact ⟨bs.map .byte ++ [.ioFailure], r, by simp [h1, hb], by rw [hc]; simpa using .ioFailure⟩
  · exact ⟨bs.map .byte, [], by simp [h1, hb], by rw [hc]; simpa using .shortRead⟩
  · exact ⟨bs.map .byte, [], by simp [h1, hb], by rw [hc]; simpa using hwait _ (tookRx [] bs.length s) rfl hd⟩

/-- An end that takes no answer. -/
theorem EndsDec.here {cfg : Cfg} {s t : State} (h : DecEnd cfg s t) : EndsDec cfg s t := ⟨[], s.rx, rfl, h⟩

theorem decV1_ends (cfg : Cfg) (got : Bytes) (s : State) : EndsDec cfg s (decV1 got s) := by
  refine endsDec_readTo _ _ _ _ _ (fun g u h hd => .waitV1 g h hd) fun bs u hlen => ?_
  cases hd : isDirection (byteAt (got ++ bs) 0)
  · exact .here (by simpa [hd] using .badDirection _ hd)
  · simp only [if_true]
    refine endsDec_readTo _ _ _ _ _ (fun g u h hd => .waitV1 g h hd) fun bs2 u2 hlen2 => .here ?_
    have h0 := byteAt_append (g := got ++ bs) (bs := bs2) (i := 0) (by omega)
    have h1 := byteAt_append (g := got ++ bs) (bs := bs2) (i := 1) (by omega)
    rw [← h1] at hlen2 ⊢
    exact .wholeV1 _ (by rw [h0]; exact hd) hlen2

theorem decV2_ends (cfg : Cfg) (got : Bytes) (s : State) : EndsDec cfg s (decV2 cfg got s) := by
  refine endsDec_readTo _ _ _ _ _ (fun g u h hd => .waitV2 g h hd) fun bs u hlen => ?_
  cases hd : isDirection (byteAt (got ++ bs) 0)
  · exact .here (by simpa [hd] using .badDirection _ hd)
  · simp only [if_true]
    refine endsDec_readTo _ _ _ _ _ (fun g u h hd => .waitV2 g h hd) fun bs2 u2 hlen2 => .here ?_
    have h0 := byteAt_append (g := got ++ bs) (bs := bs2) (i := 0) (by omega)
    have h4 := byteAt_append (g := got ++ bs) (bs := bs2) (i := 4) (by omega)
    have h5 := byteAt_append (g := got ++ bs) (bs := bs2) (i := 5) (by omega)
    rw [← h4, ← h5] at hlen2 ⊢
    exact .wholeV2 _ (by rw [h0]; exact hd) hlen2

theorem decSelect_ends (cfg : Cfg) (b1 : Byte) (s : State) : EndsDec cfg s (decSelect cfg b1 s) := by
  by_cases hm : b1 = chM
  · subst hm
    exact decV1_ends cfg [] s
  · by_cases hx : b1 = chX
    · subst hx
      exact decV2_ends cfg [] s
    · have hb : decSelect cfg b1 s = raise (.malformedHeader .version b1) s := by
        simp [decSelect, decodeVersion, hm, hx]
      rw [hb]
      exact .here (.badVersion _ hm hx)

theorem decSecond_ends (cfg : Cfg) (s : State) : EndsDec cfg s (decSecond cfg s) := by
  unfold decSecond
  rcases rxRead_cases s with ⟨b, rest, hx, hr⟩ | ⟨rest, hx, hr⟩ | ⟨rest, hx, hr⟩ | ⟨hx, hd, hr⟩ | ⟨hx, hd, hr⟩
  · rw [hr]
    exact EndsDec.after_taking (used := [.byte b]) hx (decSelect_ends _ _ _)
  · rw [hr]
    exact ⟨[.endOfStream], rest, hx, .shortRead⟩
  · rw [hr]
    exact ⟨[.ioFailure], rest, hx, .ioFailure⟩
  · rw [hr]
    exact .here .shortRead
  · rw [hr]
    exact .here (.waitSecond hx hd)

theorem decFirst_ends (cfg : Cfg) (s : State) : EndsDec cfg s (decFirst cfg s) := by
  unfold decFirst
  rcases rxRead_cases s with ⟨b, rest, hx, hr⟩ | ⟨rest, hx, hr⟩ | ⟨rest, hx, hr⟩ | ⟨hx, hd, hr⟩ | ⟨hx, hd, hr⟩
  · rw [hr]
    refine EndsDec.after_taking (used := [.byte b]) hx ?_
    by_cases hb : b = chDollar
    · simpa [hb] using decSecond_ends _ _
    · simpa [hb] using EndsDec.here (.outOfBand b hb)
  · rw [hr]
    exact ⟨[.endOfStream], rest, hx, .endOfStream⟩
  · rw [hr]
    exact ⟨[.ioFailure], rest, hx, .ioFailure⟩
  · rw [hr]
    exact .here .endOfStream
  · rw [hr]
    exact .here (.waitFirst hx hd)

/-- The V1 path's end latches the frame or reports the mismatch. -/
theorem checkV1_cases (len : Nat) (g : Bytes) (u : State) :
    (byteAt g (3 + len) = xorChk ([byteAt g 1, byteAt g 2] ++ slice g 3 len) ∧
      checkV1 len g u = latch .v1 (byteAt g 0) ((byteAt g 2).setWidth 16) ((byteAt g 1).setWidth 16) (slice g 3 len)
        (byteAt g (3 + len)) u) ∨
    (byteAt g (3 + len) ≠ xorChk ([byteAt g 1, byteAt g 2] ++ slice g 3 len) ∧
      checkV1 len g u = raise (.checksumMismatch ((byteAt g 2).setWidth 16) (slice g 3 len) (byteAt g (3 + len))
        (xorChk ([byteAt g 1, byteAt g 2] ++ slice g 3 len))) u) := by
  unfold checkV1
  by_cases h : byteAt g (3 + len) = xorChk ([byteAt g 1, byteAt g 2] ++ slice g 3 len)
  · exact Or.inl ⟨h, if_pos h⟩
  · exact Or.inr ⟨h, if_neg h⟩

/-- The V2 path's end without enforcement latches the frame, with a drawn `FR.CHK`. -/
theorem checkV2_unenforced {cfg : Cfg} (h : cfg.v2CrcEnforce = false) (len : Nat) (g : Bytes) (u : State) :
    checkV2 cfg len g u = latch .v2 (byteAt g 0) (ofLe16 (byteAt g 2) (byteAt g 3)) (ofLe16 (byteAt g 4) (byteAt g 5))
      (slice g 6 len) (Config.freeChk u.draws) { u with draws := u.draws + 1 } := by
  simp [checkV2, h]

/-- The V2 path's end under enforcement. -/
theorem checkV2_enforced {cfg : Cfg} (h : cfg.v2CrcEnforce = true) (len : Nat) (g : Bytes) (u : State) :
    checkV2 cfg len g u =
      if byteAt g (6 + len) = crc8DvbS2 (slice g 1 5 ++ slice g 6 len) then
        latch .v2 (byteAt g 0) (ofLe16 (byteAt g 2) (byteAt g 3)) (ofLe16 (byteAt g 4) (byteAt g 5)) (slice g 6 len)
          (byteAt g (6 + len)) u
      else raise (.checksumMismatch (ofLe16 (byteAt g 2) (byteAt g 3)) (slice g 6 len) (byteAt g (6 + len))
        (crc8DvbS2 (slice g 1 5 ++ slice g 6 len))) u := by
  simp [checkV2, h]

end Sys2Proof.Laws
end

