-- ==== Sys2Proof/Laws/Words.lean ====
section
/-! SUPPORT. Fields of the command word, and the tables of opcodes and tags, both ways. -/

namespace Sys2Proof.Laws

open Sys2Proof Sys2Proof.Machine

@[simp] theorem opcOf_opWord (a b : Byte) : opcOf (opWord a b) = a := by
  apply BitVec.eq_of_getLsbD_eq
  intro i hi
  simp only [opcOf, opWord, BitVec.getLsbD_extractLsb', BitVec.getLsbD_append]
  simp [hi]

@[simp] theorem subOf_opWord (a b : Byte) : subOf (opWord a b) = b := by
  apply BitVec.eq_of_getLsbD_eq
  intro i hi
  simp only [subOf, opWord, BitVec.getLsbD_extractLsb', BitVec.getLsbD_append]
  simp [hi]

/-- A command word is its two fields. -/
theorem opWord_fields (op : Half) : opWord (opcOf op) (subOf op) = op := by
  apply BitVec.eq_of_getLsbD_eq
  intro i hi
  simp only [opcOf, subOf, opWord, BitVec.getLsbD_extractLsb', BitVec.getLsbD_append]
  by_cases h : i < 8
  · simp [h]
  · have h8 : i - 8 < 8 := by omega
    simp [h, h8, show 8 + (i - 8) = i by omega]

@[simp] theorem opcodeFrom_byte (o : Opcode) : opcodeFrom (opcodeByte o) = some o := by
  cases o <;> decide

theorem opcodeFrom_some {b : Byte} {o : Opcode} (h : opcodeFrom b = some o) : opcodeByte o = b := by
  have := List.find?_some h
  simpa using this

@[simp] theorem tagFrom_byte (t : ShapeTag) : tagFrom (tagByte t) = some t := by
  cases t <;> decide

theorem tagFrom_some {b : Byte} {t : ShapeTag} (h : tagFrom b = some t) : tagByte t = b := by
  have := List.find?_some h
  simpa using this

end Sys2Proof.Laws
end

