-- ==== Sys2Proof/Laws/Step.lean ====
section
/-! SUPPORT. Everything a step can do, and everything each operation that is no DEC can come to. -/

namespace Sys2Proof.Laws

open Sys2Proof Sys2Proof.Machine

/-- Taking an input leaves nothing issued and changes no other field but the plan. -/
theorem nextInput_taken {s u : State} {x : HostInput} (h : nextInput s = some (x, u)) :
    ∃ q, u = { s with issued := none, hostq := q } := by
  unfold nextInput at h
  match hi : s.issued with
  | some y =>
    simp only [hi, Option.some.injEq, Prod.mk.injEq] at h
    exact ⟨s.hostq, h.2.symm⟩
  | none =>
    match hq : s.hostq with
    | [] => simp [hi, hq] at h
    | y :: rest =>
      simp only [hi, hq, Option.some.injEq, Prod.mk.injEq] at h
      exact ⟨rest, by rw [← h.2, ← hi]⟩

theorem nextInput_issued {s : State} {x : HostInput} (h : s.issued = some x) :
    nextInput s = some (x, { s with issued := none }) := by
  simp [nextInput, h]

theorem nextInput_planned {s : State} {x : HostInput} {q : List HostInput} (h : s.issued = none) (hq : s.hostq = x :: q) :
    nextInput s = some (x, { s with hostq := q }) := by
  simp [nextInput, h, hq]

/-- What a free machine does with each next input. -/
theorem nextWork_free {s : State} (hp : s.pending = none) :
    (nextInput s = none ∧ nextWork s = .idle) ∨
    (∃ u, nextInput s = some (.reset, u) ∧ nextWork s = .reset u) ∨
    (∃ c u, nextInput s = some (.op c, u) ∧
      ((∃ i, decodeCommand c = .instr i ∧ nextWork s = .run i u) ∨
        ∃ r, decodeCommand c = .reject r ∧ nextWork s = .reject r u)) := by
  simp only [nextWork, hp, takeInput]
  match nextInput s with
  | none => exact Or.inl ⟨rfl, rfl⟩
  | some (.reset, u) => exact Or.inr (Or.inl ⟨u, rfl, rfl⟩)
  | some (.op c, u) =>
    refine Or.inr (Or.inr ⟨c, u, rfl, ?_⟩)
    cases hc : decodeCommand c with
    | instr i => exact Or.inl ⟨i, rfl, by simp [hc]⟩
    | reject r => exact Or.inr ⟨r, rfl, by simp [hc]⟩

/-- What a waiting operation comes to: it goes on, a reset lands, or the host has broken its duty. -/
theorem nextWork_waiting {s : State} {p : Pending} (hp : s.pending = some p) :
    (breaksDuty s = false ∧ nextWork s = resumeWork p s) ∨
    (s.issued = some .reset ∧ answerArrived p s = false ∧ nextWork s = .reset { s with issued := none }) ∨
    (breaksDuty s = true ∧ nextWork s = .noMeaning) := by
  match hi : s.issued with
  | none => exact Or.inl (by simp [nextWork, breaksDuty, hp, hi])
  | some .reset =>
    cases ha : answerArrived p s
    · exact Or.inr (Or.inl ⟨rfl, rfl, by simp only [nextWork, hp, hi, duringWait, ha]; rfl⟩)
    · exact Or.inl (by simp [nextWork, breaksDuty, hp, hi, duringWait, ha])
  | some (.op c) =>
    cases ho : overtakes c p
    · exact Or.inr (Or.inr (by simp [nextWork, breaksDuty, hp, hi, duringWait, ho]))
    · exact Or.inl (by simp [nextWork, breaksDuty, hp, hi, duringWait, ho])

/-- Only a waiting operation can have a duty broken on it. -/
theorem pending_of_breaksDuty {s : State} (h : breaksDuty s = true) : ∃ p c, s.pending = some p ∧ s.issued = some (.op c) ∧
    overtakes c p = false := by
  unfold breaksDuty at h
  split at h
  · exact ⟨_, _, ‹_›, ‹_›, by simpa using h⟩
  · simp at h
  · simp at h
  · simp at h

/-- What a step does, in every case. -/
theorem step_cases (s : State) :
    (s.pending = none ∧ nextInput s = none ∧ step s = .next s) ∨
    (∃ u, nextWork s = .reset u ∧ step s = .next (machineReset u)) ∨
    (∃ c q i, s.pending = none ∧ nextInput s = some (.op c, { s with issued := none, hostq := q }) ∧
      decodeCommand c = .instr i ∧ nextWork s = .run i { s with issued := none, hostq := q } ∧
      step s = exec i { s with issued := none, hostq := q }) ∨
    (∃ c q r, s.pending = none ∧ nextInput s = some (.op c, { s with issued := none, hostq := q }) ∧
      decodeCommand c = .reject r ∧ step s = .next (rejectOp r { s with issued := none, hostq := q })) ∨
    (∃ p, s.pending = some p ∧ breaksDuty s = false ∧ nextWork s = resumeWork p s ∧
      ((p = .decFirst ∧ step s = .next (resumeFirst s)) ∨ (p = .decSecond ∧ step s = .next (resumeSecond s)) ∨
        (∃ g, p = .decV1 g ∧ step s = exec .frameV1 s) ∨ (∃ g, p = .decV2 g ∧ step s = exec .frameV2 s) ∨
        (∃ f, p = .send f ∧ step s = .next (resumeSend f s)))) ∨
    (breaksDuty s = true ∧ step s = .refused .dutyBroken) := by
  rcases Option.eq_none_or_eq_some s.pending with hp | ⟨p, hp⟩
  · rcases nextWork_free hp with ⟨hn, hw⟩ | ⟨u, _, hw⟩ | ⟨c, u, hn, ⟨i, hc, hw⟩ | ⟨r, hc, hw⟩⟩
    · exact Or.inl ⟨hp, hn, by simp [step, hw]⟩
    · exact Or.inr (Or.inl ⟨u, hw, by simp [step, hw]⟩)
    · obtain ⟨q, rfl⟩ := nextInput_taken hn
      exact Or.inr (Or.inr (Or.inl ⟨c, q, i, hp, hn, hc, hw, by simp [step, hw]⟩))
    · obtain ⟨q, rfl⟩ := nextInput_taken hn
      exact Or.inr (Or.inr (Or.inr (Or.inl ⟨c, q, r, hp, hn, hc, by simp [step, hw]⟩)))
  · rcases nextWork_waiting hp with ⟨hd, hw⟩ | ⟨_, _, hw⟩ | ⟨hd, hw⟩
    · refine Or.inr (Or.inr (Or.inr (Or.inr (Or.inl ⟨p, hp, hd, hw, ?_⟩))))
      cases p <;> simp [step, hw, resumeWork]
    · exact Or.inr (Or.inl ⟨_, hw, by simp [step, hw]⟩)
    · exact Or.inr (Or.inr (Or.inr (Or.inr (Or.inr ⟨hd, by simp [step, hw]⟩))))

/-- MAR's ends. -/
theorem marshalTagged_cases (t : ShapeTag) (sh : Shape) (v : Value) (s : State) :
    (s.faulted = true ∧ marshalTagged t sh v s = { s with resp := some .refused }) ∨
    (s.faulted = false ∧ sh.tag = t ∧ conforms sh v = true ∧ marshalTagged t sh v s = finish (.bytes (layout sh v)) s) ∨
    (s.faulted = false ∧ (sh.tag = t → conforms sh v = false) ∧ ∃ f, marshalTagged t sh v s = fault f s) := by
  unfold marshalTagged requireTag marshal
  rcases accept_cases s fun s => if sh.tag = t then
      (if conforms sh v = true then finish (.bytes (layout sh v)) s else fault .shapeValueMismatch s)
      else fault .illegalOp s with ⟨hf, h⟩ | ⟨hf, h⟩
  · exact Or.inl ⟨hf, h⟩
  · rw [h]
    by_cases ht : sh.tag = t
    · cases hc : conforms sh v
      · exact Or.inr (Or.inr ⟨hf, fun _ => rfl, _, by rw [if_pos ht]; rfl⟩)
      · exact Or.inr (Or.inl ⟨hf, ht, rfl, by rw [if_pos ht]; rfl⟩)
    · exact Or.inr (Or.inr ⟨hf, fun h => absurd h ht, _, if_neg ht⟩)

/-- UNM's ends. -/
theorem unmarshalTagged_cases (t : ShapeTag) (sh : Shape) (s : State) :
    (s.faulted = true ∧ unmarshalTagged t sh s = { s with resp := some .refused }) ∨
    (s.faulted = false ∧ sh.tag = t ∧ s.fr.valid = true ∧ s.cur.toNat + shapeSize sh ≤ s.fr.len.toNat ∧
      unmarshalTagged t sh s = finish (.value (readShape s.fr.pay sh s.cur.toNat).1)
        { s with cur := BitVec.ofNat 16 (readShape s.fr.pay sh s.cur.toNat).2 }) ∨
    (s.faulted = false ∧ sh.tag = t ∧ s.fr.valid = true ∧ s.cur.toNat + shapeSize sh > s.fr.len.toNat ∧
      unmarshalTagged t sh s = shortPayload s) ∨
    (s.faulted = false ∧ (sh.tag = t → s.fr.valid = false) ∧ ∃ f, unmarshalTagged t sh s = fault f s) := by
  unfold unmarshalTagged requireTag
  rcases accept_cases s fun s => if sh.tag = t then unmarshal sh s else fault .illegalOp s with ⟨hf, h⟩ | ⟨hf, h⟩
  · exact Or.inl ⟨hf, h⟩
  · rw [h]
    by_cases ht : sh.tag = t
    · rw [if_pos ht]
      unfold unmarshal
      cases hv : s.fr.valid
      · exact Or.inr (Or.inr (Or.inr ⟨hf, fun _ => rfl, _, rfl⟩))
      · by_cases hs : s.cur.toNat + shapeSize sh > s.fr.len.toNat
        · exact Or.inr (Or.inr (Or.inl ⟨hf, ht, rfl, hs, by simp [hs]⟩))
        · exact Or.inr (Or.inl ⟨hf, ht, rfl, by omega, by simp [hs]⟩)
    · exact Or.inr (Or.inr (Or.inr ⟨hf, fun h => absurd h ht, _, if_neg ht⟩))

mutual
/-- A reading ends `size(sh)` bytes after where it began (43_marshal.md R141). -/
theorem readShape_end (p : Bytes) : ∀ (sh : Shape) (i : Nat), (readShape p sh i).2 = i + shapeSize sh
  | .u8, i => rfl
  | .u16, i => rfl
  | .u32, i => rfl
  | .agg fs, i => by simpa [readShape, shapeSize] using readFields_end p fs i
  | .seq n s, i => by
    have key : ∀ (n i : Nat), (readEach (readShape p s) n i).2 = i + n * shapeSize s := by
      intro n
      induction n with
      | zero => intro i; simp [readEach]
      | succ n ih => intro i; simp [readEach, ih, readShape_end p s i, Nat.succ_mul]; omega
    simpa [readShape, shapeSize] using key n i
theorem readFields_end (p : Bytes) : ∀ (fs : Shapes) (i : Nat), (readFields p fs i).2 = i + shapesSize fs
  | .nil, i => rfl
  | .cons s r, i => by
    simp [readFields, shapesSize, readFields_end p r, readShape_end p s i]; omega
end

/-- ATT's ends. -/
theorem attach_cases (name : PortName) (baud : Nat) (s : State) :
    (s.attached = true ∧ attach name baud s = fault .doubleAttach s) ∨
    (s.attached = false ∧ ∃ (o : List OpenAnswer) (d : Nat),
      attach name baud s = opened name baud { s with opens := o, draws := d } ∨
      attach name baud s = raise .openFailure { s with opens := o, draws := d }) := by
  unfold attach
  cases ha : s.attached
  · refine Or.inr ⟨rfl, ?_⟩
    match ho : s.opens with
    | .opened :: rest => exact ⟨rest, s.draws, Or.inl (by simp)⟩
    | .failed :: rest => exact ⟨rest, s.draws, Or.inr (by simp)⟩
    | [] =>
      refine ⟨[], s.draws + 1, ?_⟩
      cases hd : Config.freeOpened s.draws
      · exact Or.inr (by simp)
      · exact Or.inl (by simp)
  · exact Or.inl ⟨rfl, rfl⟩

/-- SEND's ends. -/
theorem sendFrame_cases (cfg : Cfg) (c : Half) (sh : Shape) (v : Value) (s : State) :
    (∃ f, sendFrame cfg c sh v s = fault f s) ∨
    (s.attached = true ∧ conforms sh v = true ∧ ∃ f, enc1 cfg c (layout sh v) = .frame f ∧
      sendFrame cfg c sh v s = offer f s) := by
  unfold sendFrame
  cases ha : s.attached
  · exact Or.inl ⟨_, rfl⟩
  · cases hc : conforms sh v
    · exact Or.inl ⟨_, rfl⟩
    · cases he : enc1 cfg c (layout sh v) with
      | frame f => exact Or.inr ⟨rfl, rfl, f, rfl, rfl⟩
      | fault f => exact Or.inl ⟨f, rfl⟩

end Sys2Proof.Laws
end

