-- ==== Sys2Proof/Laws/Ends.lean ====
section
/-! SUPPORT. Everything an operation can do, said once: one inductive list of ends for all of `exec`, and one for the steps that
assert no reset. The invariants and frames go through these lists. -/

namespace Sys2Proof.Laws

open Sys2Proof Sys2Proof.Machine

/-- The operations that end without a look at any register: checksums, encoders, marshal. -/
def IsPure : Instr → Bool
  | .chkx _ | .chkc _ | .enc1 _ _ | .enc2 _ _ => true
  | .marU8 _ _ | .marU16 _ _ | .marU32 _ _ | .marAgg _ _ | .marSeq _ _ => true
  | .dec | .unmU8 _ | .unmU16 _ | .unmU32 _ | .unmAgg _ | .unmSeq _ => false
  | .send _ _ _ | .att _ _ | .det | .frameV1 | .frameV2 => false

/-- The UNM operations. -/
def IsUnm : Instr → Bool
  | .unmU8 _ | .unmU16 _ | .unmU32 _ | .unmAgg _ | .unmSeq _ => true
  | .chkx _ | .chkc _ | .enc1 _ _ | .enc2 _ _ | .dec => false
  | .marU8 _ _ | .marU16 _ _ | .marU32 _ _ | .marAgg _ _ | .marSeq _ _ => false
  | .send _ _ _ | .att _ _ | .det | .frameV1 | .frameV2 => false

/-- The ends of operation `i` from `s`. -/
inductive OpEnd (i : Instr) (s : State) : State → Prop
  | refused : s.faulted = true → OpEnd i s { s with resp := some .refused }
  | fault (f : PFault) : s.faulted = false → OpEnd i s (fault f s)
  | pure (r : OpResult) : s.faulted = false → IsPure i = true → OpEnd i s (finish r s)
  | unm (v : Value) (n : Nat) : s.faulted = false → IsUnm i = true → s.fr.valid = true →
      s.cur.toNat + n ≤ s.fr.len.toNat →
      OpEnd i s (finish (.value v) { s with cur := BitVec.ofNat 16 (s.cur.toNat + n) })
  | short : s.faulted = false → IsUnm i = true → s.fr.valid = true → OpEnd i s (shortPayload s)
  | dec (t : State) : s.faulted = false → i = .dec → s.attached = true →
      EndsDec Config.hardware (invalidate (unblock s)) t → OpEnd i s t
  | path (t : State) : s.faulted = false → i = .frameV1 ∨ i = .frameV2 → EndsDec Config.hardware (unblock s) t → OpEnd i s t
  | send (f : Bytes) : s.faulted = false → s.attached = true → (∃ c sh v, i = .send c sh v) → OpEnd i s (offer f s)
  | opened (name : PortName) (baud : Nat) (o : List OpenAnswer) (d : Nat) : s.faulted = false → s.attached = false →
      i = .att name baud → OpEnd i s (opened name baud { s with opens := o, draws := d })
  | openFailed (name : PortName) (baud : Nat) (o : List OpenAnswer) (d : Nat) : s.faulted = false → s.attached = false →
      i = .att name baud → OpEnd i s (raise .openFailure { s with opens := o, draws := d })
  | detached : s.faulted = false → s.attached = true → i = .det →
      OpEnd i s (finish .none { s with attached := false, port := none })

theorem opEnd_mar {i : Instr} (hi : IsPure i = true) (t : ShapeTag) (sh : Shape) (v : Value) (s : State) :
    OpEnd i s (marshalTagged t sh v s) := by
  rcases marshalTagged_cases t sh v s with ⟨hf, h⟩ | ⟨hf, _, _, h⟩ | ⟨hf, _, f, h⟩ <;> rw [h]
  · exact .refused hf
  · exact .pure _ hf hi
  · exact .fault _ hf

theorem opEnd_unm {i : Instr} (hi : IsUnm i = true) (t : ShapeTag) (sh : Shape) (s : State) :
    OpEnd i s (unmarshalTagged t sh s) := by
  rcases unmarshalTagged_cases t sh s with ⟨hf, h⟩ | ⟨hf, _, hv, hs, h⟩ | ⟨hf, _, hv, _, h⟩ | ⟨hf, _, f, h⟩ <;> rw [h]
  · exact .refused hf
  · rw [readShape_end]
    exact .unm _ _ hf hi hv hs
  · exact .short hf hi hv
  · exact .fault _ hf

/-- An accepted operation is refused, or runs. -/
theorem opEnd_accept {i : Instr} {s : State} {run : State → State} (h : s.faulted = false → OpEnd i s (run s)) :
    OpEnd i s (accept s run) := by
  rcases accept_cases s run with ⟨hf, hr⟩ | ⟨hf, hr⟩ <;> rw [hr]
  · exact .refused hf
  · exact h hf

theorem opEnd_encode {i : Instr} (hi : IsPure i = true) (r : EncodeResult) (s : State) (hf : s.faulted = false) :
    OpEnd i s (finishEncode r s) := by
  cases r
  · exact .pure _ hf hi
  · exact .fault _ hf

theorem opEnd_dec {s : State} (hf : s.faulted = false) : OpEnd .dec s (decFrame Config.hardware s) := by
  unfold decFrame
  cases ha : s.attached
  · exact .fault _ hf
  · exact .dec _ hf rfl ha (decFirst_ends _ _)

theorem opEnd_send (c : Half) (sh : Shape) (v : Value) {s : State} (hf : s.faulted = false) :
    OpEnd (.send c sh v) s (sendFrame Config.hardware c sh v s) := by
  rcases sendFrame_cases Config.hardware c sh v s with ⟨f, h⟩ | ⟨ha, _, f, _, h⟩ <;> rw [h]
  · exact .fault _ hf
  · exact .send _ hf ha ⟨_, _, _, rfl⟩

theorem opEnd_att (name : PortName) (baud : Nat) {s : State} (hf : s.faulted = false) :
    OpEnd (.att name baud) s (attach name baud s) := by
  rcases attach_cases name baud s with ⟨_, h⟩ | ⟨ha, o, d, h | h⟩ <;> rw [h]
  · exact .fault _ hf
  · exact .opened _ _ _ _ hf ha rfl
  · exact .openFailed _ _ _ _ hf ha rfl

theorem opEnd_det {s : State} (hf : s.faulted = false) : OpEnd .det s (detach s) := by
  unfold detach
  cases ha : s.attached
  · exact .fault _ hf
  · exact .detached hf ha rfl

/-- Every operation answers a next state, and it is one of its ends. -/
theorem exec_ends (i : Instr) (s : State) : ∃ t, exec i s = .next t ∧ OpEnd i s t := by
  cases i <;> refine ⟨_, rfl, ?_⟩
  case chkx => exact opEnd_accept fun hf => .pure _ hf rfl
  case chkc => exact opEnd_accept fun hf => .pure _ hf rfl
  case enc1 => exact opEnd_accept fun hf => opEnd_encode rfl _ _ hf
  case enc2 => exact opEnd_accept fun hf => opEnd_encode rfl _ _ hf
  case dec => exact opEnd_accept fun hf => opEnd_dec hf
  case marU8 => exact opEnd_mar rfl _ _ _ _
  case marU16 => exact opEnd_mar rfl _ _ _ _
  case marU32 => exact opEnd_mar rfl _ _ _ _
  case marAgg => exact opEnd_mar rfl _ _ _ _
  case marSeq => exact opEnd_mar rfl _ _ _ _
  case unmU8 => exact opEnd_unm rfl _ _ _
  case unmU16 => exact opEnd_unm rfl _ _ _
  case unmU32 => exact opEnd_unm rfl _ _ _
  case unmAgg => exact opEnd_unm rfl _ _ _
  case unmSeq => exact opEnd_unm rfl _ _ _
  case send => exact opEnd_accept fun hf => opEnd_send _ _ _ hf
  case att => exact opEnd_accept fun hf => opEnd_att _ _ hf
  case det => exact opEnd_accept fun hf => opEnd_det hf
  case frameV1 => exact opEnd_accept fun hf => .path _ hf (Or.inl rfl) (decV1_ends _ _ _)
  case frameV2 => exact opEnd_accept fun hf => .path _ hf (Or.inr rfl) (decV2_ends _ _ _)

/-- Which end it is, from the answer. -/
theorem opEnd_of_next {i : Instr} {s t : State} (h : exec i s = .next t) : OpEnd i s t := by
  obtain ⟨u, h1, h2⟩ := exec_ends i s
  obtain rfl : u = t := by simpa [h] using h1.symm
  exact h2

/-! ## The ends' frames -/

/-- What no end of a DEC touches. -/
theorem decEnd_frame {u t : State} (h : DecEnd Config.hardware u t) :
    t.rx = u.rx ∧ t.rxpos = u.rxpos ∧ t.tx = u.tx ∧ t.txlog = u.txlog ∧ t.port = u.port ∧ t.opens = u.opens ∧
      t.issued = u.issued ∧ t.hostq = u.hostq ∧ t.faulted = u.faulted := by
  cases h
  case wholeV1 g _ _ => rcases checkV1_cases (byteAt g 1).toNat g u with ⟨_, h⟩ | ⟨_, h⟩ <;> rw [h] <;> simp [latch]
  case wholeV2 g _ _ => rw [checkV2_unenforced rfl]; simp [latch]
  all_goals simp

/-- What no end of an offered frame touches. -/
theorem offer_frame (f : Bytes) (s : State) :
    (offer f s).rx = s.rx ∧ (offer f s).rxpos = s.rxpos ∧ (offer f s).fr = s.fr ∧ (offer f s).port = s.port ∧
      (offer f s).opens = s.opens ∧ (offer f s).cur = s.cur ∧ (offer f s).issued = s.issued ∧
      (offer f s).hostq = s.hostq ∧ (offer f s).faulted = s.faulted := by
  rcases offer_cases f s with ⟨r, _, h⟩ | ⟨k, r, _, h⟩ | ⟨_, h⟩ <;> rw [h] <;> simp

/-! ## The step -/

theorem marInstr_no_path (t : ShapeTag) (sh : Shape) (v : Value) : marInstr t sh v ≠ .frameV1 ∧ marInstr t sh v ≠ .frameV2 := by
  cases t <;> simp [marInstr]

theorem unmInstr_no_path (t : ShapeTag) (sh : Shape) : unmInstr t sh ≠ .frameV1 ∧ unmInstr t sh ≠ .frameV2 := by
  cases t <;> simp [unmInstr]

/-- No command word decodes to a frame path: those rows are on the wire only (30_encoding.md R77, R81). -/
theorem decodeCommand_no_path {c : Command} {i : Instr} (h : decodeCommand c = .instr i) : i ≠ .frameV1 ∧ i ≠ .frameV2 := by
  unfold decodeCommand at h
  split at h
  · simp at h
  · split at h
    · simp at h
    · unfold decodeMar at h
      (repeat' split at h) <;> simp at h
      subst h
      exact marInstr_no_path _ _ _
  · split at h
    · simp at h
    · unfold decodeUnm at h
      (repeat' split at h) <;> simp at h
      subst h
      exact unmInstr_no_path _ _
  · split at h
    · unfold decodeOperands at h
      split at h <;> simp at h <;> subst h <;> simp
    · simp at h

/-- The ends of a step from `s` that asserts no reset. -/
inductive StepEnd (s : State) : State → Prop
  | idle : s.pending = none → StepEnd s s
  | op (i : Instr) (q : List HostInput) (t : State) : s.pending = none →
      nextWork s = .run i { s with issued := none, hostq := q } → i ≠ .frameV1 → i ≠ .frameV2 →
      OpEnd i { s with issued := none, hostq := q } t → StepEnd s t
  | rejected (r : Reject) (q : List HostInput) : s.pending = none →
      StepEnd s (rejectOp r { s with issued := none, hostq := q })
  | refused : s.pending.isSome = true → breaksDuty s = false → s.faulted = true → StepEnd s { s with resp := some .refused }
  | dec (p : Pending) (t : State) : s.pending = some p → (∀ f, p ≠ .send f) → breaksDuty s = false → s.faulted = false →
      EndsDec Config.hardware (unblock s) t → StepEnd s t
  | send (f : Bytes) : s.pending = some (.send f) → breaksDuty s = false → s.faulted = false → StepEnd s (offer f (unblock s))

/-- An operation that goes on is refused, or runs. -/
theorem stepEnd_accept {s : State} {run : State → State} (hp : s.pending.isSome = true)
    (hd : breaksDuty s = false) (h : s.faulted = false → StepEnd s (run s)) : StepEnd s (accept s run) := by
  rcases accept_cases s run with ⟨hf, hr⟩ | ⟨hf, hr⟩ <;> rw [hr]
  · exact .refused hp hd hf
  · exact h hf

/-- A step asserts reset, or finds the host's duty broken, or answers a next state, one of its ends. -/
theorem step_ends (s : State) :
    (∃ u, nextWork s = .reset u ∧ step s = .next (machineReset u)) ∨
    (breaksDuty s = true ∧ step s = .refused .dutyBroken) ∨ ∃ t, step s = .next t ∧ StepEnd s t := by
  rcases step_cases s with ⟨hp, _, h⟩ | h | ⟨c, q, i, hp, _, hd, hw, h⟩ | ⟨c, q, r, hp, _, hd, h⟩ | ⟨p, hp, hb, hw, h⟩ | h
  · exact Or.inr (Or.inr ⟨s, h, .idle hp⟩)
  · exact Or.inl h
  · obtain ⟨t, h1, h2⟩ := exec_ends i { s with issued := none, hostq := q }
    have hn := decodeCommand_no_path hd
    exact Or.inr (Or.inr ⟨t, h.trans h1, .op i q t hp hw hn.1 hn.2 h2⟩)
  · exact Or.inr (Or.inr ⟨_, h, .rejected r q hp⟩)
  · have hs : s.pending.isSome = true := by simp [hp]
    rcases h with ⟨rfl, h⟩ | ⟨rfl, h⟩ | ⟨g, rfl, h⟩ | ⟨g, rfl, h⟩ | ⟨f, rfl, h⟩ <;>
      refine Or.inr (Or.inr ⟨_, h, stepEnd_accept hs hb fun hf => ?_⟩)
    · exact .dec _ _ hp (by simp) hb hf (decFirst_ends _ _)
    · exact .dec _ _ hp (by simp) hb hf (decSecond_ends _ _)
    · exact .dec _ _ hp (by simp) hb hf (decV1_ends _ _ _)
    · exact .dec _ _ hp (by simp) hb hf (decV2_ends _ _ _)
    · exact .send f hp hb hf
  · exact Or.inr (Or.inl h)

end Sys2Proof.Laws
end

