-- ==== Sys2Proof/Laws/Layout.lean ====
section
/-! SUPPORT. Byte order as concatenation, shapes and values from ordinary lists, and MAR and UNM by their shape alone. -/

namespace Sys2Proof.Laws

open Sys2Proof Sys2Proof.Machine

/-- Two bytes assembled little-endian (30_encoding.md R75). -/
theorem ofLe16_append (a b : Byte) : ofLe16 a b = b ++ a := by
  apply BitVec.eq_of_toNat_eq
  have := a.isLt
  have := b.isLt
  rw [ofLe16, BitVec.toNat_or, BitVec.toNat_append]
  simp only [BitVec.toNat_setWidth, BitVec.toNat_shiftLeft]
  rw [Nat.or_comm]
  congr 1
  · simp only [Nat.shiftLeft_eq]
    omega
  · omega

/-- Four bytes assembled little-endian (43_marshal.md R141). -/
theorem ofLe32_append (a b c d : Byte) : ofLe32 a b c d = d ++ c ++ b ++ a := by
  apply BitVec.eq_of_toNat_eq
  have := a.isLt
  have := b.isLt
  have := c.isLt
  have := d.isLt
  simp only [ofLe32, BitVec.toNat_or, BitVec.toNat_append]
  simp only [BitVec.toNat_setWidth, BitVec.toNat_shiftLeft, Nat.shiftLeft_or_distrib]
  rw [Nat.or_comm, Nat.or_comm (_ ||| _) (_), ← Nat.or_assoc]
  simp only [Nat.shiftLeft_eq]
  rw [Nat.or_comm (a.toNat % 2 ^ 32), show a.toNat % 2 ^ 32 = a.toNat by omega,
    show (b.toNat % 2 ^ 32 * 2 ^ 8) % 2 ^ 32 = b.toNat * 2 ^ 8 by omega,
    show (c.toNat % 2 ^ 32 * 2 ^ 16) % 2 ^ 32 = c.toNat * 2 ^ 8 * 2 ^ 8 by omega,
    show (d.toNat % 2 ^ 32 * 2 ^ 24) % 2 ^ 32 = d.toNat * 2 ^ 8 * 2 ^ 8 * 2 ^ 8 by omega]
  simp only [Nat.or_assoc]

/-- Conformance of a field list. -/
theorem fieldsConform_ofList (ss : List Shape) (vs : List Value) :
    fieldsConform (.ofList ss) (.ofList vs) = true ↔ List.Forall₂ (fun sh v => conforms sh v = true) ss vs := by
  induction ss generalizing vs with
  | nil => cases vs <;> simp [Shapes.ofList, Values.ofList, fieldsConform]
  | cons s ss ih => cases vs <;> simp [Shapes.ofList, Values.ofList, fieldsConform, ih]

/-- Layout of a field list. -/
theorem layoutFields_ofList (ss : List Shape) (vs : List Value) :
    layoutFields (.ofList ss) (.ofList vs) = (List.zipWith layout ss vs).flatten := by
  induction ss generalizing vs with
  | nil => cases vs <;> simp [Shapes.ofList, Values.ofList, layoutFields]
  | cons s ss ih => cases vs <;> simp [Shapes.ofList, Values.ofList, layoutFields, ih]

/-- Conformance of an element list. -/
theorem eachConforms_ofList (test : Value → Bool) (n : Nat) (vs : List Value) :
    eachConforms test n (.ofList vs) = true ↔ vs.length = n ∧ ∀ v ∈ vs, test v = true := by
  induction vs generalizing n with
  | nil => cases n <;> simp [Values.ofList, eachConforms]
  | cons v vs ih =>
    cases n
    · simp [Values.ofList, eachConforms]
    · simp only [Values.ofList, eachConforms, Bool.and_eq_true, ih, List.length_cons, List.forall_mem_cons, Nat.add_right_cancel_iff]
      exact and_left_comm

/-- Layout of an element list. -/
theorem layEach_ofList (lay : Value → Bytes) (vs : List Value) : layEach lay (.ofList vs) = (vs.map lay).flatten := by
  induction vs with
  | nil => rfl
  | cons v vs ih => simp [Values.ofList, layEach, ih]

/-- MAR of the shape's own tag is the MAR body. -/
theorem exec_marInstr (sh : Shape) (v : Value) (s : State) (h : s.faulted = false) :
    exec (marInstr sh.tag sh v) s = .next (marshal sh v s) := by
  cases sh <;>
    simp [exec, marInstr, Shape.tag, execMarU8, execMarU16, execMarU32, execMarAgg, execMarSeq, marshalTagged, h, requireTag]

/-- UNM of the shape's own tag is the UNM body. -/
theorem exec_unmInstr (sh : Shape) (s : State) (h : s.faulted = false) :
    exec (unmInstr sh.tag sh) s = .next (unmarshal sh s) := by
  cases sh <;>
    simp [exec, unmInstr, Shape.tag, execUnmU8, execUnmU16, execUnmU32, execUnmAgg, execUnmSeq, unmarshalTagged, h, requireTag]

end Sys2Proof.Laws
end

