-- ==== Sys2Proof/Laws/PerInstr.lean ====
section
/-! SUPPORT. Per-instruction lemmas. Family `TableWord`: the word an instruction is encoded with is its row's `match` in the
opcode table. -/

namespace Sys2Proof.Laws.TableWord

open Sys2Proof Sys2Proof.Machine

/-- The `match` column of spec/opcode_table.json. -/
def rowWord : Instr → Half
  | .chkx _ => 0x0100#16
  | .chkc _ => 0x0200#16
  | .enc1 _ _ => 0x1000#16
  | .enc2 _ _ => 0x1100#16
  | .dec => 0x2000#16
  | .marU8 _ _ => 0x3001#16
  | .marU16 _ _ => 0x3002#16
  | .marU32 _ _ => 0x3004#16
  | .marAgg _ _ => 0x3010#16
  | .marSeq _ _ => 0x3020#16
  | .unmU8 _ => 0x3101#16
  | .unmU16 _ => 0x3102#16
  | .unmU32 _ => 0x3104#16
  | .unmAgg _ => 0x3110#16
  | .unmSeq _ => 0x3120#16
  | .send _ _ _ => 0x4000#16
  | .att _ _ => 0x5000#16
  | .det => 0x5100#16
  | .frameV1 => 0x244D#16
  | .frameV2 => 0x2458#16

/-- The word of a form, numbered as the table numbers it. -/
def formWord : Encoded → Half
  | .command c => c.op
  | .wire b0 b1 => opWord b0 b1

/-- The statement of the family. -/
def Statement (i : Instr) : Prop := formWord (encode i) = rowWord i

theorem chkx (s : Bytes) : Statement (.chkx s) := rfl
theorem chkc (s : Bytes) : Statement (.chkc s) := rfl
theorem enc1 (c : Half) (p : Bytes) : Statement (.enc1 c p) := rfl
theorem enc2 (c : Half) (p : Bytes) : Statement (.enc2 c p) := rfl
theorem dec : Statement .dec := rfl
theorem marU8 (sh : Shape) (v : Value) : Statement (.marU8 sh v) := rfl
theorem marU16 (sh : Shape) (v : Value) : Statement (.marU16 sh v) := rfl
theorem marU32 (sh : Shape) (v : Value) : Statement (.marU32 sh v) := rfl
theorem marAgg (sh : Shape) (v : Value) : Statement (.marAgg sh v) := rfl
theorem marSeq (sh : Shape) (v : Value) : Statement (.marSeq sh v) := rfl
theorem unmU8 (sh : Shape) : Statement (.unmU8 sh) := rfl
theorem unmU16 (sh : Shape) : Statement (.unmU16 sh) := rfl
theorem unmU32 (sh : Shape) : Statement (.unmU32 sh) := rfl
theorem unmAgg (sh : Shape) : Statement (.unmAgg sh) := rfl
theorem unmSeq (sh : Shape) : Statement (.unmSeq sh) := rfl
theorem send (c : Half) (sh : Shape) (v : Value) : Statement (.send c sh v) := rfl
theorem att (name : PortName) (baud : Nat) : Statement (.att name baud) := rfl
theorem det : Statement .det := rfl
theorem frameV1 : Statement .frameV1 := rfl
theorem frameV2 : Statement .frameV2 := rfl

end Sys2Proof.Laws.TableWord
end

