-- ==== Sys2Proof/Tests/Slice0.lean ====
section
/-! SUPPORT. Tests. Expected results come from the spec: 95_test_vectors.md (named V-…, S…, PROG-…), 30_encoding.md R81, R82
and the worked examples of the rules. -/

namespace Sys2Proof.Tests

open Sys2Proof Sys2Proof.Machine Sys2Proof.Claims

/-! ## Helpers -/

/-- The next state of an outcome. -/
def nextOf : Host.Outcome State Fault Refusal → Option State
  | .next s => some s
  | .fault _ => none
  | .refused _ => none

/-- What a field of the next state is. -/
def after {α : Type} (o : Host.Outcome State Fault Refusal) (f : State → α) : Option α := (nextOf o).map f

/-- An attached machine with these RX answers to come. -/
def attachedWith (rx : List RxAnswer) : State :=
  { State.reset with attached := true, port := some ⟨[0x61#8], 115200⟩, rx := rx }

/-- RX bytes. -/
def rxBytes (s : Bytes) : List RxAnswer := s.map .byte

/-- A machine holding a frame with this payload, and the cursor here. -/
def holding (pay : Bytes) (cur : Half) : State :=
  { State.reset with
    fr := { valid := true, ver := .v2, dir := 0x3E, cmd := 1, len := BitVec.ofNat 16 pay.length, pay := pay, chk := 0 }
    cur := cur }

/-- `Agg [u8, u16, u32]` -/
def mixedShape : Shape := .agg (.ofList [.u8, .u16, .u32])
/-- `{0x01, 0x0203, 0x04050607}` -/
def mixedValue : Value := .agg (.ofList [.v8 0x01, .v16 0x0203, .v32 0x04050607])
/-- `[4]u16` -/
def quadShape : Shape := .seq 4 .u16
/-- `[1, 2, 3, 0xFFFF]` -/
def quadValue : Value := .seq (.ofList [.v16 1, .v16 2, .v16 3, .v16 0xFFFF])

/-! ## Well-formedness refuses a wrong top-level shape (R82) -/

theorem test_wf_marU8_refuses_u16 : (Instr.marU8 .u16 (.v16 0)).wf = false := by decide
theorem test_wf_marU16_refuses_u8 : (Instr.marU16 .u8 (.v8 0)).wf = false := by decide
theorem test_wf_marU32_refuses_seq : (Instr.marU32 (.seq 4 .u8) (.v8 0)).wf = false := by decide
theorem test_wf_marAgg_refuses_seq : (Instr.marAgg (.seq 0 .u8) (.seq .nil)).wf = false := by decide
theorem test_wf_marSeq_refuses_agg : (Instr.marSeq (.agg .nil) (.agg .nil)).wf = false := by decide
theorem test_wf_unmU8_refuses_agg : (Instr.unmU8 (.agg .nil)).wf = false := by decide
theorem test_wf_unmU16_refuses_u32 : (Instr.unmU16 .u32).wf = false := by decide
theorem test_wf_unmU32_refuses_u16 : (Instr.unmU32 .u16).wf = false := by decide
theorem test_wf_unmAgg_refuses_u8 : (Instr.unmAgg .u8).wf = false := by decide
theorem test_wf_unmSeq_refuses_u8 : (Instr.unmSeq .u8).wf = false := by decide
theorem test_wf_marAgg_accepts : (Instr.marAgg mixedShape mixedValue).wf = true := by decide

/-! ## Decoding, each word written out as opcode and sub-opcode (R81, R82) -/

theorem test_decode_chkx : decodeCommand ⟨0x0100, [.bytes [7]]⟩ = .instr (.chkx [7]) := by decide
theorem test_decode_chkc : decodeCommand ⟨0x0200, [.bytes [7]]⟩ = .instr (.chkc [7]) := by decide
theorem test_decode_enc1 : decodeCommand ⟨0x1000, [.u16 1, .bytes []]⟩ = .instr (.enc1 1 []) := by decide
theorem test_decode_enc2 : decodeCommand ⟨0x1100, [.u16 0x1234, .bytes [1]]⟩ = .instr (.enc2 0x1234 [1]) := by decide
theorem test_decode_dec : decodeCommand ⟨0x2000, []⟩ = .instr .dec := by decide
theorem test_decode_marU8 : decodeCommand ⟨0x3001, [.shape .u8, .value (.v8 3)]⟩ = .instr (.marU8 .u8 (.v8 3)) := by decide
theorem test_decode_marU16 : decodeCommand ⟨0x3002, [.shape .u16, .value (.v16 3)]⟩ = .instr (.marU16 .u16 (.v16 3)) := by
  decide
theorem test_decode_marU32 : decodeCommand ⟨0x3004, [.shape .u32, .value (.v32 3)]⟩ = .instr (.marU32 .u32 (.v32 3)) := by
  decide
theorem test_decode_marAgg :
    decodeCommand ⟨0x3010, [.shape mixedShape, .value mixedValue]⟩ = .instr (.marAgg mixedShape mixedValue) := by decide
theorem test_decode_marSeq :
    decodeCommand ⟨0x3020, [.shape quadShape, .value quadValue]⟩ = .instr (.marSeq quadShape quadValue) := by decide
theorem test_decode_unmU8 : decodeCommand ⟨0x3101, [.shape .u8]⟩ = .instr (.unmU8 .u8) := by decide
theorem test_decode_unmU16 : decodeCommand ⟨0x3102, [.shape .u16]⟩ = .instr (.unmU16 .u16) := by decide
theorem test_decode_unmU32 : decodeCommand ⟨0x3104, [.shape .u32]⟩ = .instr (.unmU32 .u32) := by decide
theorem test_decode_unmAgg : decodeCommand ⟨0x3110, [.shape mixedShape]⟩ = .instr (.unmAgg mixedShape) := by decide
theorem test_decode_unmSeq : decodeCommand ⟨0x3120, [.shape quadShape]⟩ = .instr (.unmSeq quadShape) := by decide
theorem test_decode_send :
    decodeCommand ⟨0x4000, [.u16 1, .shape .u8, .value (.v8 9)]⟩ = .instr (.send 1 .u8 (.v8 9)) := by decide
theorem test_decode_att : decodeCommand ⟨0x5000, [.port [0x61], .nat 115200]⟩ = .instr (.att [0x61] 115200) := by decide
theorem test_decode_det : decodeCommand ⟨0x5100, []⟩ = .instr .det := by decide
theorem test_decode_frameV1 : decode (.wire 0x24 0x4D) = .instr .frameV1 := by decide
theorem test_decode_frameV2 : decode (.wire 0x24 0x58) = .instr .frameV2 := by decide

/-- V-OP-1 -/
theorem test_reject_zero : decodeCommand ⟨0x0000, []⟩ = .reject .unknownOpcode := by decide
/-- V-OP-2 -/
theorem test_reject_chkx_sub1 : decodeCommand ⟨0x0101, [.bytes []]⟩ = .reject .badSub := by decide
/-- V-OP-3 -/
theorem test_reject_tag3 : decodeCommand ⟨0x3003, [.shape .u8, .value (.v8 0)]⟩ = .reject .badSub := by decide
/-- V-OP-5 -/
theorem test_reject_enc1_missing : decodeCommand ⟨0x1000, [.u16 1]⟩ = .reject .badOperands := by decide
/-- V-MAR-17 -/
theorem test_reject_tag_mismatch : decodeCommand ⟨0x3001, [.shape .u16, .value (.v16 0)]⟩ = .reject .tagMismatch := by decide
/-- R147 -/
theorem test_reject_foreign : decodeCommand ⟨0x3110, [.foreignShape]⟩ = .reject .unsupportedShape := by decide
/-- R77, N14: `'!'` is no version byte. -/
theorem test_reject_version : decode (.wire 0x24 0x21) = .reject .badVersion := by decide

/-- The words of spec/opcode_table.json. -/
theorem test_table_words :
    [0x0100, 0x0200, 0x1000, 0x1100, 0x2000, 0x4000, 0x5000, 0x5100, 0x244D, 0x2458].map (decodeTableWord 16) =
      [some (.chkx []), some (.chkc []), some (.enc1 0 []), some (.enc2 0 []), some .dec,
        some (.send 0 (.agg .nil) (.agg .nil)), some (.att [] 0), some .det, some .frameV1, some .frameV2] := by decide

theorem test_table_words_marshal :
    [0x3001, 0x3002, 0x3004, 0x3010, 0x3020, 0x3101, 0x3102, 0x3104, 0x3110, 0x3120].map
        (fun w => (decodeTableWord 16 w).map Instr.wf) = List.replicate 10 (some true) := by decide

/-- A table word placed for fetching is the next work. -/
theorem test_fetch_word : nextWork (State.reset.withFetchWord 16 0x5100) = .run .det State.reset := by decide
theorem test_fetch_frame :
    nextWork (State.reset.withFetchWord 16 0x2458) = .run .frameV2 { State.reset with pending := some (.decV2 []) } := by decide

/-! ## Checksums -/

/-- V-XOR-8 -/
theorem test_xor_8 : xorChk [0x03, 0x01, 0x00, 0x01, 0x2E] = 0x2D := by decide
/-- V-CRC-7, the catalogue check value over "123456789" -/
theorem test_crc_7 : crc8DvbS2 [0x31, 0x32, 0x33, 0x34, 0x35, 0x36, 0x37, 0x38, 0x39] = 0xBC := by decide +kernel
/-- V-CRC-13 -/
theorem test_crc_13 : crc8DvbS2 [0x00, 0x10, 0x27, 0x04, 0x00, 0x01, 0x00, 0x02, 0x00] = 0x69 := by decide +kernel
/-- R100's worked example -/
theorem test_chkx : after (exec (.chkx [0x00, 0x01]) State.reset) (·.resp) = some (some (.ok (.byte 0x01))) := by decide
/-- V-FLT-5 -/
theorem test_chkc : after (exec (.chkc [0x01]) State.reset) (·.resp) = some (some (.ok (.byte 0xD5))) := by decide
/-- V-FLT-1: refused, nothing written. -/
theorem test_refused :
    after (exec (.chkx [0x00]) { State.reset with faulted := true, code := 0x47 }) (fun s => (s.resp, s.code)) =
      some (some .refused, 0x47) := by decide

/-! ## Encoding frames -/

/-- V-E1-8: only the low byte of the command goes out. -/
theorem test_enc1_low_byte :
    after (exec (.enc1 0x0101 [0x00]) State.reset) (·.resp) =
      some (some (.ok (.bytes [0x24, 0x4D, 0x3C, 0x01, 0x01, 0x00, 0x00]))) := by decide
/-- V-E1-10 -/
theorem test_enc1_too_long :
    after (exec (.enc1 2 (List.replicate 256 0)) State.reset) (fun s => (s.code, s.faulted)) = some (0x43, true) := by decide +kernel
/-- V-E2-2 -/
theorem test_enc2_zero_fill :
    enc2 { Config.hardware with v2EncPayload := .zeroFill } 0x1234 [1, 2, 3] =
      .frame [0x24, 0x58, 0x3C, 0x00, 0x34, 0x12, 0x03, 0x00, 0x00, 0x00, 0x00, 0xA8] := by decide +kernel
/-- V-E2-3 -/
theorem test_enc2_verbatim :
    enc2 { Config.hardware with v2EncPayload := .verbatim } 0x1234 [1, 2, 3] =
      .frame [0x24, 0x58, 0x3C, 0x00, 0x34, 0x12, 0x03, 0x00, 0x01, 0x02, 0x03, 0x97] := by decide +kernel

/-! ## Decoding frames -/

/-- PROG-1's response -/
theorem test_dec_v1 :
    after (exec .dec (attachedWith (rxBytes [0x24, 0x4D, 0x3E, 0x03, 0x01, 0x00, 0x01, 0x2E, 0x2D])))
        (fun s => (s.fr, s.cur, s.rxpos, s.code)) =
      some (⟨true, .v1, 0x3E, 1, 3, [0x00, 0x01, 0x2E], 0x2D⟩, 0, 9, 0x00) := by decide
/-- S2 as corrected (C1): the expected checksum is 0x31. -/
theorem test_dec_v1_mismatch :
    after (exec .dec (attachedWith (rxBytes [0x24, 0x4D, 0x3E, 0x02, 0x03, 0x10, 0x20, 0xFF])))
        (fun s => (s.err, s.fr.valid, s.rxpos, s.code)) =
      some (⟨3, [0x10, 0x20], 0xFF, 0x31, 0, .none⟩, false, 8, 0x10) := by decide
/-- V-DEC-2 -/
theorem test_dec_out_of_band :
    after (exec .dec (attachedWith (rxBytes [0x4D, 0x24]))) (fun s => (s.err.byte, s.err.field, s.rxpos, s.code)) =
      some (0x4D, .marker, 1, 0x11) := by decide
/-- V-DEC-12: a wrong CRC is accepted. -/
theorem test_frameV2_wrong_crc :
    after (exec .dec (attachedWith (rxBytes [0x24, 0x58, 0x3E, 0x00, 0x10, 0x27, 0x04, 0x00, 0x01, 0x00, 0x02, 0x00, 0x00])))
        (fun s => (s.fr.cmd, s.fr.len, s.fr.pay, s.rxpos, s.code)) =
      some (0x2710, 4, [0x01, 0x00, 0x02, 0x00], 13, 0x00) := by decide
/-- V-DEC-13: the same under enforcement. -/
theorem test_frameV2_enforced :
    (fun s => (s.err, s.code))
        (decFrame { Config.hardware with v2CrcEnforce := true }
          (attachedWith (rxBytes [0x24, 0x58, 0x3E, 0x00, 0x10, 0x27, 0x04, 0x00, 0x01, 0x00, 0x02, 0x00, 0x00]))) =
      (⟨0x2710, [0x01, 0x00, 0x02, 0x00], 0x00, 0x69, 0, .none⟩, 0x10) := by decide +kernel
/-- The rest of V-DEC-9's frame, after a path that waited. -/
theorem test_frameV1_resumes :
    after (step { attachedWith (rxBytes [0x00, 0x64, 0x64]) with pending := some (.decV1 [0x3E]), rxpos := 3 })
        (fun s => (s.fr, s.pending, s.rxpos)) = some (⟨true, .v1, 0x3E, 0x64, 0, [], 0x64⟩, none, 6) := by decide
/-- V-SES-6: DET ends the blocked read with EndOfStream. -/
theorem test_det_overtakes :
    after (step { attachedWith [] with pending := some .decFirst, issued := some (.op ⟨0x5100, []⟩) })
        (fun s => (s.code, s.pending, s.issued)) = some (0x13, none, some (.op ⟨0x5100, []⟩)) := by decide

/-! ## Marshaler -/

/-- V-MAR-1 -/
theorem test_marU8 : after (exec (.marU8 .u8 (.v8 0xAB)) State.reset) (·.resp) = some (some (.ok (.bytes [0xAB]))) := by decide
/-- V-MAR-3 -/
theorem test_marU16 :
    after (exec (.marU16 .u16 (.v16 0x1234)) State.reset) (·.resp) = some (some (.ok (.bytes [0x34, 0x12]))) := by decide
/-- V-MAR-5 -/
theorem test_marU32 :
    after (exec (.marU32 .u32 (.v32 0x12345678)) State.reset) (·.resp) =
      some (some (.ok (.bytes [0x78, 0x56, 0x34, 0x12]))) := by decide
/-- V-MAR-7 -/
theorem test_marAgg :
    after (exec (.marAgg mixedShape mixedValue) State.reset) (·.resp) =
      some (some (.ok (.bytes [0x01, 0x03, 0x02, 0x07, 0x06, 0x05, 0x04]))) := by decide
/-- V-MAR-15 -/
theorem test_marAgg_count :
    after (exec (.marAgg (.agg (.ofList [.u8, .u16])) (.agg (.ofList [.v8 1]))) State.reset) (fun s => (s.code, s.faulted)) =
      some (0x42, true) := by decide
/-- V-MAR-10 -/
theorem test_marSeq :
    after (exec (.marSeq quadShape quadValue) State.reset) (·.resp) =
      some (some (.ok (.bytes [0x01, 0x00, 0x02, 0x00, 0x03, 0x00, 0xFF, 0xFF]))) := by decide
/-- V-MAR-16 -/
theorem test_marSeq_count :
    after (exec (.marSeq (.seq 2 .u8) (.seq (.ofList [.v8 1, .v8 2, .v8 3]))) State.reset) (·.code) = some 0x42 := by decide
/-- V-UNM-1 -/
theorem test_unmU8 :
    after (exec (.unmU8 .u8) (holding [0x2A] 0)) (fun s => (s.resp, s.cur)) = some (some (.ok (.value (.v8 0x2A))), 1) := by
  decide
/-- V-FLT-4 -/
theorem test_unmU8_no_frame : after (exec (.unmU8 .u8) State.reset) (fun s => (s.code, s.faulted)) = some (0x45, true) := by
  decide
/-- V-UNM-14 -/
theorem test_unmU16 :
    after (exec (.unmU16 .u16) (holding [0x01, 0x02, 0x03] 1)) (fun s => (s.resp, s.cur)) =
      some (some (.ok (.value (.v16 0x0302))), 3) := by decide
/-- V-UNM-5 -/
theorem test_unmU16_short :
    after (exec (.unmU16 .u16) (holding [0x34, 0x12, 0x56] 2)) (fun s => (s.resp, s.code)) =
      some (some (.error 0x30), 0x30) := by decide
/-- V-UNM-6 -/
theorem test_unmU32 :
    after (exec (.unmU32 .u32) (holding [0x78, 0x56, 0x34, 0x12] 0)) (fun s => (s.resp, s.cur)) =
      some (some (.ok (.value (.v32 0x12345678))), 4) := by decide
/-- V-UNM-8 -/
theorem test_unmAgg :
    after (exec (.unmAgg mixedShape) (holding [0x01, 0x03, 0x02, 0x07, 0x06, 0x05, 0x04] 0)) (fun s => (s.resp, s.cur)) =
      some (some (.ok (.value mixedValue)), 7) := by decide
/-- V-UNM-11 -/
theorem test_unmSeq :
    after (exec (.unmSeq quadShape) (holding [0x01, 0x00, 0x02, 0x00, 0x03, 0x00, 0xFF, 0xFF] 0)) (fun s => (s.resp, s.cur)) =
      some (some (.ok (.value quadValue)), 8) := by decide
/-- V-UNM-12 -/
theorem test_unmSeq_empty :
    after (exec (.unmSeq (.seq 0 .u16)) (holding [] 0)) (fun s => (s.resp, s.cur)) = some (some (.ok (.value (.seq .nil))), 0) := by
  decide

/-! ## Transport -/

/-- V-SEND-2 -/
theorem test_send :
    after (exec (.send 2 mixedShape (.agg (.ofList [.v8 0xAB, .v16 0x1234, .v32 0x12345678])))
        { attachedWith [] with tx := [.ok] }) (fun s => (s.txlog, s.code)) =
      some ([0x24, 0x4D, 0x3C, 0x07, 0x02, 0xAB, 0x34, 0x12, 0x78, 0x56, 0x34, 0x12, 0x80], 0x00) := by decide
/-- V-SEND-8, with a two-byte prefix. -/
theorem test_send_io_failure :
    after (exec (.send 1 (.agg .nil) (.agg .nil)) { attachedWith [] with tx := [.ioFailure 2] }) (fun s => (s.txlog, s.code)) =
      some ([0x24, 0x4D], 0x21) := by decide
/-- V-SES-1 -/
theorem test_att_opened :
    after (exec (.att [0x61] 115200) { State.reset with opens := [.opened] }) (fun s => (s.attached, s.port)) =
      some (true, some ⟨[0x61], 115200⟩) := by decide
/-- V-SES-2 -/
theorem test_att_failed :
    after (exec (.att [0x61] 115200) { State.reset with opens := [.failed] }) (fun s => (s.attached, s.code)) =
      some (false, 0x20) := by decide
/-- V-SES-4 -/
theorem test_det : after (exec .det (attachedWith [])) (fun s => (s.attached, s.port, s.code)) = some (false, none, 0x00) := by
  decide
/-- V-SES-5 -/
theorem test_det_detached : after (exec .det State.reset) (fun s => (s.code, s.faulted)) = some (0x40, true) := by decide

/-! ## The step -/

/-- V-OP-4 -/
theorem test_step_illegal :
    after (step { State.reset with hostq := [.op ⟨0x6000, []⟩] }) (fun s => (s.code, s.faulted, s.hostq)) =
      some (0x47, true, []) := by decide
/-- V-FLT-3 -/
theorem test_step_reset :
    after (step { attachedWith [] with faulted := true, code := 0x47, rxpos := 5, hostq := [.reset] })
        (fun s => (s.faulted, s.code, s.attached, s.fr.valid, s.rxpos)) = some (false, 0x00, false, false, 0) := by decide

/-! ## Assembler (R85, R86) -/

/-- R85's example: `MAR {u8,u16}, {1, 2}` is `OP = 0x3010`. -/
theorem test_asm_mar :
    encode (asmMar (.agg (.ofList [.u8, .u16])) (.agg (.ofList [.v8 1, .v16 2]))) =
      .command ⟨0x3010, [.shape (.agg (.ofList [.u8, .u16])), .value (.agg (.ofList [.v8 1, .v16 2]))]⟩ := by decide
/-- R85: `[0x10, 0x20]` -/
theorem test_asm_bytes : bytesText [0x10, 0x20] = ['[', '0', 'x', '1', '0', ',', ' ', '0', 'x', '2', '0', ']'] := by decide
/-- R85: `[4]u16` -/
theorem test_asm_shape : shapeText quadShape = ['[', '4', ']', 'u', '1', '6'] := by decide

/-! ## Witnesses: for each statement with hypotheses, a state and operands that meet all of them -/

/-- An operation that answers a next state with this property. -/
def Answers (o : Host.Outcome State Fault Refusal) (p : State → Bool) : Prop := ∃ t, o = .next t ∧ p t = true

/-- Reset state, and this is what the host means to issue. -/
def planned (q : List HostInput) : State := { State.reset with hostq := q }

/-- Reset state with this issued. -/
def issuedTo (x : HostInput) : State := { State.reset with issued := some x }

theorem witness_DecodeEncodeAgree : (Instr.marSeq quadShape quadValue).wf = true := by decide

theorem witness_EncodeDecodeAgree : decode (.command ⟨0x3110, [.shape mixedShape]⟩) = .instr (.unmAgg mixedShape) := by decide

/-- One word for each case of R83. -/
theorem witness_IllegalCommandsFault_opcode : Illegal ⟨0xFF00, []⟩ := Or.inl (by decide)
theorem witness_IllegalCommandsFault_sub : Illegal ⟨0x51FF, []⟩ := Or.inr (Or.inl (by decide))
theorem witness_IllegalCommandsFault_tag : Illegal ⟨0x3100, [.shape .u8]⟩ := Or.inr (Or.inr (Or.inl (by decide)))
theorem witness_IllegalCommandsFault_mar : Illegal ⟨0x3020, [.shape (.agg .nil), .value (.agg .nil)]⟩ :=
  Or.inr (Or.inr (Or.inr (Or.inl ⟨.agg .nil, .agg .nil, by decide⟩)))
theorem witness_IllegalCommandsFault_unm : Illegal ⟨0x3101, [.shape .u16]⟩ :=
  Or.inr (Or.inr (Or.inr (Or.inr (Or.inl ⟨.u16, by decide⟩))))
theorem witness_IllegalCommandsFault_missing : Illegal ⟨0x5000, [.port [0x61]]⟩ :=
  Or.inr (Or.inr (Or.inr (Or.inr (Or.inr ⟨[.port, .nat], by decide, 1, by decide, by decide, by decide⟩))))
/-- A shape outside the grammar where the row wants bytes. -/
theorem witness_IllegalCommandsFault_foreign : Illegal ⟨0x0100, [.foreignShape]⟩ :=
  Or.inr (Or.inr (Or.inr (Or.inr (Or.inr ⟨[.bytes], by decide, 0, by decide, by decide, by decide⟩))))
theorem test_illegal_foreign : decodeCommand ⟨0x0100, [.foreignShape]⟩ = .reject .badOperands := by decide
/-- Where the row wants a shape it is no case of R83. -/
theorem test_foreign_shape_place : ¬ Illegal ⟨0x4000, [.u16 1, .foreignShape, .value (.v8 0)]⟩ := by
  rintro (h | h | h | ⟨_, _, h, _⟩ | ⟨_, h, _⟩ | ⟨ks, hk, i, hi, hn, hs⟩)
  · exact absurd h (by decide)
  · exact absurd h (by decide)
  · exact absurd h (by decide)
  · exact absurd h (by decide)
  · exact absurd h (by decide)
  · obtain rfl : [.u16, .shape, .value] = ks := by simpa [opcOf, rowKinds] using hk
    match i, hi with
    | 0, _ => exact hn rfl
    | 1, _ => exact hs ⟨rfl, rfl⟩
    | 2, _ => exact hn rfl

/-- Issued, and meant to be issued next. -/
theorem witness_Takes (x : HostInput) (q : List HostInput) :
    Takes x (issuedTo x) State.reset ∧ Takes x (planned (x :: q)) (planned q) ∧ (issuedTo x).faulted = false :=
  ⟨⟨rfl, Or.inl ⟨rfl, rfl⟩⟩, ⟨rfl, Or.inr ⟨rfl, q, rfl, rfl⟩⟩, rfl⟩

/-- A word for MAR, for UNM and for SEND. -/
theorem witness_UnsupportedShapesFault :
    opcOf 0x3020 = 0x30#8 ∧ subOf 0x3020 ∈ [0x01#8, 0x02#8, 0x04#8, 0x10#8, 0x20#8] ∧
      opcOf 0x3101 = 0x31#8 ∧ subOf 0x3101 ∈ [0x01#8, 0x02#8, 0x04#8, 0x10#8, 0x20#8] := by decide
theorem witness_UnsupportedShapesFault_send (v : Value) :
    let c : Command := ⟨0x4000#16, [.u16 1, .foreignShape, .value v]⟩
    Takes (.op c) (issuedTo (.op c)) State.reset ∧ c.op = 0x4000#16 ∧ c.args = [.u16 1, .foreignShape, .value v] :=
  ⟨⟨rfl, Or.inl ⟨rfl, rfl⟩⟩, rfl, rfl⟩

theorem witness_TagMismatchFaults : State.reset.faulted = false ∧ Shape.tag .u16 ≠ .u8 := by decide

theorem witness_StepRunsDeliveredCommand :
    let s := planned [.op ⟨0x2000, []⟩]
    s.pending = none ∧ s.issued = none ∧ s.hostq = .op ⟨0x2000, []⟩ :: [] ∧ decodeCommand ⟨0x2000, []⟩ = .instr .dec ∧
      (issuedTo (.op ⟨0x2000, []⟩)).pending = none ∧
      (issuedTo (.op ⟨0x2000, []⟩)).issued = some (.op ⟨0x2000, []⟩) := by decide

/-- No reset lands on a state whose next work is another. -/
theorem noReset_of_run {s : State} {i : Instr} {u : State} (h : nextWork s = .run i u) : NoReset s := by
  intro v hv
  rw [h] at hv
  cases hv

/-- No duty is broken where nothing that is an operation is issued. -/
theorem not_dutyBroken {s : State} (h : ∀ c, s.issued ≠ some (.op c)) : ¬ DutyBroken s := by
  rintro ⟨_, c, _, hc, _⟩
  exact h c hc

theorem witness_StepRunsFramePath_v1 :
    let s := { attachedWith [] with pending := some (.decV1 [0x3E]) }
    NoReset s ∧ ¬ DutyBroken s ∧ s.pending = some (.decV1 [0x3E]) :=
  ⟨noReset_of_run (i := .frameV1) rfl, not_dutyBroken nofun, rfl⟩
/-- A reset that comes after an answer does not land either. -/
theorem witness_StepRunsFramePath_v2 :
    let s := { attachedWith [.ioFailure] with pending := some (.decV2 []), issued := some .reset }
    NoReset s ∧ ¬ DutyBroken s ∧ s.pending = some (.decV2 []) :=
  ⟨noReset_of_run (i := .frameV2) rfl, not_dutyBroken nofun, rfl⟩

/-- R221: an operation issued while a DEC waits, and a DET issued while a SEND waits; a DET while a DEC waits breaks nothing. -/
theorem witness_BrokenDutyHasNoMeaning :
    let w := { attachedWith [] with pending := some .decFirst }
    DutyBroken { w with issued := some (.op ⟨0x2000, []⟩) } ∧
      DutyBroken { w with pending := some (.send [0x24]), issued := some detCommand } ∧
      hostIssues detCommand w = some { w with issued := some detCommand } ∧ hostIssues (.op ⟨0x2000, []⟩) w = none ∧
      hostIssues .reset { w with pending := some (.send [0x24]) } =
        some { w with pending := some (.send [0x24]), issued := some .reset } :=
  ⟨⟨_, _, rfl, rfl, Or.inl (by decide)⟩, ⟨_, _, rfl, rfl, Or.inr ⟨_, rfl⟩⟩, by decide, by decide, by decide⟩
theorem witness_BrokenDutyHasNoMeaning_det :
    ¬ DutyBroken { attachedWith [] with pending := some .decSecond, issued := some detCommand } := by
  rintro ⟨p, c, hp, hc, h | ⟨f, rfl⟩⟩
  · obtain rfl : (⟨0x5100#16, []⟩ : Command) = c := by simpa using hc
    exact h (by decide)
  · simp at hp

theorem witness_StepIdlesWithoutInput : State.reset.pending = none ∧ State.reset.issued = none ∧ State.reset.hostq = [] := by decide

theorem witness_ResetStepResets_idle : Takes .reset (planned [.reset]) State.reset ∧ Takes .reset (issuedTo .reset) State.reset :=
  ⟨(witness_Takes .reset []).2.1, (witness_Takes .reset []).1⟩
theorem witness_ResetStepResets_waiting :
    let s := { attachedWith [] with pending := some (.send [0x24]), issued := some .reset }
    s.issued = some .reset ∧ ∃ p, s.pending = some p ∧ answerArrived p s = false := ⟨rfl, _, rfl, by decide⟩

/-- A machine with a programming fault, and an operation meant to be issued. -/
def faultedMachine : State := { planned [.op ⟨0x5100, []⟩] with faulted := true, code := 0x47 }

theorem witness_FaultedMachineRefuses :
    faultedMachine.faulted = true ∧ Takes (.op ⟨0x5100, []⟩) faultedMachine { faultedMachine with hostq := [] } :=
  ⟨rfl, rfl, Or.inr ⟨rfl, [], rfl, rfl⟩⟩

theorem witness_FaultStaysUntilReset :
    faultedMachine.faulted = true ∧ faultedMachine.issued ≠ some .reset ∧ (∀ x ∈ faultedMachine.hostq, x ≠ .reset) ∧
      Answers (Host.Core.run core 2 faultedMachine) (fun t => t.resp == some .refused) :=
  ⟨rfl, by decide, by decide, _, rfl, by decide⟩

/-- One operation for each kind of outcome. -/
theorem witness_OutcomesWriteStatus :
    State.reset.faulted = false ∧ Answers (exec (.chkx [1]) State.reset) (fun t => t.resp == some (.ok (.byte 1))) ∧
      Answers (exec .dec (attachedWith [.byte 0x4D])) (fun t => t.resp == some (.error 0x11)) ∧
      Answers (exec .det State.reset) (fun t => t.resp == some (.fault 0x40)) ∧
      Answers (exec .dec (attachedWith [])) (fun t => t.resp == none) :=
  ⟨rfl, ⟨_, rfl, by decide⟩, ⟨_, rfl, by decide⟩, ⟨_, rfl, by decide⟩, ⟨_, rfl, by decide⟩⟩

theorem witness_checksums : State.reset.faulted = false ∧ List.Perm [1#8, 2#8] [2#8, 1#8] ∧ (0x00#8 ≠ 0xFF#8) := by decide

/-- Both sides of V1's and V2's length limits. -/
theorem witness_Enc1ReturnsFrame :
    State.reset.faulted = false ∧ (List.replicate 255 0x00#8).length ≤ 255 ∧ (List.replicate 256 0x00#8).length > 255 := by
  rw [List.length_replicate, List.length_replicate]
  exact ⟨rfl, Nat.le_refl _, Nat.lt_succ_self _⟩
theorem witness_Enc2ReturnsFrame :
    State.reset.faulted = false ∧ (List.replicate 65535 0x00#8).length ≤ 65535 ∧
      (List.replicate 65536 0x00#8).length > 65535 := by
  rw [List.length_replicate, List.length_replicate]
  exact ⟨rfl, Nat.le_refl _, Nat.lt_succ_self _⟩

theorem witness_DecFirstReadDecides :
    (attachedWith []).faulted = false ∧ (attachedWith []).attached = true ∧ (0x25#8 ≠ 0x24#8) ∧
      (attachedWith [.byte 0x25]).rx = .byte 0x25#8 :: [] ∧ (attachedWith [.endOfStream]).rx = .endOfStream :: [] ∧
      (attachedWith [.ioFailure]).rx = .ioFailure :: [] := by decide

theorem witness_DecSecondByteSelects (b1 : Byte) :
    let s := attachedWith [.byte 0x24, .byte b1]
    s.faulted = false ∧ s.attached = true ∧ s.rx = .byte 0x24#8 :: .byte b1 :: [] := ⟨rfl, rfl, rfl⟩
theorem witness_DecSecondByteSelects_other : (0x4E#8 ≠ 0x4D#8) ∧ (0x4E#8 ≠ 0x58#8) := by decide

/-- An empty payload, a part of the header held: right and wrong checksum. -/
theorem witness_FrameV1EndsByChecksum (obs : Byte) :
    let s := { attachedWith (bytesRx [0x00, 0x64, obs]) with pending := some (.decV1 [0x3E]) }
    s.faulted = false ∧ s.fr.valid = false ∧ s.pending = some (.decV1 [0x3E]) ∧ s.rx = bytesRx [0x00, 0x64, obs] ++ [] ∧
      [0x3E#8] ++ [0x00, 0x64, obs] = 0x3E#8 :: 0x00#8 :: 0x64#8 :: [] ++ [obs] ∧ ([] : Bytes).length = (0x00#8).toNat ∧
      (0x3E#8 = 0x3C#8 ∨ 0x3E#8 = 0x3E#8) := ⟨rfl, rfl, rfl, rfl, rfl, rfl, by decide⟩

theorem witness_FrameV2LatchesAnyTrailer :
    let s := { attachedWith (bytesRx [0x01, 0x00, 0x07, 0xFF]) with pending := some (.decV2 [0x3C, 0x00, 0x10, 0x27]) }
    s.faulted = false ∧ s.pending = some (.decV2 [0x3C, 0x00, 0x10, 0x27]) ∧ s.rx = bytesRx [0x01, 0x00, 0x07, 0xFF] ++ [] ∧
      [0x3C, 0x00, 0x10, 0x27] ++ [0x01, 0x00, 0x07, 0xFF] =
        0x3C#8 :: 0x00#8 :: 0x10#8 :: 0x27#8 :: 0x01#8 :: 0x00#8 :: [0x07#8] ++ [0xFF#8] ∧
      [0x07#8].length = (0x01#8).toNat + 256 * (0x00#8).toNat ∧ (0x3C#8 = 0x3C#8 ∨ 0x3C#8 = 0x3E#8) := by decide

/-- V-DEC-12's frame on the wire. -/
def v2Wire : Bytes := [0x24, 0x58, 0x3E, 0x00, 0x10, 0x27, 0x04, 0x00] ++ [0x01, 0x00, 0x02, 0x00] ++ [0x00]

theorem witness_DecV2ConsumesWholeFrame :
    (attachedWith (bytesRx v2Wire)).faulted = false ∧ (attachedWith (bytesRx v2Wire)).attached = true ∧
      (attachedWith (bytesRx v2Wire)).rx =
        bytesRx ([0x24#8, 0x58#8, 0x3E, 0x00, 0x10, 0x27, 0x04, 0x00] ++ [0x01, 0x00, 0x02, 0x00] ++ [0x00]) ++ [] ∧
      [0x01#8, 0x00, 0x02, 0x00].length = (0x04#8).toNat + 256 * (0x00#8).toNat := by decide

theorem witness_EnforcedV2ChecksCrc : ({ Config.hardware with v2CrcEnforce := true } : Cfg).v2CrcEnforce = true := rfl

theorem witness_DecRejectsBadDirection :
    (0x3D#8 ≠ 0x3C#8) ∧ (0x3D#8 ≠ 0x3E#8) ∧
      (attachedWith (bytesRx [0x24, 0x4D, 0x3D, 0xFF, 0x00])).rx = bytesRx [0x24#8, 0x4D#8, 0x3D, 0xFF, 0x00] ++ [] ∧
      (attachedWith (bytesRx [0x24, 0x58, 0x3D, 0, 0, 0, 0, 0])).rx =
        bytesRx [0x24#8, 0x58#8, 0x3D, 0, 0, 0, 0, 0] ++ [] := by decide

/-- Nothing after `'$'`; and one byte short of a whole frame, for both formats. -/
theorem witness_ShortFrameIsTransportError :
    shortCode .endOfStream = some 0x22#8 ∧ shortCode .ioFailure = some 0x21#8 ∧
      (attachedWith (bytesRx [0x24] ++ [.endOfStream])).rx = bytesRx (0x24#8 :: []) ++ .endOfStream :: [] ∧
      ShortV1 [0x3C, 0x02, 0x01, 0x10, 0x20] ∧ ShortV2 [0x3E, 0, 0, 0, 0x01, 0x00, 0x10] :=
  ⟨rfl, rfl, rfl, Or.inr ⟨_, _, _, _, rfl, Or.inl rfl, by decide⟩,
    Or.inr ⟨_, _, _, _, _, _, _, rfl, Or.inr rfl, by decide⟩⟩

theorem witness_Enc1DecRoundTrip :
    let f : Bytes := [0x24, 0x4D, 0x3C, 0x00, 0xFF, 0xFF]
    (0x00FF#16).toNat ≤ 0x00FF ∧ ([] : Bytes).length ≤ 255 ∧ enc1 Config.hardware 0x00FF [] = .frame f ∧
      (attachedWith (bytesRx f)).faulted = false ∧ (attachedWith (bytesRx f)).attached = true ∧
      (attachedWith (bytesRx f)).rx = bytesRx f ++ [] := by decide

/-- V-E2-3's frame. -/
theorem witness_Enc2DecRoundTrip :
    let f : Bytes := [0x24, 0x58, 0x3C, 0x00, 0x34, 0x12, 0x03, 0x00, 0x01, 0x02, 0x03, 0x97]
    ({ Config.hardware with v2EncPayload := .verbatim } : Cfg).v2EncPayload = .verbatim ∧ [1#8, 2, 3].length ≤ 65535 ∧
      enc2 { Config.hardware with v2EncPayload := .verbatim } 0x1234 [1, 2, 3] = .frame f ∧
      (attachedWith (bytesRx f)).rx = bytesRx f ++ [] := by decide +kernel

/-- DEC waits before its first byte, before its second, and inside each path. -/
theorem witness_waitingDec :
    (attachedWith []).issued = none ∧ Answers (exec .dec (attachedWith [])) (fun t => t.pending == some .decFirst) ∧
      Answers (exec .dec (attachedWith [.byte 0x24])) (fun t => t.pending == some .decSecond) ∧
      Answers (exec .dec (attachedWith (rxBytes [0x24, 0x4D, 0x3C, 0x01]))) (fun t => t.pending == some (.decV1 [0x3C, 0x01])) ∧
      Answers (exec .dec (attachedWith (rxBytes [0x24, 0x58]))) (fun t => t.pending == some (.decV2 [])) :=
  ⟨rfl, ⟨_, rfl, by decide⟩, ⟨_, rfl, by decide⟩, ⟨_, rfl, by decide⟩, ⟨_, rfl, by decide⟩⟩

/-- A SEND of 255 payload bytes or fewer, with no answer. -/
theorem witness_UnansweredSendWaits :
    (attachedWith []).faulted = false ∧ (attachedWith []).issued = none ∧
      Answers (exec (.send 0x0100 (.agg .nil) (.agg .nil)) (attachedWith [])) (fun t => t.resp == none) :=
  ⟨rfl, rfl, _, rfl, by decide⟩

theorem witness_RepeatedDecSkipsStrayBytes :
    let s := { attachedWith (bytesRx [0x4D, 0x00] ++ [.byte 0x24]) with
      hostq := List.replicate 2 (.op ⟨0x2000#16, []⟩) ++ [.reset] }
    s.pending = none ∧ s.faulted = false ∧ s.attached = true ∧ s.issued = none ∧ (∀ b ∈ ([0x4D, 0x00] : Bytes), b ≠ 0x24#8) ∧
      s.rx = bytesRx [0x4D, 0x00] ++ [.byte 0x24] ∧ Answers (Host.Core.run core 2 s) (fun t => t.rxpos == 2) :=
  ⟨rfl, rfl, rfl, rfl, by decide, rfl, _, rfl, by decide⟩

/-- Values of another type than the shape says, and lists that do and do not fit. -/
theorem witness_MarPacks :
    State.reset.faulted = false ∧ (∀ x, Value.v16 0 ≠ .v8 x) ∧ (∀ x, Value.v8 0 ≠ .v16 x) ∧ (∀ x, Value.v8 0 ≠ .v32 x) ∧
      (∀ vs, Value.v8 0 ≠ .agg vs) ∧ (∀ vs, Value.v8 0 ≠ .seq vs) := by
  simp [State.reset]
theorem witness_MarPacksAggregates :
    List.Forall₂ (fun sh v => conforms sh v = true) [.u8, .u16] [.v8 1, .v16 2] ∧
      ¬ List.Forall₂ (fun sh v => conforms sh v = true) [.u8, .u16] [.v8 1] := by
  simp [conforms]
theorem witness_MarPacksSequences :
    ([.v8 1, .v8 2] : List Value).length = 2 ∧ (∀ v ∈ ([.v8 1, .v8 2] : List Value), conforms .u8 v = true) ∧
      ¬ (([.v8 1, .v8 2] : List Value).length = 1 ∧ ∀ v ∈ ([.v8 1, .v8 2] : List Value), conforms .u8 v = true) := by decide
theorem witness_LayoutHasShapeSize : conforms mixedShape mixedValue = true ∧ conforms (.seq 0 .u8) (.seq .nil) = true := by decide

/-- No frame; one byte too few; exactly enough. -/
theorem witness_unm :
    State.reset.faulted = false ∧ State.reset.fr.valid = false ∧
      (holding [1, 2, 3] 0).fr.valid = true ∧ (holding [1, 2, 3] 0).cur.toNat ≤ (holding [1, 2, 3] 0).fr.len.toNat ∧
      (holding [1, 2, 3] 0).cur.toNat + 4 > (holding [1, 2, 3] 0).fr.len.toNat ∧
      (holding [1, 2, 3] 1).cur.toNat + 2 ≤ (holding [1, 2, 3] 1).fr.len.toNat ∧
      (holding [1, 2, 3] 1).fr.len.toNat = (holding [1, 2, 3] 1).fr.pay.length ∧
      (holding [1, 2, 3] 3).cur.toNat + 1 > (holding [1, 2, 3] 3).fr.len.toNat := by decide

theorem witness_MarUnmRoundTrip :
    let s := holding (layout mixedShape mixedValue ++ [0xEE]) 0
    conforms mixedShape mixedValue = true ∧ s.faulted = false ∧ s.fr.valid = true ∧
      s.fr.pay = layout mixedShape mixedValue ++ [0xEE] ∧ s.fr.len.toNat = s.fr.pay.length ∧ s.cur = 0 := by decide

theorem witness_SuccessiveUnmsCompose :
    let s := holding [1, 2, 0] 0
    s.faulted = false ∧ ∃ t u, exec (unmInstr .u8 .u8) s = .next t ∧ t.resp = some (.ok (.value (.v8 1))) ∧
      exec (unmInstr .u16 .u16) t = .next u ∧ u.resp = some (.ok (.value (.v16 2))) :=
  ⟨rfl, _, _, rfl, by decide, rfl, by decide⟩

/-- Each case of SEND: a value that fits the shape or not, a frame that fits V1 at 255 bytes and not at 256, each answer. -/
theorem witness_SendWritesOneFrame :
    State.reset.attached = false ∧ (attachedWith []).attached = true ∧ conforms .u8 (.v16 0) = false ∧
      conforms .u8 (.v8 0) = true ∧ (layout .u8 (.v8 0)).length ≤ 255 ∧ (attachedWith []).tx = [] := by decide
theorem witness_SendWritesOneFrame_long (n : Nat) :
    (layout (.seq n .u8) (.seq (Values.ofList (List.replicate n (.v8 0))))).length = n := by
  induction n with
  | zero => rfl
  | succ n ih =>
    simp only [layout, List.replicate_succ, Values.ofList, layEach, List.length_append, List.length_singleton] at ih ⊢
    omega

theorem witness_SendIsMarEncWrite :
    let s := { attachedWith [] with tx := [.ok] }
    s.faulted = false ∧ s.attached = true ∧ s.tx = .ok :: [] ∧
      ∃ t u, exec (marInstr .u8 .u8 (.v8 9)) s = .next t ∧ t.resp = some (.ok (.bytes [9])) ∧
        exec (.enc1 1 [9]) t = .next u ∧ u.resp = some (.ok (.bytes [0x24, 0x4D, 0x3C, 0x01, 0x01, 0x09, 0x09])) :=
  ⟨rfl, rfl, rfl, _, _, rfl, by decide, rfl, by decide⟩

theorem witness_WaitingSendResumesExactly :
    (attachedWith []).faulted = false ∧ (attachedWith []).pending = none ∧ (attachedWith []).issued = none ∧
      (attachedWith []).tx = [] ∧ Answers (exec (.send 1 .u8 (.v8 9)) (attachedWith [])) (fun t => t.pending.isSome) :=
  ⟨rfl, rfl, rfl, rfl, _, rfl, by decide⟩

theorem witness_AttOpensOrFails :
    (attachedWith []).attached = true ∧ State.reset.attached = false ∧ State.reset.faulted = false ∧ State.reset.opens = [] := by
  decide

theorem witness_DetDetaches : (attachedWith []).faulted = false ∧ (attachedWith []).attached = true ∧
    State.reset.faulted = false ∧ State.reset.attached = false := by decide

theorem witness_UseAfterCloseFaults :
    PureOp (.chkx []) ∧ MovesCursor (.unmU8 .u8) ∧ Answers (exec (.unmU8 .u8) (holding [7] 0)) (fun t => t.cur == 1) :=
  ⟨trivial, trivial, _, rfl, by decide⟩

/-- Instructions outside and inside each group. -/
theorem witness_OperationsKeepToTheirRegisters :
    ¬ ReadsRx .det ∧ ¬ WritesTx .det ∧ ¬ OpensOrCloses .dec ∧ ¬ MovesCursor .det ∧ PureOp (.enc2 0 []) ∧
      Answers (exec .det (attachedWith [])) (fun t => !t.attached) :=
  ⟨id, id, id, id, trivial, _, rfl, by decide⟩

/-- An attached machine meets the invariant, whatever is meant to be issued. -/
theorem inv_attachedWith (rx : List RxAnswer) (q : List HostInput) : { attachedWith rx with hostq := q }.Inv :=
  ⟨nofun, nofun, nofun, nofun, nofun, show (0x00#8 : Byte) ∈ knownCodes by decide,
    show false = true ↔ codeClass 0x00#8 = some .pf by decide, trivial, fun _ => rfl, rfl⟩

/-- So does a detached one. -/
theorem inv_detached (q : List HostInput) (o : List OpenAnswer) : { planned q with opens := o }.Inv :=
  ⟨nofun, nofun, nofun, nofun, nofun, show (0x00#8 : Byte) ∈ knownCodes by decide,
    show false = true ↔ codeClass 0x00#8 = some .pf by decide, trivial, nofun, rfl⟩

/-- A step that consumes a byte, with no reset. -/
theorem witness_stepWithoutReset :
    let s := { attachedWith [.byte 0x4D] with hostq := [.op ⟨0x2000, []⟩] }
    s.Inv ∧ NoReset s ∧ Answers (step s) (fun t => t.rxpos == 1) :=
  ⟨inv_attachedWith _ _, noReset_of_run (i := .dec) rfl, _, rfl, by decide⟩

/-- The session opens, and closes by DET and after a transport error. -/
theorem witness_SessionOpensAndClosesOnlyAs :
    let s := { planned [.op ⟨0x5000, [.port [0x61], .nat 9600]⟩] with opens := [.opened] }
    let d := { attachedWith [] with hostq := [.op ⟨0x5100, []⟩] }
    s.Inv ∧ NoReset s ∧ s.attached = false ∧ Answers (step s) (fun t => t.attached) ∧
      d.Inv ∧ NoReset d ∧ d.attached = true ∧ Answers (step d) (fun t => !t.attached) :=
  ⟨inv_detached _ _, noReset_of_run (i := .att [0x61] 9600) rfl, rfl, ⟨_, rfl, by decide⟩,
    inv_attachedWith _ _, noReset_of_run (i := .det) rfl, rfl, _, rfl, by decide⟩

/-- With a latched frame, the cursor at its end. -/
theorem witness_InputsKeepInv : (holding [1, 2] 2).Inv :=
  ⟨by decide, by decide, by decide, by decide, by decide, by decide, by decide, trivial, nofun, rfl⟩

end Sys2Proof.Tests
end

section
/-! How a DEC that waits for the transport goes on (20_memory.md R52, 42_frame_decode.md R132; log 6): reading in two parts is
reading once, said for each part of DEC, from the RX port up to the step. -/

namespace Sys2Proof.Proofs

open Sys2Proof Sys2Proof.Machine Sys2Proof.Laws

/-! ## Answers that arrive behind those that stand -/

/-- The state with more answers behind the RX answers it has. -/
def withMoreRx (more : List RxAnswer) (s : State) : State := { s with rx := s.rx ++ more }

@[simp] theorem withMoreRx_rx (more : List RxAnswer) (s : State) : (withMoreRx more s).rx = s.rx ++ more := rfl

@[simp] theorem withMoreRx_nil (s : State) : withMoreRx [] s = s := by simp [withMoreRx]

/-- Where no answer stands, those that arrive are all there is. -/
theorem withMoreRx_of_empty {s : State} (h : s.rx = []) (more : List RxAnswer) :
    withMoreRx more s = tookRx more 0 s := by
  simp [withMoreRx, tookRx, h]

/-! ## A run of reads in two parts -/

theorem rxReadN_add (bs : Bytes) (rest : List RxAnswer) (k : Nat) (s : State) (h : s.rx = bs.map .byte ++ rest) :
    rxReadN (bs.length + k) s =
      ⟨bs ++ (rxReadN k (tookRx rest bs.length s)).bytes, (rxReadN k (tookRx rest bs.length s)).stop,
        (rxReadN k (tookRx rest bs.length s)).state⟩ := by
  induction bs generalizing s with
  | nil =>
    obtain rfl : s.rx = rest := by simpa using h
    simp
  | cons b bs ih =>
    have hr := rxRead_byte (s := s) (b := b) (rest := bs.map .byte ++ rest) (by simpa using h)
    have hn : (b :: bs).length + k = (bs.length + k) + 1 := by simp only [List.length_cons]; omega
    rw [hn, rxReadN, hr]
    have hbs := ih (tookRx (bs.map .byte ++ rest) 1 s) rfl
    simp only [hbs, tookRx_tookRx, List.length_cons, List.cons_append, Nat.add_comm 1]

/-- A path may take a front part of its bytes first. -/
theorem readTo_took (hold : Bytes → Pending) {n : Nat} {got bs : Bytes} {rest : List RxAnswer} {s : State}
    (path : Bytes → State → State) (hn : bs.length ≤ n - got.length) (h : s.rx = bs.map .byte ++ rest) :
    readTo hold n got s path = readTo hold n (got ++ bs) (tookRx rest bs.length s) path := by
  have hk : n - got.length = bs.length + (n - (got ++ bs).length) := by rw [List.length_append]; omega
  simp only [readTo, hk, rxReadN_add bs rest _ s h, List.append_assoc]

/-- A path that has its bytes goes on without a read. -/
theorem readTo_whole (hold : Bytes → Pending) {n : Nat} {got : Bytes} (s : State) (path : Bytes → State → State)
    (hn : n ≤ got.length) : readTo hold n got s path = path got s := by
  simpa using readTo_bytes hold n got [] s.rx s path (Nat.sub_eq_zero_of_le hn) rfl

/-! ## The answer at the command interface is only written -/

/-- `run` does not look at the last operation's answer, and writes its own. -/
def IgnoresResp (run : State → State) : Prop := ∀ (r : Option Response) (s : State), run { s with resp := r } = run s

theorem rxRead_resp (r : Option Response) (s : State) :
    rxRead { s with resp := r } = ((rxRead s).1, { (rxRead s).2 with resp := r }) := by
  rcases rxRead_cases s with ⟨b, rest, hx, hr⟩ | ⟨rest, hx, hr⟩ | ⟨rest, hx, hr⟩ | ⟨hx, hd, hr⟩ | ⟨hx, hd, hr⟩ <;> rw [hr]
  · exact rxRead_byte (s := { s with resp := r }) hx
  · exact rxRead_eos (s := { s with resp := r }) hx
  · exact rxRead_io (s := { s with resp := r }) hx
  · exact rxRead_det (s := { s with resp := r }) hx hd
  · exact rxRead_none (s := { s with resp := r }) hx hd

theorem rxReadN_resp (r : Option Response) (n : Nat) (s : State) :
    rxReadN n { s with resp := r } =
      ⟨(rxReadN n s).bytes, (rxReadN n s).stop, { (rxReadN n s).state with resp := r }⟩ := by
  induction n generalizing s with
  | zero => rfl
  | succ n ih =>
    rw [rxReadN, rxReadN, rxRead_resp]
    match rxRead s with
    | (some (.byte b), s1) => simp only [ih]
    | (some .endOfStream, s1) => rfl
    | (some .ioFailure, s1) => rfl
    | (none, s1) => rfl

theorem readTo_ignoresResp (hold : Bytes → Pending) (n : Nat) (got : Bytes) {path : Bytes → State → State}
    (hpath : ∀ g, IgnoresResp (path g)) : IgnoresResp fun s => readTo hold n got s path := by
  intro r s
  simp only [readTo, rxReadN_resp]
  match (rxReadN (n - got.length) s).stop with
  | none => exact hpath _ r _
  | some .endOfStream => rfl
  | some .ioFailure => rfl
  | some .noAnswer => rfl

theorem checkV1_ignoresResp (len : Nat) (g : Bytes) : IgnoresResp (checkV1 len g) := by
  intro r s
  simp only [checkV1]
  split <;> rfl

theorem checkV2_ignoresResp (cfg : Cfg) (len : Nat) (g : Bytes) : IgnoresResp (checkV2 cfg len g) := by
  intro r s
  cases hc : cfg.v2CrcEnforce
  · rw [checkV2_unenforced hc, checkV2_unenforced hc]; rfl
  · rw [checkV2_enforced hc, checkV2_enforced hc]; split <;> rfl

/-! ## A framed path: the header, its direction, then the rest -/

/-- What a path does with its header in hand. -/
def afterHeader (hold : Bytes → Pending) (n : Nat) (len : Bytes → Nat) (check : Nat → Bytes → State → State)
    (got : Bytes) (s : State) : State :=
  if isDirection (byteAt got 0) then readTo hold (n + len got + 1) got s (check (len got))
  else raise (.malformedHeader .direction (byteAt got 0)) s

/-- The common form of `DecV1` and `DecV2`: a header of `n` bytes that tells the payload's length, the payload, the trailer. -/
def framePath (hold : Bytes → Pending) (n : Nat) (len : Bytes → Nat) (check : Nat → Bytes → State → State)
    (got : Bytes) (s : State) : State :=
  readTo hold n got s (afterHeader hold n len check)

/-- The payload's length in a V1 header (R123). -/
def lenV1 (got : Bytes) : Nat := (byteAt got 1).toNat

/-- The payload's length in a V2 header (R127). -/
def lenV2 (got : Bytes) : Nat := (ofLe16 (byteAt got 4) (byteAt got 5)).toNat

theorem decV1_eq : decV1 = framePath .decV1 3 lenV1 checkV1 := rfl

theorem decV2_eq (cfg : Cfg) : decV2 cfg = framePath .decV2 6 lenV2 (checkV2 cfg) := rfl

theorem lenV1_append {g : Bytes} (h : 3 ≤ g.length) (bs : Bytes) : lenV1 (g ++ bs) = lenV1 g := by
  rw [lenV1, lenV1, byteAt_append (by omega)]

theorem lenV2_append {g : Bytes} (h : 6 ≤ g.length) (bs : Bytes) : lenV2 (g ++ bs) = lenV2 g := by
  rw [lenV2, lenV2, byteAt_append (by omega), byteAt_append (by omega)]

theorem framePath_ignoresResp (hold : Bytes → Pending) (n : Nat) (len : Bytes → Nat) {check : Nat → Bytes → State → State}
    (hcheck : ∀ l g, IgnoresResp (check l g)) (got : Bytes) : IgnoresResp (framePath hold n len check got) := by
  refine readTo_ignoresResp hold n got fun g r s => ?_
  unfold afterHeader
  split
  · exact readTo_ignoresResp hold _ g (hcheck _) r s
  · rfl

theorem decV1_ignoresResp (got : Bytes) : IgnoresResp (decV1 got) := by
  rw [decV1_eq]
  exact framePath_ignoresResp _ _ _ checkV1_ignoresResp got

theorem decV2_ignoresResp (cfg : Cfg) (got : Bytes) : IgnoresResp (decV2 cfg got) := by
  rw [decV2_eq]
  exact framePath_ignoresResp _ _ _ (checkV2_ignoresResp cfg) got

theorem decSelect_ignoresResp (cfg : Cfg) (b : Byte) : IgnoresResp (decSelect cfg b) := by
  intro r s
  unfold decSelect
  split
  · exact decV1_ignoresResp [] r s
  · exact decV2_ignoresResp cfg [] r s
  · rfl

/-! ## One read of DEC's own, then what its byte calls for -/

/-- The common form of DEC's first two reads (R121, R122): `next` on the byte, `e` at the end of the stream. -/
def readByte (p : Pending) (e : Raise) (next : Byte → State → State) (s : State) : State :=
  match rxRead s with
  | (some (.byte b), s1) => next b s1
  | (some .endOfStream, s1) => raise e s1
  | (some .ioFailure, s1) => raise .ioFailure s1
  | (none, s1) => block p s1

/-- DEC with its first byte in hand (R121). -/
def afterFirst (cfg : Cfg) (b : Byte) (s : State) : State :=
  if b = chDollar then decSecond cfg s else raise (.outOfBand b) s

theorem decSecond_eq (cfg : Cfg) : decSecond cfg = readByte .decSecond .unexpectedEos (decSelect cfg) := rfl

theorem decFirst_eq (cfg : Cfg) : decFirst cfg = readByte .decFirst .endOfStream (afterFirst cfg) := rfl

theorem afterFirst_dollar {cfg : Cfg} {b : Byte} (h : b = chDollar) : afterFirst cfg b = decSecond cfg :=
  funext fun _ => if_pos h

theorem afterFirst_other {cfg : Cfg} {b : Byte} (h : b ≠ chDollar) : afterFirst cfg b = raise (.outOfBand b) :=
  funext fun _ => if_neg h

theorem readByte_ignoresResp (p : Pending) (e : Raise) {next : Byte → State → State} (hnext : ∀ b, IgnoresResp (next b)) :
    IgnoresResp (readByte p e next) := by
  intro r s
  rw [readByte, readByte, rxRead_resp]
  match rxRead s with
  | (some (.byte b), s1) => exact hnext b r s1
  | (some .endOfStream, s1) => rfl
  | (some .ioFailure, s1) => rfl
  | (none, s1) => rfl

theorem decSecond_ignoresResp (cfg : Cfg) : IgnoresResp (decSecond cfg) := by
  rw [decSecond_eq]
  exact readByte_ignoresResp _ _ (decSelect_ignoresResp cfg)

theorem decFirst_ignoresResp (cfg : Cfg) : IgnoresResp (decFirst cfg) := by
  rw [decFirst_eq]
  refine readByte_ignoresResp _ _ fun b => ?_
  by_cases hb : b = chDollar
  · rw [afterFirst_dollar hb]
    exact decSecond_ignoresResp cfg
  · rw [afterFirst_other hb]
    exact fun _ _ => rfl

/-! ## How the operation in progress goes on -/

/-- The part of its operation that a waiting one goes on with. -/
def resumed (cfg : Cfg) : Pending → State → State
  | .decFirst => decFirst cfg
  | .decSecond => decSecond cfg
  | .decV1 got => decV1 got
  | .decV2 got => decV2 cfg got
  | .send f => offer f

theorem resumed_ignoresResp (cfg : Cfg) (p : Pending) : IgnoresResp (resumed cfg p) := by
  cases p with
  | decFirst => exact decFirst_ignoresResp cfg
  | decSecond => exact decSecond_ignoresResp cfg
  | decV1 got => exact decV1_ignoresResp got
  | decV2 got => exact decV2_ignoresResp cfg got
  | send f => exact fun _ _ => rfl

/-- With nothing issued meanwhile, a step takes the waiting operation up again. -/
theorem step_resumes {s : State} {p : Pending} (hp : s.pending = some p) (hi : s.issued = none) (hf : s.faulted = false) :
    step s = .next (resumed Config.hardware p (unblock s)) := by
  have hw : nextWork s = resumeWork p s := by simp [nextWork, hp, hi]
  rw [step, hw]
  cases p with
  | decFirst => simp [resumeWork, resumeFirst, resumed, hf]
  | decSecond => simp [resumeWork, resumeSecond, resumed, hf]
  | decV1 got => simp [resumeWork, exec, execFrameV1, heldV1, hp, resumed, hf]
  | decV2 got => simp [resumeWork, exec, execFrameV2, heldV2, hp, resumed, hf]
  | send f => simp [resumeWork, resumeSend, resumed, hf]

/-- `run` from `u` does not wait; or it waits with all answers taken, and with more answers behind them it would have done what
the waiting operation does with those. -/
def WaitsToResume (cfg : Cfg) (run : State → State) (u : State) : Prop :=
  (run u).pending = none ∨
    ∃ p k, run u = block p (tookRx [] k u) ∧ ∀ more, run (withMoreRx more u) = resumed cfg p (tookRx more k u)

/-- Bytes taken before a wait count with those taken in it. -/
theorem WaitsToResume.after_bytes {cfg : Cfg} {run next : State → State} {u : State} {bs : Bytes} {rest : List RxAnswer}
    (hrun : ∀ more, run (withMoreRx more u) = next (withMoreRx more (tookRx rest bs.length u)))
    (h : WaitsToResume cfg next (tookRx rest bs.length u)) : WaitsToResume cfg run u := by
  have h0 : run u = next (tookRx rest bs.length u) := by simpa using hrun []
  rcases h with h | ⟨p, k, hwait, hmore⟩
  · exact Or.inl (by rw [h0, h])
  · exact Or.inr ⟨p, bs.length + k, by rw [h0, hwait, tookRx_tookRx],
      fun more => by rw [hrun, hmore, tookRx_tookRx]⟩

/-- A `readTo` waits to resume where its continuation does, and where each wait of its own holds what it reads on with. -/
theorem readTo_waitsToResume {cfg : Cfg} (hold : Bytes → Pending) {n : Nat} {got : Bytes} {u : State}
    {path : Bytes → State → State} (hp : u.pending = none) (hi : u.issued = none)
    (hhold : ∀ bs s, resumed cfg (hold (got ++ bs)) s = readTo hold n (got ++ bs) s path)
    (hpath : ∀ (bs : Bytes) v, n ≤ (got ++ bs).length → v.pending = none → v.issued = none →
      WaitsToResume cfg (path (got ++ bs)) v) :
    WaitsToResume cfg (fun s => readTo hold n got s path) u := by
  have hdet : detIssued u = false := by simp [detIssued, hi]
  obtain ⟨bs, rest, hx, h⟩ := readTo_cases hold n got u path
  rcases h with ⟨hlen, _⟩ | ⟨hlen, ⟨r, _, h⟩ | ⟨r, _, h⟩ | ⟨_, hd, _⟩ | ⟨rfl, _, h⟩⟩
  · refine .after_bytes (fun more => ?_) (hpath bs (tookRx rest bs.length u) (by rw [List.length_append]; omega) hp hi)
    exact readTo_bytes hold n got bs (rest ++ more) (withMoreRx more u) path hlen.symm (by simp [hx])
  · exact Or.inl (by simpa [h] using hp)
  · exact Or.inl (by simpa [h] using hp)
  · simp [hdet] at hd
  · refine Or.inr ⟨_, _, h, fun more => ?_⟩
    have hmore : (withMoreRx more u).rx = bs.map .byte ++ more := by simp [hx]
    exact (readTo_took hold path hlen.le hmore).trans (hhold _ _).symm

theorem framePath_waitsToResume {cfg : Cfg} (hold : Bytes → Pending) {n : Nat} {len : Bytes → Nat}
    {check : Nat → Bytes → State → State} {got : Bytes} {u : State} (hn : 0 < n)
    (hlen : ∀ {g : Bytes}, n ≤ g.length → ∀ bs, len (g ++ bs) = len g)
    (hcheck : ∀ l g v, (check l g v).pending = v.pending)
    (hhold : ∀ g, resumed cfg (hold g) = framePath hold n len check g)
    (hp : u.pending = none) (hi : u.issued = none) : WaitsToResume cfg (framePath hold n len check got) u := by
  refine readTo_waitsToResume hold hp hi (fun bs s => by rw [hhold, framePath]) fun bs v hg hvp hvi => ?_
  generalize got ++ bs = g at hg
  cases hd : isDirection (byteAt g 0) with
  | false => exact Or.inl (by simpa [afterHeader, hd] using hvp)
  | true =>
    have hafter : ∀ bs s, afterHeader hold n len check (g ++ bs) s =
        readTo hold (n + len g + 1) (g ++ bs) s (check (len g)) := fun bs s => by
      rw [afterHeader, byteAt_append (by omega), hlen hg, hd, if_pos rfl]
    have hbody : afterHeader hold n len check g = fun s => readTo hold (n + len g + 1) g s (check (len g)) := by
      funext s
      simpa using hafter [] s
    rw [hbody]
    refine readTo_waitsToResume hold hvp hvi (fun bs s => ?_) fun _ w _ hwp _ => Or.inl (by rw [hcheck, hwp])
    rw [hhold, framePath, readTo_whole hold s _ (by rw [List.length_append]; omega), hafter]

theorem checkV1_pending (len : Nat) (g : Bytes) (u : State) : (checkV1 len g u).pending = u.pending := by
  rcases checkV1_cases len g u with ⟨_, h⟩ | ⟨_, h⟩ <;> rw [h] <;> simp

theorem checkV2_pending (cfg : Cfg) (len : Nat) (g : Bytes) (u : State) : (checkV2 cfg len g u).pending = u.pending := by
  cases hc : cfg.v2CrcEnforce
  · rw [checkV2_unenforced hc]; simp
  · rw [checkV2_enforced hc]; split <;> simp

section
variable {u : State} (hp : u.pending = none) (hi : u.issued = none)
include hp hi

theorem decV1_waitsToResume (cfg : Cfg) (got : Bytes) : WaitsToResume cfg (decV1 got) u := by
  rw [decV1_eq]
  exact framePath_waitsToResume .decV1 (by omega) lenV1_append checkV1_pending (fun _ => rfl) hp hi

theorem decV2_waitsToResume (cfg : Cfg) (got : Bytes) : WaitsToResume cfg (decV2 cfg got) u := by
  rw [decV2_eq]
  exact framePath_waitsToResume .decV2 (by omega) lenV2_append (checkV2_pending cfg) (fun _ => rfl) hp hi

theorem decSelect_waitsToResume (cfg : Cfg) (b : Byte) : WaitsToResume cfg (decSelect cfg b) u := by
  unfold decSelect
  split
  · exact decV1_waitsToResume hp hi cfg []
  · exact decV2_waitsToResume hp hi cfg []
  · exact Or.inl (by simpa using hp)

theorem readByte_waitsToResume {cfg : Cfg} {p : Pending} {e : Raise} {next : Byte → State → State}
    (hresume : resumed cfg p = readByte p e next)
    (hnext : ∀ b {v : State}, v.pending = none → v.issued = none → WaitsToResume cfg (next b) v) :
    WaitsToResume cfg (readByte p e next) u := by
  have hdet : detIssued u = false := by simp [detIssued, hi]
  rcases rxRead_cases u with ⟨b, rest, hx, _⟩ | ⟨rest, _, hr⟩ | ⟨rest, _, hr⟩ | ⟨_, hd, _⟩ | ⟨hx, _, hr⟩
  · refine .after_bytes (bs := [b]) (rest := rest) (fun more => ?_) (hnext b hp hi)
    have hmore : (withMoreRx more u).rx = .byte b :: (rest ++ more) := by simp [hx]
    rw [readByte, rxRead_byte hmore]
    rfl
  · exact Or.inl (by simpa [readByte, hr] using hp)
  · exact Or.inl (by simpa [readByte, hr] using hp)
  · simp [hdet] at hd
  · refine Or.inr ⟨p, 0, ?_, fun more => by rw [hresume, withMoreRx_of_empty hx]⟩
    rw [readByte, hr, ← hx, tookRx_nothing]

theorem decSecond_waitsToResume (cfg : Cfg) : WaitsToResume cfg (decSecond cfg) u := by
  rw [decSecond_eq]
  exact readByte_waitsToResume hp hi rfl fun b _ hvp hvi => decSelect_waitsToResume hvp hvi cfg b

theorem decFirst_waitsToResume (cfg : Cfg) : WaitsToResume cfg (decFirst cfg) u := by
  rw [decFirst_eq]
  refine readByte_waitsToResume hp hi rfl fun b v hvp hvi => ?_
  by_cases hb : b = chDollar
  · simpa only [afterFirst_dollar hb] using decSecond_waitsToResume hvp hvi cfg
  · exact Or.inl (by simpa [afterFirst_other hb] using hvp)

end

/-! ## The obligation -/

/-- A DEC that runs is its first read, with `FR` invalidated. -/
theorem exec_dec_running {s : State} (hf : s.faulted = false) (ha : s.attached = true) :
    exec .dec s = .next (decFirst Config.hardware (invalidate (unblock s))) := by
  simp [exec, execDec, decFrame, hf, ha]

/-- Settles O32: a wait has taken every answer (`decFirst_waitsToResume`), and the step takes the rest of the DEC up from
there (`step_resumes`). -/
theorem waitingDecResumesExactly : Obligations.WaitingDecResumesExactly := by
  intro s t more hf ha hi _ ht hwait
  rw [exec_dec_running hf ha] at ht
  obtain rfl : decFirst Config.hardware (invalidate (unblock s)) = t := by simpa using ht
  rw [exec_dec_running (s := { s with rx := s.rx ++ more }) hf ha]
  rcases decFirst_waitsToResume (u := invalidate (unblock s)) rfl hi Config.hardware with h | ⟨p, k, h, hmore⟩
  · simp [h] at hwait
  · have hstep := step_resumes (s := { block p (tookRx [] k (invalidate (unblock s))) with rx := more }) rfl hi hf
    have hresp := resumed_ignoresResp Config.hardware p none (tookRx more k (invalidate (unblock s)))
    rw [h]
    exact hstep.trans (congrArg _ (hresp.trans (hmore more).symm))

end Sys2Proof.Proofs
end

section
/-! What an operation and a step do to the registers (10_state.md R22, R29 to R33): what their ends write into STATUS and ERR,
what they leave as it was, and what they count. Everything goes through the ends of `Laws/Ends.lean`. -/

namespace Sys2Proof.Proofs

open Sys2Proof Sys2Proof.Machine Sys2Proof.Laws Sys2Proof.Claims

/-! ## The ends of a DEC in three kinds -/

theorem isDirection_iff (d : Byte) : isDirection d = true ↔ d = 0x3C#8 ∨ d = 0x3E#8 := by
  simp [isDirection, chLt, chGt]

theorem slice_length {s : Bytes} {i n : Nat} (h : i + n ≤ s.length) : (slice s i n).length = n := by
  rw [slice, List.length_take, List.length_drop]
  omega

theorem toNat_setWidth_byte (b : Byte) : (b.setWidth 16).toNat = b.toNat := by
  rw [BitVec.toNat_setWidth, Nat.mod_eq_of_lt (by omega)]

theorem lowByte_setWidth (b : Byte) : (b.setWidth 16).extractLsb' 0 8 = b := by
  rw [← BitVec.setWidth_eq_extractLsb' (by omega), BitVec.setWidth_setWidth_of_le _ (by omega), BitVec.setWidth_eq]

/-- A frame as 10_state.md R37.1 to R37.4 wants a latched one. -/
structure FrameOk (fr : FrameReg) : Prop where
  length : fr.len.toNat = fr.pay.length
  v1Bounds : fr.ver = .v1 → fr.len.toNat ≤ 255 ∧ fr.cmd.toNat ≤ 0x00FF
  v1Checksum : fr.ver = .v1 → fr.chk = xorChk ([fr.len.extractLsb' 0 8, fr.cmd.extractLsb' 0 8] ++ fr.pay)
  direction : fr.dir = 0x3C#8 ∨ fr.dir = 0x3E#8

/-- The frame of a whole V1 path whose checksum agrees. -/
theorem frameOk_v1 {g : Bytes} (hd : isDirection (byteAt g 0) = true) (hlen : 3 + (byteAt g 1).toNat + 1 ≤ g.length)
    (hchk : byteAt g (3 + (byteAt g 1).toNat) =
      xorChk ([byteAt g 1, byteAt g 2] ++ slice g 3 (byteAt g 1).toNat)) :
    FrameOk ⟨true, .v1, byteAt g 0, (byteAt g 2).setWidth 16, (byteAt g 1).setWidth 16, slice g 3 (byteAt g 1).toNat,
      byteAt g (3 + (byteAt g 1).toNat)⟩ where
  length := by rw [toNat_setWidth_byte, slice_length (by omega)]
  v1Bounds _ := by
    simp only [toNat_setWidth_byte]
    omega
  v1Checksum _ := by simp only [lowByte_setWidth, hchk]
  direction := (isDirection_iff _).1 hd

/-- The frame of a whole V2 path: its CRC is bound to nothing (42_frame_decode.md R129). -/
theorem frameOk_v2 {g : Bytes} (hd : isDirection (byteAt g 0) = true)
    (hlen : 6 + (ofLe16 (byteAt g 4) (byteAt g 5)).toNat + 1 ≤ g.length) (cmd : Half) (chk : Byte) :
    FrameOk ⟨true, .v2, byteAt g 0, cmd, ofLe16 (byteAt g 4) (byteAt g 5),
      slice g 6 (ofLe16 (byteAt g 4) (byteAt g 5)).toNat, chk⟩ where
  length := by rw [slice_length (by omega)]
  v1Bounds h := nomatch h
  v1Checksum h := nomatch h
  direction := (isDirection_iff _).1 hd

/-- An error outcome that carries what its code must record (60_exceptions.md R202). -/
def CarriesInfo (e : Raise) : Prop := RecordsError (raiseCode e) (raiseErr e)

theorem carriesInfo_mismatch {obs exp : Byte} (h : obs ≠ exp) (cmd : Half) (pay : Bytes) :
    CarriesInfo (.checksumMismatch cmd pay obs exp) :=
  ⟨fun _ => ⟨cmd, pay, obs, exp, h, rfl⟩, by simp [raiseCode], by simp [raiseCode], by simp [raiseCode]⟩

theorem carriesInfo_outOfBand {b : Byte} (h : b ≠ chDollar) : CarriesInfo (.outOfBand b) :=
  ⟨by simp [raiseCode], fun _ => ⟨b, h, rfl⟩, by simp [raiseCode], by simp [raiseCode]⟩

theorem carriesInfo_version {b : Byte} (hm : b ≠ chM) (hx : b ≠ chX) : CarriesInfo (.malformedHeader .version b) :=
  ⟨by simp [raiseCode], by simp [raiseCode], fun _ => ⟨b, Or.inl ⟨hm, hx, rfl⟩⟩, by simp [raiseCode]⟩

theorem carriesInfo_direction {d : Byte} (h : isDirection d = false) : CarriesInfo (.malformedHeader .direction d) := by
  have hd : ¬ (d = 0x3C#8 ∨ d = 0x3E#8) := fun hd => by simp [(isDirection_iff d).2 hd] at h
  obtain ⟨hlt, hgt⟩ := not_or.1 hd
  exact ⟨by simp [raiseCode], by simp [raiseCode], fun _ => ⟨d, Or.inr ⟨hlt, hgt, rfl⟩⟩, by simp [raiseCode]⟩

/-- The error outcomes that carry nothing. -/
theorem carriesInfo_bare {e : Raise} (hcode : raiseCode e ∉ [0x10#8, 0x11#8, 0x12#8]) (herr : raiseErr e = ErrReg.cleared) :
    CarriesInfo e := by
  simp only [List.mem_cons, List.not_mem_nil, or_false, not_or] at hcode
  obtain ⟨h10, h11, h12⟩ := hcode
  exact ⟨fun h => absurd h h10, fun h => absurd h h11, fun h => absurd h h12, fun _ => herr⟩

/-- What a DEC comes to, from the state `u` in which its last read left MSPE. -/
inductive DecOutcome (u : State) : State → Prop
  | error (e : Raise) : CarriesInfo e → DecOutcome u (raise e u)
  | waits (p : Pending) : (∀ f, p ≠ .send f) → DecOutcome u (block p u)
  | latched (ver : Version) (dir : Byte) (cmd len : Half) (pay : Bytes) (chk : Byte) (d : Nat) :
      FrameOk ⟨true, ver, dir, cmd, len, pay, chk⟩ → DecOutcome u (latch ver dir cmd len pay chk { u with draws := d })

theorem decOutcome_of_end {u t : State} (h : DecEnd Config.hardware u t) : DecOutcome u t := by
  cases h with
  | shortRead => exact .error _ (carriesInfo_bare (by decide) rfl)
  | ioFailure => exact .error _ (carriesInfo_bare (by decide) rfl)
  | endOfStream => exact .error _ (carriesInfo_bare (by decide) rfl)
  | outOfBand b hb => exact .error _ (carriesInfo_outOfBand hb)
  | badVersion b hm hx => exact .error _ (carriesInfo_version hm hx)
  | badDirection d hd => exact .error _ (carriesInfo_direction hd)
  | waitFirst => exact .waits _ nofun
  | waitSecond => exact .waits _ nofun
  | waitV1 g => exact .waits _ nofun
  | waitV2 g => exact .waits _ nofun
  | wholeV1 g hd hlen =>
    rcases checkV1_cases (byteAt g 1).toNat g u with ⟨hchk, h⟩ | ⟨hne, h⟩ <;> rw [h]
    · exact .latched _ _ _ _ _ _ u.draws (frameOk_v1 hd hlen hchk)
    · exact .error _ (carriesInfo_mismatch hne _ _)
  | wholeV2 g hd hlen =>
    rw [checkV2_unenforced rfl]
    exact .latched _ _ _ _ _ _ _ (frameOk_v2 hd hlen _ _)

/-- An end of a DEC from `s` is one of those kinds, after answers were taken. -/
theorem endsDec_outcome {s t : State} (h : EndsDec Config.hardware s t) :
    ∃ rest k, DecOutcome (tookRx rest k s) t := by
  obtain ⟨used, rest, _, hend⟩ := h
  exact ⟨rest, bytesIn used, decOutcome_of_end hend⟩

/-! ## While STATUS.FAULT is set (R30) -/

theorem opEnd_faulted {i : Instr} {s t : State} (hf : s.faulted = true) (h : OpEnd i s t) :
    t = { s with resp := some .refused } := by
  cases h
  case refused => rfl
  all_goals exact nomatch hf.symm.trans ‹s.faulted = false›

theorem exec_faulted {s : State} (hf : s.faulted = true) (i : Instr) : exec i s = .next { s with resp := some .refused } := by
  obtain ⟨t, h, hend⟩ := exec_ends i s
  rw [h, opEnd_faulted hf hend]

theorem rejectOp_faulted {s : State} (hf : s.faulted = true) (r : Reject) :
    rejectOp r s = { s with resp := some .refused } := accept_faulted hf _

theorem nextInput_of_takes {x : HostInput} {s u : State} (h : Takes x s u) : nextInput s = some (x, u) := by
  obtain ⟨_, ⟨hi, rfl⟩ | ⟨hi, q, hq, rfl⟩⟩ := h
  · exact nextInput_issued hi
  · exact nextInput_planned hi hq

/-- A free machine that is faulted takes the next operation and refuses it. -/
theorem step_faulted_free {s u : State} {c : Command} (hf : s.faulted = true) (hp : s.pending = none)
    (hn : nextInput s = some (.op c, u)) : step s = .next { u with resp := some .refused } := by
  have hu : u.faulted = true := by
    obtain ⟨q, rfl⟩ := nextInput_taken hn
    exact hf
  rcases nextWork_free hp with ⟨h, _⟩ | ⟨v, h, _⟩ | ⟨c', v, h, hw⟩ <;> rw [hn] at h
  · cases h
  · cases h
  · cases h
    rcases hw with ⟨i, _, hw⟩ | ⟨r, _, hw⟩ <;> rw [step, hw]
    · exact exec_faulted hu i
    · exact congrArg _ (rejectOp_faulted hu r)

/-- So does one with an operation in progress, which it then refuses to take up again. -/
theorem step_faulted_waiting {s : State} {p : Pending} (hf : s.faulted = true) (hw : nextWork s = resumeWork p s) :
    step s = .next { s with resp := some .refused } := by
  rw [step, hw]
  cases p with
  | decFirst => exact congrArg _ (accept_faulted hf _)
  | decSecond => exact congrArg _ (accept_faulted hf _)
  | decV1 g => exact exec_faulted hf .frameV1
  | decV2 g => exact exec_faulted hf .frameV2
  | send f => exact congrArg _ (accept_faulted hf _)

/-- The host has issued no reset and means to issue none. -/
def NoResetAhead (s : State) : Prop := s.issued ≠ some .reset ∧ ∀ x ∈ s.hostq, x ≠ .reset

theorem nextInput_noReset {s u : State} {x : HostInput} (hs : NoResetAhead s) (h : nextInput s = some (x, u)) :
    x ≠ .reset ∧ NoResetAhead u := by
  obtain ⟨hi, hq⟩ := hs
  match hi' : s.issued, hq' : s.hostq with
  | some y, _ =>
    cases (nextInput_issued hi').symm.trans h
    exact ⟨fun hx => hi (hi'.trans (congrArg some hx)), nofun, hq⟩
  | none, [] => simp [nextInput, hi', hq'] at h
  | none, y :: rest =>
    cases (nextInput_planned hi' hq').symm.trans h
    exact ⟨hq _ (by simp [hq']), hi, fun z hz => hq z (by simp [hq', hz])⟩

theorem nextWork_noReset {s : State} (hs : NoResetAhead s) : NoReset s := by
  intro u hu
  cases hp : s.pending with
  | none =>
    rcases nextWork_free hp with ⟨_, hw⟩ | ⟨v, hn, hw⟩ | ⟨c, v, _, ⟨i, _, hw⟩ | ⟨r, _, hw⟩⟩
    · cases hw.symm.trans hu
    · exact (nextInput_noReset hs hn).1 rfl
    · cases hw.symm.trans hu
    · cases hw.symm.trans hu
  | some p =>
    rcases nextWork_waiting hp with ⟨_, hw⟩ | ⟨hr, _, _⟩ | ⟨_, hw⟩
    · cases p <;> cases hw.symm.trans hu
    · exact hs.1 hr
    · cases hw.symm.trans hu

/-- A run that goes on has a first step and a rest. -/
theorem run_succ {M : Host.Core} {n : Nat} {s t : M.State} (h : M.run (n + 1) s = .next t) :
    ∃ u, M.step s = .next u ∧ M.run n u = .next t := by
  rw [Host.Core.run] at h
  split at h
  next u hu => exact ⟨u, hu, h⟩
  next => cases h
  next => cases h

/-- A step of a faulted machine that is to see no reset: the host's inputs move on and the answer changes, nothing else. -/
theorem step_faulted {s t : State} (hf : s.faulted = true) (hs : NoResetAhead s) (h : step s = .next t) :
    NoResetAhead t ∧ ∃ i q r, t = { s with issued := i, hostq := q, resp := r } := by
  rcases step_cases s with ⟨_, _, h'⟩ | ⟨u, hu, _⟩ | ⟨c, q, i, hp, hn, _⟩ | ⟨c, q, r, hp, hn, _⟩ | ⟨p, _, _, hw, _⟩ |
    ⟨_, h'⟩
  · obtain rfl := Host.Outcome.next.inj (h.symm.trans h')
    exact ⟨hs, _, _, _, rfl⟩
  · exact absurd hu (nextWork_noReset hs u)
  · obtain rfl := Host.Outcome.next.inj (h.symm.trans (step_faulted_free hf hp hn))
    exact ⟨(nextInput_noReset hs hn).2, _, _, _, rfl⟩
  · obtain rfl := Host.Outcome.next.inj (h.symm.trans (step_faulted_free hf hp hn))
    exact ⟨(nextInput_noReset hs hn).2, _, _, _, rfl⟩
  · obtain rfl := Host.Outcome.next.inj (h.symm.trans (step_faulted_waiting hf hw))
    exact ⟨hs, _, _, _, rfl⟩
  · cases h'.symm.trans h

/-! ## What an operation's end writes into STATUS and ERR -/

/-- How an operation from `s` that runs writes STATUS and ERR: `u` is the state before it does. -/
inductive StatusEnd (s : State) : State → Prop
  | ok (r : OpResult) (u : State) : u.err = s.err → u.faulted = s.faulted → StatusEnd s (finish r u)
  | error (e : Raise) (u : State) : CarriesInfo e → u.faulted = s.faulted → StatusEnd s (raise e u)
  | fault (f : PFault) : StatusEnd s (fault f s)
  | waits (p : Pending) (u : State) : u.code = s.code → u.err = s.err → u.faulted = s.faulted → StatusEnd s (block p u)

/-- A DEC writes none of them before its end. -/
theorem statusEnd_dec {s u t : State} (h : EndsDec Config.hardware u t) (hcode : u.code = s.code) (herr : u.err = s.err)
    (hf : u.faulted = s.faulted) : StatusEnd s t := by
  obtain ⟨rest, k, h⟩ := endsDec_outcome h
  cases h with
  | error e he => exact .error e _ he hf
  | waits p => exact .waits p _ hcode herr hf
  | latched ver dir cmd len pay chk d => exact .ok _ _ herr hf

/-- Nor does a SEND. -/
theorem statusEnd_offer {s u : State} (hcode : u.code = s.code) (herr : u.err = s.err) (hf : u.faulted = s.faulted)
    (f : Bytes) : StatusEnd s (offer f u) := by
  rcases offer_cases f u with ⟨rest, _, h⟩ | ⟨k, rest, _, h⟩ | ⟨_, h⟩ <;> rw [h]
  · exact .ok _ _ herr hf
  · exact .error _ _ (carriesInfo_bare (by decide) rfl) hf
  · exact .waits _ _ hcode herr hf

theorem opEnd_status {i : Instr} {s t : State} (hf : s.faulted = false) (h : OpEnd i s t) : StatusEnd s t := by
  cases h with
  | refused hf' => simp [hf] at hf'
  | fault f => exact .fault f
  | pure r => exact .ok _ _ rfl rfl
  | unm v n => exact .ok _ _ rfl rfl
  | short => exact .error _ _ (carriesInfo_bare (by decide) rfl) rfl
  | dec _ _ _ _ hend => exact statusEnd_dec hend rfl rfl rfl
  | path _ _ _ hend => exact statusEnd_dec hend rfl rfl rfl
  | send f => exact statusEnd_offer rfl rfl rfl f
  | opened name baud o d => exact .ok _ _ rfl rfl
  | openFailed name baud o d => exact .error _ _ (carriesInfo_bare (by decide) rfl) rfl
  | detached => exact .ok _ _ rfl rfl

/-! ## What an operation's end leaves as it was -/

/-- A pure operation is in no other group. -/
theorem pureOp_apart {i : Instr} : PureOp i → ¬ ReadsRx i ∧ ¬ WritesTx i ∧ ¬ OpensOrCloses i ∧ ¬ MovesCursor i := by
  cases i <;> simp [PureOp, ReadsRx, WritesTx, OpensOrCloses, MovesCursor]

theorem movesCursor_iff (i : Instr) : MovesCursor i ↔ IsUnm i = true := by
  cases i <;> simp [MovesCursor, IsUnm]

theorem readsRx_path {i : Instr} (h : i = .frameV1 ∨ i = .frameV2) : ReadsRx i := by
  rcases h with rfl | rfl <;> trivial

/-- What no end of a DEC touches but by its reads. -/
theorem endsDec_frame {s t : State} (h : EndsDec Config.hardware s t) :
    t.tx = s.tx ∧ t.txlog = s.txlog ∧ t.port = s.port ∧ t.opens = s.opens ∧ t.issued = s.issued ∧ t.hostq = s.hostq := by
  obtain ⟨used, rest, _, hend⟩ := h
  obtain ⟨_, _, htx, hlog, hport, hopens, hissued, hhostq, _⟩ := decEnd_frame hend
  exact ⟨htx, hlog, hport, hopens, hissued, hhostq⟩

section
variable {i : Instr} {s t : State} (h : OpEnd i s t)
include h

theorem opEnd_rx (hi : ¬ ReadsRx i) : t.rx = s.rx ∧ t.rxpos = s.rxpos ∧ t.fr = s.fr := by
  cases h
  case dec _ hdec _ _ => exact absurd (hdec ▸ trivial) hi
  case path _ hpath _ => exact absurd (readsRx_path hpath) hi
  case send f _ _ _ =>
    obtain ⟨hrx, hpos, hfr, _⟩ := offer_frame f s
    exact ⟨hrx, hpos, hfr⟩
  all_goals exact ⟨rfl, rfl, rfl⟩

theorem opEnd_tx (hi : ¬ WritesTx i) : t.tx = s.tx ∧ t.txlog = s.txlog := by
  cases h
  case dec _ _ _ hend | path _ _ hend =>
    obtain ⟨htx, hlog, _⟩ := endsDec_frame hend
    exact ⟨htx, hlog⟩
  case send hsend =>
    obtain ⟨c, sh, v, rfl⟩ := hsend
    exact absurd trivial hi
  all_goals exact ⟨rfl, rfl⟩

theorem opEnd_port (hi : ¬ OpensOrCloses i) : t.port = s.port ∧ t.opens = s.opens := by
  cases h
  case dec _ _ _ hend | path _ _ hend =>
    obtain ⟨_, _, hport, hopens, _⟩ := endsDec_frame hend
    exact ⟨hport, hopens⟩
  case send f _ _ _ =>
    obtain ⟨_, _, _, hport, hopens, _⟩ := offer_frame f s
    exact ⟨hport, hopens⟩
  case opened hatt | openFailed hatt => exact absurd (hatt ▸ trivial) hi
  case detached hdet => exact absurd (hdet ▸ trivial) hi
  all_goals exact ⟨rfl, rfl⟩

theorem opEnd_attached (ho : ¬ OpensOrCloses i) (hr : ¬ ReadsRx i) (hw : ¬ WritesTx i) : t.attached = s.attached := by
  cases h
  case dec _ hdec _ _ => exact absurd (hdec ▸ trivial) hr
  case path _ hpath _ => exact absurd (readsRx_path hpath) hr
  case send hsend =>
    obtain ⟨c, sh, v, rfl⟩ := hsend
    exact absurd trivial hw
  case opened hatt | openFailed hatt => exact absurd (hatt ▸ trivial) ho
  case detached hdet => exact absurd (hdet ▸ trivial) ho
  all_goals rfl

theorem opEnd_cur (hm : ¬ MovesCursor i) (hr : ¬ ReadsRx i) : t.cur = s.cur := by
  cases h
  case dec _ hdec _ _ => exact absurd (hdec ▸ trivial) hr
  case path _ hpath _ => exact absurd (readsRx_path hpath) hr
  case unm _ _ hunm _ _ | short _ hunm _ => exact absurd ((movesCursor_iff i).2 hunm) hm
  case send f _ _ _ =>
    obtain ⟨_, _, _, _, _, hcur, _⟩ := offer_frame f s
    exact hcur
  all_goals rfl

theorem opEnd_pure (hi : PureOp i) :
    t = { s with code := t.code, err := t.err, faulted := t.faulted, resp := t.resp } := by
  obtain ⟨hrx, htx, hopen, hcur⟩ := pureOp_apart hi
  cases h
  case dec _ hdec _ _ => exact absurd (hdec ▸ trivial) hrx
  case path _ hpath _ => exact absurd (readsRx_path hpath) hrx
  case unm _ _ hunm _ _ | short _ hunm _ => exact absurd ((movesCursor_iff i).2 hunm) hcur
  case send hsend =>
    obtain ⟨c, sh, v, rfl⟩ := hsend
    exact absurd trivial htx
  case opened hatt | openFailed hatt => exact absurd (hatt ▸ trivial) hopen
  case detached hdet => exact absurd (hdet ▸ trivial) hopen
  all_goals rfl

theorem opEnd_inputs : t.issued = s.issued ∧ t.hostq = s.hostq := by
  cases h
  case dec _ _ _ hend | path _ _ hend =>
    obtain ⟨_, _, _, _, hissued, hhostq⟩ := endsDec_frame hend
    exact ⟨hissued, hhostq⟩
  case send f _ _ _ =>
    obtain ⟨_, _, _, _, _, _, hissued, hhostq, _⟩ := offer_frame f s
    exact ⟨hissued, hhostq⟩
  all_goals exact ⟨rfl, rfl⟩

end

/-! ## The ends of a step that asserts no reset -/

/-- The step that answers `t` asserts no reset, so `t` is one of its ends. -/
theorem stepEnd_of_next {s t : State} (hn : NoReset s) (h : step s = .next t) : StepEnd s t := by
  rcases step_ends s with ⟨u, hu, _⟩ | ⟨_, h'⟩ | ⟨u, h', hend⟩
  · exact absurd hu (hn u)
  · cases h'.symm.trans h
  · obtain rfl := Host.Outcome.next.inj (h.symm.trans h')
    exact hend

/-- A rejected command comes to what a refused or a faulting operation does. -/
theorem opEnd_rejectOp (i : Instr) (r : Reject) (s : State) : OpEnd i s (rejectOp r s) :=
  opEnd_accept fun hf => .fault _ hf

/-- The ends of a step in three kinds: nothing done, an operation's end, a waiting SEND's. A frame path runs for a waiting DEC
only. -/
theorem stepEnd_kinds {s t : State} (h : StepEnd s t) :
    t = s ∨
    (∃ i j q, OpEnd i { s with issued := j, hostq := q } t ∧
      (i = .frameV1 ∨ i = .frameV2 → ∃ p, s.pending = some p ∧ ∀ f, p ≠ .send f)) ∨
    ∃ f, t = offer f (unblock s) := by
  cases h with
  | idle => exact Or.inl rfl
  | op i q _ _ _ h1 h2 hend => exact Or.inr (Or.inl ⟨i, none, q, hend, fun h => (h.elim h1 h2).elim⟩)
  | rejected r q => exact Or.inr (Or.inl ⟨.det, none, q, opEnd_rejectOp .det r _, nofun⟩)
  | refused _ _ hf => exact Or.inr (Or.inl ⟨.det, s.issued, s.hostq, .refused hf, nofun⟩)
  | dec p _ hp hsend _ hf hend =>
    exact Or.inr (Or.inl ⟨.frameV1, s.issued, s.hostq, .path _ hf (Or.inl rfl) hend, fun _ => ⟨p, hp, hsend⟩⟩)
  | send f => exact Or.inr (Or.inr ⟨f, rfl⟩)

/-! ## The counters RXPOS and TXLOG -/

/-- A front part of the RX answers was taken, and `RXPOS` counts its bytes (R32). -/
def TookAnswers (s t : State) : Prop := ∃ used, s.rx = used ++ t.rx ∧ t.rxpos = s.rxpos + bytesIn used

theorem tookAnswers_of_same {s t : State} (hrx : t.rx = s.rx) (hpos : t.rxpos = s.rxpos) : TookAnswers s t :=
  ⟨[], hrx.symm, hpos⟩

theorem endsDec_took {s t : State} (h : EndsDec Config.hardware s t) : TookAnswers s t := by
  obtain ⟨used, rest, hrx, hend⟩ := h
  obtain ⟨htrx, hpos, _⟩ := decEnd_frame hend
  exact ⟨used, by rw [htrx, hrx]; rfl, hpos⟩

theorem opEnd_took {i : Instr} {s t : State} (h : OpEnd i s t) : TookAnswers s t := by
  cases h
  case dec _ _ _ hend | path _ _ hend => exact (endsDec_took hend :)
  case send f _ _ _ => exact tookAnswers_of_same (offer_frame f s).1 (offer_frame f s).2.1
  all_goals exact tookAnswers_of_same rfl rfl

theorem stepEnd_took {s t : State} (h : StepEnd s t) : TookAnswers s t := by
  rcases stepEnd_kinds h with rfl | ⟨i, j, q, hend, _⟩ | ⟨f, rfl⟩
  · exact tookAnswers_of_same rfl rfl
  · exact (opEnd_took hend :)
  · obtain ⟨hrx, hpos, _⟩ := offer_frame f (unblock s)
    exact tookAnswers_of_same hrx hpos

theorem bytesIn_eq_isByte (l : List RxAnswer) : bytesIn l = (l.filter isByte).length := by
  induction l with
  | nil => rfl
  | cons a l ih => cases a <;> simp [List.filter_cons, isByte, ih]

theorem offer_txlog (f : Bytes) (s : State) : s.txlog <+: (offer f s).txlog := by
  rcases offer_cases f s with ⟨rest, _, h⟩ | ⟨k, rest, _, h⟩ | ⟨_, h⟩ <;> rw [h]
  · exact List.prefix_append _ _
  · exact List.prefix_append _ _
  · exact List.prefix_rfl

theorem opEnd_txlog {i : Instr} {s t : State} (h : OpEnd i s t) : s.txlog <+: t.txlog := by
  cases h
  case dec _ _ _ hend | path _ _ hend =>
    obtain ⟨_, hlog, _⟩ := endsDec_frame hend
    exact hlog ▸ List.prefix_rfl
  case send f _ _ _ => exact offer_txlog f s
  all_goals exact List.prefix_rfl

theorem stepEnd_txlog {s t : State} (h : StepEnd s t) : s.txlog <+: t.txlog := by
  rcases stepEnd_kinds h with rfl | ⟨i, j, q, hend, _⟩ | ⟨f, rfl⟩
  · exact List.prefix_rfl
  · exact (opEnd_txlog hend :)
  · exact offer_txlog f (unblock s)

end Sys2Proof.Proofs
end

section
/-! The invariant of MSPE (10_state.md R37, 60_exceptions.md R200, R205) in three parts, each kept by every end of a step:
the frame with its cursor, the status, and the session with the operation in progress. -/

namespace Sys2Proof.Proofs

open Sys2Proof Sys2Proof.Machine Sys2Proof.Laws Sys2Proof.Claims

/-! ## The frame register and the cursor -/

/-- R37.1 to R37.4 with R22's bound: a valid frame is sound, and the cursor stands inside its payload. -/
def FrameSound (s : State) : Prop := s.fr.valid = true → FrameOk s.fr ∧ s.cur.toNat ≤ s.fr.len.toNat

theorem frameSound_iff (s : State) : FrameSound s ↔
    FrameLength s ∧ FrameFits s ∧ FrameV1Bounds s ∧ FrameV1Checksum s ∧ FrameDirection s := by
  constructor
  · intro h
    refine ⟨fun hv => ⟨(h hv).1.length, (h hv).2⟩, fun hv => ?_, fun hv => (h hv).1.v1Bounds,
      fun hv => (h hv).1.v1Checksum, fun hv => (h hv).1.direction⟩
    have hlen := s.fr.len.isLt
    rw [(h hv).1.length] at hlen
    exact Nat.le_of_lt_succ hlen
  · rintro ⟨hlen, _, hbounds, hchk, hdir⟩ hv
    exact ⟨⟨(hlen hv).1, hbounds hv, hchk hv, hdir hv⟩, (hlen hv).2⟩

theorem frameSound_of_invalid {s : State} (h : s.fr.valid = false) : FrameSound s := fun hv => by simp [h] at hv

theorem frameSound_of_same {s t : State} (hs : FrameSound s) (hfr : t.fr = s.fr) (hcur : t.cur = s.cur) : FrameSound t := by
  rw [FrameSound, hfr, hcur]
  exact hs

/-- `CUR` moved forward, or a frame has been latched and it is 0. -/
def CursorMoves (s t : State) : Prop :=
  s.cur.toNat ≤ t.cur.toNat ∨ (t.cur = 0 ∧ t.fr.valid = true ∧ t.resp = some (.ok .none))

theorem cursorMoves_of_same {s t : State} (h : t.cur = s.cur) : CursorMoves s t := Or.inl (by rw [h])

/-- Clearing `FR.VALID` does not take the cursor back (log 11). -/
theorem invalidate_cursor (s : State) : s.cur.toNat ≤ (invalidate s).cur.toNat :=
  (drawn_cursor (lo := s.cur) (hi := 65535#16) (Nat.le_of_lt_succ s.cur.isLt) s.draws).1

/-- A DEC that has cleared `FR.VALID` ends with no frame, or with a sound one and the cursor at 0. -/
theorem endsDec_frameSound {s t : State} (h : EndsDec Config.hardware s t) (hv : s.fr.valid = false) : FrameSound t := by
  obtain ⟨rest, k, h⟩ := endsDec_outcome h
  cases h with
  | error => exact frameSound_of_invalid hv
  | waits => exact frameSound_of_invalid hv
  | latched ver dir cmd len pay chk d hok => exact fun _ => ⟨hok, Nat.zero_le _⟩

theorem endsDec_cursor {s t : State} (h : EndsDec Config.hardware s t) : CursorMoves s t := by
  obtain ⟨rest, k, h⟩ := endsDec_outcome h
  cases h with
  | error => exact cursorMoves_of_same rfl
  | waits => exact cursorMoves_of_same rfl
  | latched => exact Or.inr ⟨rfl, rfl, rfl⟩

/-- Where an UNM leaves the cursor. -/
theorem toNat_cursor_add {cur len : Half} {n : Nat} (h : cur.toNat + n ≤ len.toNat) :
    (BitVec.ofNat 16 (cur.toNat + n)).toNat = cur.toNat + n := by
  rw [BitVec.toNat_ofNat, Nat.mod_eq_of_lt (by omega)]

section
variable {i : Instr} {s t : State} (h : OpEnd i s t) (hs : FrameSound s)
include h hs

theorem opEnd_frameSound (hpath : i = .frameV1 ∨ i = .frameV2 → s.fr.valid = false) : FrameSound t := by
  cases h
  case dec _ _ _ hend => exact endsDec_frameSound hend rfl
  case path _ hi hend => exact endsDec_frameSound hend (hpath hi)
  case unm _ _ _ _ hcur => exact fun hv => ⟨(hs hv).1, (toNat_cursor_add hcur).trans_le hcur⟩
  case short => exact fun hv => ⟨(hs hv).1, (drawn_cursor (hs hv).2 _).2⟩
  case send f _ _ _ =>
    obtain ⟨_, _, hfr, _, _, hcur, _⟩ := offer_frame f s
    exact frameSound_of_same hs hfr hcur
  all_goals exact hs

theorem opEnd_cursor : CursorMoves s t := by
  cases h
  case dec _ _ _ hend => exact (endsDec_cursor hend).imp_left ((invalidate_cursor (unblock s)).trans ·)
  case path _ _ hend => exact (endsDec_cursor hend :)
  case unm n _ _ _ hcur => exact Or.inl ((Nat.le_add_right _ n).trans_eq (toNat_cursor_add hcur).symm)
  case short hv => exact Or.inl (drawn_cursor (hs hv).2 _).1
  case send f _ _ _ =>
    obtain ⟨_, _, _, _, _, hcur, _⟩ := offer_frame f s
    exact cursorMoves_of_same hcur
  all_goals exact cursorMoves_of_same rfl

end

section
variable {s t : State} (h : StepEnd s t) (hs : FrameSound s)
include h hs

theorem stepEnd_frameSound (hpath : ∀ p, s.pending = some p → (∀ f, p ≠ .send f) → s.fr.valid = false) :
    FrameSound t := by
  rcases stepEnd_kinds h with rfl | ⟨i, j, q, hend, hi⟩ | ⟨f, rfl⟩
  · exact hs
  · refine opEnd_frameSound hend hs fun hi' => ?_
    obtain ⟨p, hp, hsend⟩ := hi hi'
    exact hpath p hp hsend
  · obtain ⟨_, _, hfr, _, _, hcur, _⟩ := offer_frame f (unblock s)
    exact frameSound_of_same hs hfr hcur

theorem stepEnd_cursor : CursorMoves s t := by
  rcases stepEnd_kinds h with rfl | ⟨i, j, q, hend, _⟩ | ⟨f, rfl⟩
  · exact cursorMoves_of_same rfl
  · exact (opEnd_cursor hend hs :)
  · obtain ⟨_, _, _, _, _, hcur, _⟩ := offer_frame f (unblock s)
    exact cursorMoves_of_same hcur

end

/-! ## The codes of STATUS -/

/-- R200, R205: a known code, and the sticky bit exactly with a programming fault's. -/
def StatusSound (s : State) : Prop := CodeKnown s ∧ FaultIsLastOutcome s

theorem codeOk_class : codeOk ∈ knownCodes ∧ codeClass codeOk = some .success := by decide

theorem statusEnd_sound {s t : State} (h : StatusEnd s t) (hf : s.faulted = false) (hs : StatusSound s) : StatusSound t := by
  obtain ⟨hknown, hlast⟩ := hs
  cases h with
  | ok r u _ huf => exact ⟨codeOk_class.1, by simp [FaultIsLastOutcome, huf, hf, codeOk_class.2]⟩
  | error e u _ huf =>
    obtain ⟨hmem, hclass⟩ := raiseCode_class e
    exact ⟨hmem, by rcases hclass with h | h | h <;> simp [FaultIsLastOutcome, huf, hf, h]⟩
  | fault f =>
    obtain ⟨hmem, hclass⟩ := faultCode_class f
    exact ⟨hmem, by simp [FaultIsLastOutcome, hclass]⟩
  | waits p u hcode _ huf =>
    exact ⟨by simpa [CodeKnown, hcode] using hknown, by simpa [FaultIsLastOutcome, hcode, huf] using hlast⟩

theorem opEnd_statusSound {i : Instr} {s t : State} (h : OpEnd i s t) (hs : StatusSound s) : StatusSound t := by
  cases hf : s.faulted with
  | false => exact statusEnd_sound (opEnd_status hf h) hf hs
  | true =>
    rw [opEnd_faulted hf h]
    exact hs

theorem stepEnd_statusSound {s t : State} (h : StepEnd s t) (hs : StatusSound s) : StatusSound t := by
  cases h with
  | idle => exact hs
  | op i q _ _ _ _ _ hend => exact opEnd_statusSound hend hs
  | rejected r q => exact opEnd_statusSound (opEnd_rejectOp .det r _) hs
  | refused => exact hs
  | dec p _ _ _ _ hf hend => exact statusEnd_sound (statusEnd_dec hend rfl rfl rfl) hf hs
  | send f _ _ hf => exact statusEnd_sound (statusEnd_offer (u := unblock s) rfl rfl rfl f) hf hs

/-! ## The session, the operation in progress and the host's duty -/

/-- R23, R120, R221. -/
def SessionSound (s : State) : Prop := PendingRuns s ∧ AttachedHasPort s ∧ HostKeepsDuty s

theorem inv_iff (s : State) : s.Inv ↔ FrameSound s ∧ StatusSound s ∧ SessionSound s := by
  rw [frameSound_iff]
  simp only [StatusSound, SessionSound, State.Inv, and_assoc]

theorem keepsDuty_of_free {s : State} (h : s.pending = none) : HostKeepsDuty s := by
  simp [HostKeepsDuty, breaksDuty, h]

theorem keepsDuty_of_untold {s : State} (h : s.issued = none) : HostKeepsDuty s := by
  cases hp : s.pending <;> simp [HostKeepsDuty, breaksDuty, h, hp]

theorem pendingRuns_of_free {s : State} (h : s.pending = none) : PendingRuns s := by
  simp [PendingRuns, h]

theorem pendingRuns_send {s : State} {f : Bytes} (hp : s.pending = some (.send f)) :
    PendingRuns s ↔ s.attached = true ∧ s.faulted = false := by
  simp [PendingRuns, hp]

theorem pendingRuns_dec {s : State} {p : Pending} (hp : s.pending = some p) (hsend : ∀ f, p ≠ .send f) :
    PendingRuns s ↔ s.attached = true ∧ s.faulted = false ∧ s.fr.valid = false := by
  cases p with
  | send f => exact absurd rfl (hsend f)
  | _ => simp [PendingRuns, hp]

theorem overtakes_dec {p : Pending} (hsend : ∀ f, p ≠ .send f) (c : Command) : overtakes c p = isDet c := by
  cases p with
  | send f => exact absurd rfl (hsend f)
  | _ => rfl

/-- How far a DEC has read makes no difference to what may overtake it. -/
theorem breaksDuty_dec {s t : State} {p p' : Pending} (hp : s.pending = some p) (hp' : t.pending = some p')
    (hsend : ∀ f, p ≠ .send f) (hsend' : ∀ f, p' ≠ .send f) (hi : t.issued = s.issued) : breaksDuty t = breaksDuty s := by
  match h : s.issued with
  | none | some .reset => simp [breaksDuty, hp, hp', hi, h]
  | some (.op c) => simp [breaksDuty, hp, hp', hi, h, overtakes_dec hsend, overtakes_dec hsend']

/-- A DEC that runs and has cleared `FR.VALID` keeps to R120 and R23 to its end. -/
theorem endsDec_runs {s t : State} (h : EndsDec Config.hardware s t) (hp : s.pending = none) (ha : s.attached = true)
    (hf : s.faulted = false) (hv : s.fr.valid = false) (hport : AttachedHasPort s) :
    PendingRuns t ∧ AttachedHasPort t ∧ (t.pending = none ∨ ∃ p, t.pending = some p ∧ ∀ f, p ≠ .send f) := by
  have hport' : AttachedHasPort t := fun _ => by
    obtain ⟨_, _, htport, _⟩ := endsDec_frame h
    rw [htport]
    exact hport ha
  obtain ⟨rest, k, h⟩ := endsDec_outcome h
  cases h with
  | error e => exact ⟨pendingRuns_of_free hp, hport', Or.inl hp⟩
  | waits p hsend => exact ⟨(pendingRuns_dec rfl hsend).2 ⟨ha, hf, hv⟩, hport', Or.inr ⟨p, rfl, hsend⟩⟩
  | latched => exact ⟨pendingRuns_of_free hp, hport', Or.inl hp⟩

/-- So does a SEND. -/
theorem offer_runs {s : State} (f : Bytes) (hp : s.pending = none) (ha : s.attached = true) (hf : s.faulted = false)
    (hport : AttachedHasPort s) :
    PendingRuns (offer f s) ∧ AttachedHasPort (offer f s) ∧
      ((offer f s).pending = none ∨ (offer f s).pending = some (.send f)) := by
  rcases offer_cases f s with ⟨rest, _, h⟩ | ⟨k, rest, _, h⟩ | ⟨_, h⟩ <;> rw [h]
  · exact ⟨pendingRuns_of_free hp, hport, Or.inl hp⟩
  · exact ⟨pendingRuns_of_free hp, fun _ => hport ha, Or.inl hp⟩
  · exact ⟨(pendingRuns_send rfl).2 ⟨ha, hf⟩, hport, Or.inr rfl⟩

/-- An operation that is no frame path, run on a machine that is free. -/
theorem opEnd_runs {i : Instr} {s t : State} (h : OpEnd i s t) (h1 : i ≠ .frameV1) (h2 : i ≠ .frameV2)
    (hp : s.pending = none) (hport : AttachedHasPort s) : PendingRuns t ∧ AttachedHasPort t := by
  cases h
  case dec hf _ ha hend =>
    obtain ⟨hruns, hport', _⟩ := endsDec_runs hend rfl ha hf rfl hport
    exact ⟨hruns, hport'⟩
  case path _ hpath _ => exact (hpath.elim h1 h2).elim
  case send f hf ha _ =>
    obtain ⟨hruns, hport', _⟩ := offer_runs f hp ha hf hport
    exact ⟨hruns, hport'⟩
  case opened => exact ⟨pendingRuns_of_free hp, fun _ => rfl⟩
  case detached => exact ⟨pendingRuns_of_free hp, nofun⟩
  all_goals exact ⟨pendingRuns_of_free hp, hport⟩

theorem stepEnd_sessionSound {s t : State} (h : StepEnd s t) (hs : SessionSound s) : SessionSound t := by
  obtain ⟨hruns, hport, hduty⟩ := hs
  cases h with
  | idle => exact ⟨hruns, hport, hduty⟩
  | op i q _ hp _ h1 h2 hend =>
    obtain ⟨hruns', hport'⟩ := opEnd_runs hend h1 h2 hp hport
    exact ⟨hruns', hport', keepsDuty_of_untold (opEnd_inputs hend).1⟩
  | rejected r q hp =>
    have hend := opEnd_rejectOp .det r { s with issued := none, hostq := q }
    obtain ⟨hruns', hport'⟩ := opEnd_runs hend nofun nofun hp hport
    exact ⟨hruns', hport', keepsDuty_of_untold (opEnd_inputs hend).1⟩
  | refused => exact ⟨hruns, hport, hduty⟩
  | dec p _ hp hsend _ hf hend =>
    obtain ⟨ha, _, hv⟩ := (pendingRuns_dec hp hsend).1 hruns
    obtain ⟨hruns', hport', hfree | ⟨p', hp', hsend'⟩⟩ := endsDec_runs hend rfl ha hf hv hport
    · exact ⟨hruns', hport', keepsDuty_of_free hfree⟩
    · obtain ⟨_, _, _, _, hi, _⟩ := endsDec_frame hend
      exact ⟨hruns', hport', (breaksDuty_dec hp hp' hsend hsend' hi).trans hduty⟩
  | send f hp _ hf =>
    obtain ⟨ha, _⟩ := (pendingRuns_send hp).1 hruns
    obtain ⟨hruns', hport', hfree | hp'⟩ := offer_runs (s := unblock s) f rfl ha hf hport
    · exact ⟨hruns', hport', keepsDuty_of_free hfree⟩
    · obtain ⟨_, _, _, _, _, _, hi, _⟩ := offer_frame f (unblock s)
      refine ⟨hruns', hport', ?_⟩
      rw [HostKeepsDuty, breaksDuty, hp', hi]
      rwa [HostKeepsDuty, breaksDuty, hp] at hduty

/-! ## The invariant -/

/-- A detached idle machine with no frame and no error, whatever stands outside it. -/
theorem inv_of_blank {s : State} (hv : s.fr.valid = false) (hcode : s.code = 0x00#8) (hf : s.faulted = false)
    (hp : s.pending = none) (ha : s.attached = false) : s.Inv := by
  refine (inv_iff s).2 ⟨frameSound_of_invalid hv, ⟨?_, ?_⟩, pendingRuns_of_free hp, ?_, keepsDuty_of_free hp⟩
  · rw [CodeKnown, hcode]
    decide
  · rw [FaultIsLastOutcome, hcode, hf]
    decide
  · simp [AttachedHasPort, ha]

theorem stepEnd_inv {s t : State} (h : StepEnd s t) (hs : s.Inv) : t.Inv := by
  obtain ⟨hframe, hstatus, hsession⟩ := (inv_iff s).1 hs
  refine (inv_iff t).2 ⟨stepEnd_frameSound h hframe fun p hp hsend => ?_, stepEnd_statusSound h hstatus,
    stepEnd_sessionSound h hsession⟩
  exact ((pendingRuns_dec hp hsend).1 hsession.1).2.2

end Sys2Proof.Proofs
end

section
/-! The statements about the state (10_state.md, 60_exceptions.md R202 to R205): each from the lemma about its ends. -/

namespace Sys2Proof.Proofs

open Sys2Proof Sys2Proof.Machine Sys2Proof.Laws Sys2Proof.Claims

/-- Settles O56: reset blanks the machine (`inv_of_blank`), and every other end of a step keeps the frame, the status and the
session sound (`stepEnd_inv`). -/
theorem stepKeepsInv : Obligations.StepKeepsInv := by
  intro s t hs h
  rcases step_ends s with ⟨u, _, h'⟩ | ⟨_, h'⟩ | ⟨u, h', hend⟩ <;> cases h'.symm.trans h
  · exact inv_of_blank rfl rfl rfl rfl rfl
  · exact stepEnd_inv hend hs

/-- Settles O57. -/
theorem resetMeetsInv : Obligations.ResetMeetsInv := inv_of_blank rfl rfl rfl rfl rfl

/-- Settles O13, by induction on the number of steps: each one moves the host's inputs on and refuses (`step_faulted`). -/
theorem faultStaysUntilReset : Obligations.FaultStaysUntilReset := by
  intro n
  induction n with
  | zero =>
    intro s t _ _ _ h
    cases h
    exact ⟨⟨rfl, rfl, rfl, rfl, rfl, rfl, rfl, rfl, rfl⟩, rfl, rfl, rfl⟩
  | succ n ih =>
    intro s t hf hi hq h
    obtain ⟨u, hu, hrun⟩ := run_succ h
    obtain ⟨⟨hi', hq'⟩, i, q, r, rfl⟩ := step_faulted hf ⟨hi, hq⟩ hu
    exact ih { s with issued := i, hostq := q, resp := r } t hf hi' hq' hrun

/-- Settles O14: every operation that runs writes STATUS and ERR in one of four ways (`opEnd_status`). -/
theorem outcomesWriteStatus : Obligations.OutcomesWriteStatus := by
  intro i s t hf h
  cases opEnd_status hf (opEnd_of_next h) with
  | ok r u herr huf => exact ⟨rfl, herr, huf.trans hf⟩
  | error e u hinfo huf => exact ⟨rfl, huf.trans hf, hinfo, (raiseCode_class e).2⟩
  | fault f => exact ⟨rfl, (faultCode_class f).2⟩
  | waits p u hcode herr huf => exact ⟨rfl, hcode, herr, huf.trans hf⟩

/-- Settles O51: each group of registers by its own lemma about an operation's ends. -/
theorem operationsKeepToTheirRegisters : Obligations.OperationsKeepToTheirRegisters := by
  intro i s t h
  have hend := opEnd_of_next h
  exact ⟨opEnd_rx hend, opEnd_tx hend, opEnd_port hend, opEnd_attached hend, opEnd_cur hend, opEnd_pure hend,
    opEnd_inputs hend⟩

/-- Settles O52: the ends of a step take a front part of the answers and count its bytes (`stepEnd_took`). -/
theorem rxposCountsConsumedBytes : Obligations.RxposCountsConsumedBytes := by
  intro s t hn h
  obtain ⟨used, hrx, hpos⟩ := stepEnd_took (stepEnd_of_next hn h)
  exact ⟨used, hrx, by rw [hpos, bytesIn_eq_isByte]⟩

/-- Settles O53. -/
theorem countersNeverDecrease : Obligations.CountersNeverDecrease := by
  intro s t hn h
  have hend := stepEnd_of_next hn h
  obtain ⟨used, _, hpos⟩ := stepEnd_took hend
  exact ⟨hpos ▸ Nat.le_add_right _ _, stepEnd_txlog hend⟩

/-- Settles O54: a draw of the cursor does not go back (`drawn_cursor`), an UNM adds to it, and a latch zeroes it. -/
theorem cursorOnlyMovesForward : Obligations.CursorOnlyMovesForward := by
  intro s t hs hn h
  exact stepEnd_cursor (stepEnd_of_next hn h) ((inv_iff s).1 hs).1

/-- Settles O10. -/
theorem resetStateHasResetValues : Obligations.ResetStateHasResetValues :=
  ⟨rfl, rfl, rfl, rfl, rfl, rfl, rfl, rfl, rfl⟩

/-- Settles O12: `accept` refuses what the free machine takes next (`step_faulted_free`). -/
theorem faultedMachineRefuses : Obligations.FaultedMachineRefuses := by
  intro s hf
  exact ⟨exec_faulted hf, fun c u htakes => step_faulted_free hf htakes.1 (nextInput_of_takes htakes)⟩

end Sys2Proof.Proofs
end

section
/-! Operations that wait for the transport with no answer to come (20_memory.md R52, R54; log 6): a waiting operation is taken up
by the next step, which without an answer makes it wait again in the same state; and a SEND meets only its write. -/

namespace Sys2Proof.Proofs

open Sys2Proof Sys2Proof.Machine Sys2Proof.Laws Sys2Proof.Claims

/-! ## A state that a step does not change -/

/-- A fixed point of the step stays one over any number of steps. -/
theorem run_of_step_fixed {M : Host.Core} {s : M.State} (h : M.step s = .next s) (n : Nat) : M.run n s = .next s := by
  induction n with
  | zero => rfl
  | succ n ih => rw [Host.Core.run, h]; exact ih

/-- Where nothing waits there is nothing to take up. -/
theorem unblock_of_free {s : State} (h : s.pending = none) : unblock s = s := by
  rw [unblock, ← h]

/-- With nothing issued, the step after a wait takes the operation up from the state it waited in. -/
theorem step_block {u : State} (p : Pending) (hi : u.issued = none) (hf : u.faulted = false) :
    step (block p u) = .next (resumed Config.hardware p (unblock u)) :=
  (step_resumes (s := block p u) rfl hi hf).trans
    (congrArg _ (resumed_ignoresResp Config.hardware p none (unblock u)))

/-- An operation that waits again when it is taken up waits for ever. -/
theorem run_block {u : State} {p : Pending} (hi : u.issued = none) (hf : u.faulted = false)
    (hagain : resumed Config.hardware p (unblock u) = block p u) (n : Nat) :
    Host.Core.run core n (block p u) = .next (block p u) :=
  run_of_step_fixed (M := core) ((step_block p hi hf).trans (congrArg _ hagain)) n

/-! ## A DEC without an answer -/

/-- A DEC that waits has taken every answer, and waits again in the same state when it is taken up with none. -/
theorem decFirst_waits {u : State} (cfg : Cfg) (hp : u.pending = none) (hi : u.issued = none)
    (hwait : (decFirst cfg u).pending.isSome = true) :
    ∃ p k, decFirst cfg u = block p (tookRx [] k u) ∧ resumed cfg p (tookRx [] k u) = block p (tookRx [] k u) := by
  rcases decFirst_waitsToResume hp hi cfg with h | ⟨p, k, h, hmore⟩
  · simp [h] at hwait
  · have hnone := hmore []
    rw [withMoreRx_nil, h] at hnone
    exact ⟨p, k, h, hnone.symm⟩

/-! ## A SEND and the answer to its write -/

/-- A SEND that runs faults, or offers its frame: the same frame whatever the answers to its write. -/
theorem exec_send_cases {c : Half} {sh : Shape} {v : Value} {s t : State} (hf : s.faulted = false)
    (ht : exec (.send c sh v) s = .next t) :
    (∃ e, t = fault e s) ∨
    ∃ f, t = offer f s ∧ ∀ l, exec (.send c sh v) { s with tx := l } = .next (offer f { s with tx := l }) := by
  obtain rfl : sendFrame Config.hardware c sh v s = t := by simpa [exec, execSend, hf] using ht
  rcases sendFrame_cases Config.hardware c sh v s with ⟨e, h⟩ | ⟨ha, hc, f, he, h⟩
  · exact Or.inl ⟨e, h⟩
  · exact Or.inr ⟨f, h, fun l => by simp [exec, execSend, sendFrame, hf, ha, hc, he]⟩

/-- A frame offered where no answer stands waits. -/
theorem offer_waits (f : Bytes) {s : State} (h : s.tx = []) : offer f s = block (.send f) s := by
  simp [offer, h]

/-- A SEND that waits without an answer waits for ever. -/
theorem run_block_send {s : State} (f : Bytes) (htx : s.tx = []) (hi : s.issued = none) (hf : s.faulted = false) (n : Nat) :
    Host.Core.run core n (block (.send f) s) = .next (block (.send f) s) :=
  run_block (p := .send f) hi hf (offer_waits (s := unblock s) f htx) n

section
variable {s : State} {f : Bytes} (hp : s.pending = some (.send f)) (c : Command)
include hp

/-- The host cannot issue any operation over a waiting SEND and keep its duty 2 (60_exceptions.md R221). -/
theorem hostIssues_over_send (hi : s.issued = none) : hostIssues (.op c) s = none := by
  simp [hostIssues, breaksDuty, overtakes, hp, hi]

/-- Nor does a step answer one that is issued all the same. -/
theorem step_over_send (hi : s.issued = some (.op c)) : step s = .refused .dutyBroken := by
  simp [step, nextWork, duringWait, overtakes, hp, hi]

end

/-! ## The obligations -/

/-- Settles O33: a DEC waits where every answer is taken (`decFirst_waits`), having only invalidated `FR` and counted bytes, and
each step makes it wait again (`run_block`). -/
theorem unansweredDecWaits : Obligations.UnansweredDecWaits := by
  intro s t hf ha hi ht hwait
  rw [exec_dec_running hf ha] at ht
  obtain rfl : decFirst Config.hardware (invalidate (unblock s)) = t := by simpa using ht
  obtain ⟨p, k, h, hagain⟩ := decFirst_waits Config.hardware (u := invalidate (unblock s)) rfl hi hwait
  rw [h]
  exact ⟨rfl, rfl, rfl, rfl, rfl, ha, rfl, run_block (u := tookRx [] k (invalidate (unblock s))) hi hf hagain⟩

/-- Settles O47: what waits is the offer of the frame (`exec_send_cases`), and the step makes that offer to the answer that has
come (`step_block`). -/
theorem waitingSendResumesExactly : Obligations.WaitingSendResumesExactly := by
  intro c sh v s t a rest hf hp hi htx ht hwait
  rcases exec_send_cases hf ht with ⟨e, rfl⟩ | ⟨f, rfl, hsend⟩
  · simp [hp] at hwait
  · rw [offer_waits f htx, hsend]
    have hfree : unblock { s with tx := a :: rest } = { s with tx := a :: rest } := unblock_of_free hp
    exact (step_block (u := { s with tx := a :: rest }) (.send f) hi hf).trans (by rw [hfree, resumed])

/-- Settles O60: only the wait gives no answer (`offer_cases`); each step makes the SEND wait again, whatever is planned
(`run_block_send`), and no operation overtakes it (`hostIssues_over_send`, `step_over_send`). -/
theorem unansweredSendWaits : Obligations.UnansweredSendWaits := by
  intro c sh v s t hf hi ht hresp
  rcases exec_send_cases hf ht with ⟨e, rfl⟩ | ⟨f, rfl, _⟩
  · simp at hresp
  · rcases offer_cases f s with ⟨rest, _, h⟩ | ⟨k, rest, _, h⟩ | ⟨htx, h⟩
    · simp [h] at hresp
    · simp [h] at hresp
    · rw [h]
      exact ⟨htx, ⟨f, rfl⟩, run_block_send f htx hi hf,
        run_block_send (s := { s with hostq := detCommand :: s.hostq }) f htx hi hf,
        hostIssues_over_send rfl _ hi, step_over_send rfl _ rfl⟩

end Sys2Proof.Proofs
end

section
/-! The command word (30_encoding.md R80 to R84): the decoder by the two fields of the word, the encoder as its inverse, and what
a free machine does with the command that it takes. -/

namespace Sys2Proof.Proofs

open Sys2Proof Sys2Proof.Machine Sys2Proof.Laws Sys2Proof.Claims

/-! ## The decoder by the fields of the word -/

/-- The rows of R81 whose `SUB` is a shape tag. -/
def takesTag : Opcode → Bool
  | .mar => true
  | .unm => true
  | _ => false

theorem takesTag_iff (o : Opcode) : takesTag o = true ↔ opcodeByte o = 0x30#8 ∨ opcodeByte o = 0x31#8 := by
  cases o <;> decide

section
variable {c : Command}

theorem decodeCommand_mar {t : ShapeTag} (ho : opcOf c.op = opcodeByte .mar) (hs : subOf c.op = tagByte t) :
    decodeCommand c = decodeMar t c.args := by
  simp [decodeCommand, ho, hs]

theorem decodeCommand_unm {t : ShapeTag} (ho : opcOf c.op = opcodeByte .unm) (hs : subOf c.op = tagByte t) :
    decodeCommand c = decodeUnm t c.args := by
  simp [decodeCommand, ho, hs]

theorem decodeCommand_badTag {o : Opcode} (ho : opcOf c.op = opcodeByte o) (hp : takesTag o = true)
    (hs : tagFrom (subOf c.op) = none) : decodeCommand c = .reject .badSub := by
  cases o with
  | mar | unm => simp [decodeCommand, ho, hs]
  | _ => cases hp

theorem decodeCommand_untagged {o : Opcode} (ho : opcOf c.op = opcodeByte o) (hp : takesTag o = false) :
    decodeCommand c = if subOf c.op = 0x00#8 then decodeOperands o c.args else .reject .badSub := by
  rw [decodeCommand, ho, opcodeFrom_byte]
  cases o with
  | mar | unm => cases hp
  | _ => rfl

end

/-- What reads a command's operands: the row of R81 and the tag of R82 that its word names; or nothing does. -/
inductive ReadBy (c : Command) : Prop
  | mar (t : ShapeTag) : opcOf c.op = opcodeByte .mar → subOf c.op = tagByte t → decodeCommand c = decodeMar t c.args →
      ReadBy c
  | unm (t : ShapeTag) : opcOf c.op = opcodeByte .unm → subOf c.op = tagByte t → decodeCommand c = decodeUnm t c.args →
      ReadBy c
  | untagged (o : Opcode) : opcOf c.op = opcodeByte o → takesTag o = false → subOf c.op = 0x00#8 →
      decodeCommand c = decodeOperands o c.args → ReadBy c
  | badSub : decodeCommand c = .reject .badSub → ReadBy c
  | unknownOpcode : decodeCommand c = .reject .unknownOpcode → ReadBy c

theorem command_readBy (c : Command) : ReadBy c := by
  cases hopc : opcodeFrom (opcOf c.op) with
  | none => exact .unknownOpcode (by simp [decodeCommand, hopc])
  | some o =>
    have ho := (opcodeFrom_some hopc).symm
    cases hp : takesTag o with
    | false =>
      have hd := decodeCommand_untagged ho hp
      by_cases hs : subOf c.op = 0x00#8
      · exact .untagged o ho hp hs (hd.trans (if_pos hs))
      · exact .badSub (hd.trans (if_neg hs))
    | true =>
      cases htag : tagFrom (subOf c.op) with
      | none => exact .badSub (decodeCommand_badTag ho hp htag)
      | some t =>
        have hs := (tagFrom_some htag).symm
        cases o with
        | mar => exact .mar t ho hs (decodeCommand_mar ho hs)
        | unm => exact .unm t ho hs (decodeCommand_unm ho hs)
        | _ => cases hp

/-! ## MAR and UNM of any tag as one row each -/

theorem wf_marInstr (t : ShapeTag) (sh : Shape) (v : Value) : (marInstr t sh v).wf = true ↔ sh.tag = t := by
  cases t <;> exact decide_eq_true_iff

theorem wf_unmInstr (t : ShapeTag) (sh : Shape) : (unmInstr t sh).wf = true ↔ sh.tag = t := by
  cases t <;> exact decide_eq_true_iff

theorem encode_marInstr (t : ShapeTag) (sh : Shape) (v : Value) :
    encode (marInstr t sh v) = .command ⟨opWord (opcodeByte .mar) (tagByte t), [.shape sh, .value v]⟩ := by
  cases t <;> rfl

theorem encode_unmInstr (t : ShapeTag) (sh : Shape) :
    encode (unmInstr t sh) = .command ⟨opWord (opcodeByte .unm) (tagByte t), [.shape sh]⟩ := by
  cases t <;> rfl

/-! ## Decoding an encoded instruction -/

theorem decode_encode_mar {t : ShapeTag} {sh : Shape} {v : Value} (h : (marInstr t sh v).wf = true) :
    decode (encode (marInstr t sh v)) = .instr (marInstr t sh v) := by
  rw [encode_marInstr, decode, decodeCommand_mar (c := ⟨opWord _ _, _⟩) (opcOf_opWord _ _) (subOf_opWord _ _)]
  exact if_pos ((wf_marInstr t sh v).1 h)

theorem decode_encode_unm {t : ShapeTag} {sh : Shape} (h : (unmInstr t sh).wf = true) :
    decode (encode (unmInstr t sh)) = .instr (unmInstr t sh) := by
  rw [encode_unmInstr, decode, decodeCommand_unm (c := ⟨opWord _ _, _⟩) (opcOf_opWord _ _) (subOf_opWord _ _)]
  exact if_pos ((wf_unmInstr t sh).1 h)

theorem decode_untagged {o : Opcode} {args : List Operand} {i : Instr} (hp : takesTag o = false)
    (h : decodeOperands o args = .instr i) :
    decode (.command ⟨opWord (opcodeByte o) 0x00#8, args⟩) = .instr i := by
  rw [decode, decodeCommand_untagged (c := ⟨opWord _ _, _⟩) (opcOf_opWord _ _) hp, if_pos (subOf_opWord _ _), h]

/-- Settles O1: row by row, the word gives back its fields (`opcOf_opWord`, `subOf_opWord`) and so the decoder of that row's
operands; MAR and UNM find the tag of their shape, which well-formedness says. -/
theorem decodeEncodeAgree : Obligations.DecodeEncodeAgree := by
  intro i hwf
  cases i with
  | chkx s => exact decode_untagged (o := .chkx) rfl rfl
  | chkc s => exact decode_untagged (o := .chkc) rfl rfl
  | enc1 c p => exact decode_untagged (o := .enc1) rfl rfl
  | enc2 c p => exact decode_untagged (o := .enc2) rfl rfl
  | dec => exact decode_untagged (o := .dec) rfl rfl
  | marU8 sh v => exact decode_encode_mar (t := .u8) hwf
  | marU16 sh v => exact decode_encode_mar (t := .u16) hwf
  | marU32 sh v => exact decode_encode_mar (t := .u32) hwf
  | marAgg sh v => exact decode_encode_mar (t := .agg) hwf
  | marSeq sh v => exact decode_encode_mar (t := .seq) hwf
  | unmU8 sh => exact decode_encode_unm (t := .u8) hwf
  | unmU16 sh => exact decode_encode_unm (t := .u16) hwf
  | unmU32 sh => exact decode_encode_unm (t := .u32) hwf
  | unmAgg sh => exact decode_encode_unm (t := .agg) hwf
  | unmSeq sh => exact decode_encode_unm (t := .seq) hwf
  | send c sh v => exact decode_untagged (o := .send) rfl rfl
  | att name baud => exact decode_untagged (o := .att) rfl rfl
  | det => exact decode_untagged (o := .det) rfl rfl
  | frameV1 => rfl
  | frameV2 => rfl

/-- Settles O3. -/
theorem commandWordsDecode : Obligations.CommandWordsDecode :=
  ⟨rfl, rfl, rfl, rfl, rfl, rfl, rfl, rfl⟩

/-! ## Encoding a decoded instruction -/

theorem decodeMar_instr {t : ShapeTag} {args : List Operand} {i : Instr} (h : decodeMar t args = .instr i) :
    ∃ sh v, args = [.shape sh, .value v] ∧ sh.tag = t ∧ i = marInstr t sh v := by
  unfold decodeMar at h
  split at h
  next sh v =>
    split at h
    next ht => exact ⟨sh, v, rfl, ht, (Decoded.instr.inj h).symm⟩
    next => cases h
  next => cases h
  next => cases h

theorem decodeUnm_instr {t : ShapeTag} {args : List Operand} {i : Instr} (h : decodeUnm t args = .instr i) :
    ∃ sh, args = [.shape sh] ∧ sh.tag = t ∧ i = unmInstr t sh := by
  unfold decodeUnm at h
  split at h
  next sh =>
    split at h
    next ht => exact ⟨sh, rfl, ht, (Decoded.instr.inj h).symm⟩
    next => cases h
  next => cases h
  next => cases h

theorem decodeOperands_instr {o : Opcode} {args : List Operand} {i : Instr} (h : decodeOperands o args = .instr i) :
    i.wf = true ∧ encode i = .command ⟨opWord (opcodeByte o) 0x00#8, args⟩ := by
  unfold decodeOperands at h
  split at h <;> cases h <;> exact ⟨rfl, rfl⟩

theorem decodeWire_instr {b0 b1 : Byte} {i : Instr} (h : decodeWire b0 b1 = .instr i) :
    i.wf = true ∧ encode i = .wire b0 b1 := by
  unfold decodeWire decodeVersion at h
  split at h
  next h0 =>
    subst h0
    split at h
    next h1 => cases h; exact ⟨rfl, by rw [h1]; rfl⟩
    next =>
      split at h
      next h1 => cases h; exact ⟨rfl, by rw [h1]; rfl⟩
      next => cases h
  next => cases h

/-- A command is its word's two fields and its operands. -/
theorem command_of_fields {c : Command} {opc sub : Byte} {args : List Operand} (ho : opcOf c.op = opc) (hs : subOf c.op = sub)
    (ha : c.args = args) : Encoded.command ⟨opWord opc sub, args⟩ = .command c := by
  rw [← ho, ← hs, ← ha, opWord_fields]

theorem decodeCommand_instr {c : Command} {i : Instr} (h : decodeCommand c = .instr i) :
    i.wf = true ∧ encode i = .command c := by
  cases command_readBy c with
  | mar t ho hs hd =>
    obtain ⟨sh, v, ha, ht, rfl⟩ := decodeMar_instr (hd.symm.trans h)
    exact ⟨(wf_marInstr t sh v).2 ht, by rw [encode_marInstr, command_of_fields ho hs ha]⟩
  | unm t ho hs hd =>
    obtain ⟨sh, ha, ht, rfl⟩ := decodeUnm_instr (hd.symm.trans h)
    exact ⟨(wf_unmInstr t sh).2 ht, by rw [encode_unmInstr, command_of_fields ho hs ha]⟩
  | untagged o ho _ hs hd =>
    obtain ⟨hwf, henc⟩ := decodeOperands_instr (hd.symm.trans h)
    exact ⟨hwf, by rw [henc, command_of_fields ho hs rfl]⟩
  | badSub hd => cases hd.symm.trans h
  | unknownOpcode hd => cases hd.symm.trans h

/-- Settles O2: what reads a command's operands is told by its word (`command_readBy`), which the encoder writes again from the
same row, and the operands are the instruction's own. -/
theorem encodeDecodeAgree : Obligations.EncodeDecodeAgree := by
  intro e i h
  cases e with
  | command c => exact decodeCommand_instr h
  | wire b0 b1 => exact decodeWire_instr h

/-! ## What a free machine does with the command it takes -/

section
variable {s u : State} {c : Command} (htakes : Takes (.op c) s u)
include htakes

theorem step_takes_instr {i : Instr} (hd : decodeCommand c = .instr i) : step s = exec i u := by
  simp [step, nextWork, takeInput, htakes.1, nextInput_of_takes htakes, hd]

theorem step_takes_reject {r : Reject} (hf : s.faulted = false) (hd : decodeCommand c = .reject r) :
    step s = .next (fault (rejectFault r) u) := by
  have hu : u.faulted = false := by
    obtain ⟨q, rfl⟩ := nextInput_taken (nextInput_of_takes htakes)
    exact hf
  simp [step, nextWork, takeInput, rejectOp, htakes.1, nextInput_of_takes htakes, hd, hu]

end

/-- Settles O7: what is issued is taken, and else the first thing planned (`step_takes_instr`). -/
theorem stepRunsDeliveredCommand : Obligations.StepRunsDeliveredCommand := by
  intro s c i hp hd
  exact ⟨fun hi => step_takes_instr ⟨hp, Or.inl ⟨hi, rfl⟩⟩ hd,
    fun q hi hq => step_takes_instr ⟨hp, Or.inr ⟨hi, q, hq, rfl⟩⟩ hd⟩

/-! ## Illegal command words (R83) -/

/-- The decoder rejects, with R83's fault. -/
def RejectsAsIllegal (d : Decoded) : Prop := ∃ r, d = .reject r ∧ rejectFault r = .illegalOp

/-- An operand that may stand where a row names this type: a shape outside the grammar stands for a shape (R84). -/
def Accepts (k : Kind) (a : Operand) : Prop := kindOf a = k ∨ k = .shape ∧ kindOf a = .foreign

/-- Operands that may stand in the row of this `OPC`. -/
def FitsRow (opc : Byte) (args : List Operand) : Prop := ∃ ks, rowKinds opc = some ks ∧ List.Forall₂ Accepts ks args

/-- None of the operands is a shape of another tag. -/
def ShapesTagged (t : ShapeTag) (args : List Operand) : Prop := ∀ sh, .shape sh ∈ args → sh.tag = t

theorem decodeOperands_cases {o : Opcode} (hp : takesTag o = false) (args : List Operand) :
    RejectsAsIllegal (decodeOperands o args) ∨ FitsRow (opcodeByte o) args := by
  unfold decodeOperands
  split
  case h_10 => exact Or.inl ⟨_, rfl, rfl⟩
  all_goals exact Or.inr ⟨_, rfl, by simp [Accepts, kindOf]⟩

theorem decodeMar_cases (t : ShapeTag) (args : List Operand) :
    RejectsAsIllegal (decodeMar t args) ∨ FitsRow (opcodeByte .mar) args ∧ ShapesTagged t args := by
  unfold decodeMar
  split
  next sh v =>
    by_cases ht : sh.tag = t
    · exact Or.inr ⟨⟨_, rfl, by simp [Accepts, kindOf]⟩, by simp [ShapesTagged, ht]⟩
    · exact Or.inl ⟨_, if_neg ht, rfl⟩
  next => exact Or.inr ⟨⟨_, rfl, by simp [Accepts, kindOf]⟩, by simp [ShapesTagged]⟩
  next => exact Or.inl ⟨_, rfl, rfl⟩

theorem decodeUnm_cases (t : ShapeTag) (args : List Operand) :
    RejectsAsIllegal (decodeUnm t args) ∨ FitsRow (opcodeByte .unm) args ∧ ShapesTagged t args := by
  unfold decodeUnm
  split
  next sh =>
    by_cases ht : sh.tag = t
    · exact Or.inr ⟨⟨_, rfl, by simp [Accepts, kindOf]⟩, by simp [ShapesTagged, ht]⟩
    · exact Or.inl ⟨_, if_neg ht, rfl⟩
  next => exact Or.inr ⟨⟨_, rfl, by simp [Accepts, kindOf]⟩, by simp [ShapesTagged]⟩
  next => exact Or.inl ⟨_, rfl, rfl⟩

/-- Operands that fit their row have none of a wrong type and none missing. -/
theorem FitsRow.not_wrong {opc : Byte} {args : List Operand} (h : FitsRow opc args) :
    ¬ ∃ ks, rowKinds opc = some ks ∧ ∃ i < ks.length, (args.map kindOf)[i]? ≠ ks[i]? ∧
      ¬ (ks[i]? = some .shape ∧ (args.map kindOf)[i]? = some .foreign) := by
  rintro ⟨ks, hk, i, hi, hne, hforeign⟩
  obtain ⟨ks', hk', hargs⟩ := h
  cases hk.symm.trans hk'
  have hi' : i < args.length := hargs.length_eq ▸ hi
  rcases hargs.get hi hi' with ha | ⟨hs, ha⟩
  · exact hne (by simpa [hi, hi'] using ha)
  · exact hforeign (by simpa [hi, hi'] using ⟨hs, ha⟩)

theorem tagNumber_eq (sh : Shape) : tagNumber sh = tagByte sh.tag := by
  cases sh <;> rfl

theorem tagByte_mem (t : ShapeTag) : tagByte t ∈ [0x01#8, 0x02#8, 0x04#8, 0x10#8, 0x20#8] := by
  cases t <;> decide

section
variable {c : Command} {o : Opcode} (ho : opcOf c.op = opcodeByte o) (hargs : FitsRow (opcodeByte o) c.args)
include ho hargs

theorem not_illegal_untagged (hp : takesTag o = false) (hs : subOf c.op = 0x00#8) : ¬ Illegal c := by
  have hopc : ¬ (opcodeByte o = 0x30#8 ∨ opcodeByte o = 0x31#8) := fun h => by simp [(takesTag_iff o).2 h] at hp
  rw [Illegal, ho]
  rintro (h | ⟨_, _, h⟩ | ⟨h, _⟩ | ⟨_, _, h, _⟩ | ⟨_, h, _⟩ | h)
  · obtain ⟨ks, hk, _⟩ := hargs
    cases hk.symm.trans h
  · exact h hs
  · exact hopc h
  · exact hopc (Or.inl h)
  · exact hopc (Or.inr h)
  · exact hargs.not_wrong h

theorem not_illegal_tagged {t : ShapeTag} (hp : takesTag o = true) (hs : subOf c.op = tagByte t)
    (htag : ShapesTagged t c.args) : ¬ Illegal c := by
  have hshape : ∀ sh, .shape sh ∈ c.args → subOf c.op = tagNumber sh := fun sh h => by rw [tagNumber_eq, htag sh h, hs]
  rw [Illegal, ho]
  rintro (h | ⟨h30, h31, _⟩ | ⟨_, h⟩ | ⟨sh, v, _, ha, h⟩ | ⟨sh, _, ha, h⟩ | h)
  · obtain ⟨ks, hk, _⟩ := hargs
    cases hk.symm.trans h
  · exact ((takesTag_iff o).1 hp).elim h30 h31
  · exact h (hs ▸ tagByte_mem t)
  · exact h (hshape sh (by simp [ha]))
  · exact h (hshape sh (by simp [ha]))
  · exact hargs.not_wrong h

end

theorem illegal_rejected {c : Command} (h : Illegal c) : RejectsAsIllegal (decodeCommand c) := by
  cases command_readBy c with
  | mar t ho hs hd =>
    rcases decodeMar_cases t c.args with hr | ⟨hargs, htag⟩
    · rwa [hd]
    · exact absurd h (not_illegal_tagged ho hargs rfl hs htag)
  | unm t ho hs hd =>
    rcases decodeUnm_cases t c.args with hr | ⟨hargs, htag⟩
    · rwa [hd]
    · exact absurd h (not_illegal_tagged ho hargs rfl hs htag)
  | untagged o ho hp hs hd =>
    rcases decodeOperands_cases hp c.args with hr | hargs
    · rwa [hd]
    · exact absurd h (not_illegal_untagged ho hargs hp hs)
  | badSub hd => exact ⟨_, hd, rfl⟩
  | unknownOpcode hd => exact ⟨_, hd, rfl⟩

/-- Settles O4: a word that the decoder takes, or rejects with another fault, names a row that its operands fit, so none of R83's
cases holds of it (`illegal_rejected`). -/
theorem illegalCommandsFault : Obligations.IllegalCommandsFault := by
  intro s u c htakes hf hillegal
  obtain ⟨r, hd, hr⟩ := illegal_rejected hillegal
  rw [step_takes_reject htakes hf hd, hr]
  rfl

/-! ## Shapes outside the grammar (R84), and shapes of another tag -/

theorem tagByte_of_mem {b : Byte} (h : b ∈ [0x01#8, 0x02#8, 0x04#8, 0x10#8, 0x20#8]) : ∃ t, b = tagByte t := by
  simp only [List.mem_cons, List.not_mem_nil, or_false] at h
  rcases h with rfl | rfl | rfl | rfl | rfl
  exacts [⟨.u8, rfl⟩, ⟨.u16, rfl⟩, ⟨.u32, rfl⟩, ⟨.agg, rfl⟩, ⟨.seq, rfl⟩]

/-- Settles O5: each of the three rows rejects such an operand list with R84's reason. -/
theorem unsupportedShapesFault : Obligations.UnsupportedShapesFault := by
  intro s u c v cmd htakes hf hforeign
  have hd : decodeCommand c = .reject .unsupportedShape := by
    rcases hforeign with ⟨ho, hs, ha⟩ | ⟨ho, hs, ha⟩ | ⟨hop, ha⟩
    · obtain ⟨t, hs⟩ := tagByte_of_mem hs
      rw [decodeCommand_mar ho hs, ha]; rfl
    · obtain ⟨t, hs⟩ := tagByte_of_mem hs
      rw [decodeCommand_unm ho hs, ha]; rfl
    · have ho : opcOf c.op = opcodeByte .send := by rw [hop]; decide
      have hs : subOf c.op = 0x00#8 := by rw [hop]; decide
      rw [decodeCommand_untagged ho rfl, if_pos hs, ha]; rfl
  exact step_takes_reject htakes hf hd

theorem exec_marInstr_tagged (t : ShapeTag) (sh : Shape) (v : Value) (s : State) :
    exec (marInstr t sh v) s = .next (marshalTagged t sh v s) := by
  cases t <;> rfl

theorem exec_unmInstr_tagged (t : ShapeTag) (sh : Shape) (s : State) :
    exec (unmInstr t sh) s = .next (unmarshalTagged t sh s) := by
  cases t <;> rfl

/-- Settles O6, by the check of the tag (`requireTag_other`). -/
theorem tagMismatchFaults : Obligations.TagMismatchFaults := by
  intro t sh v s hf ht
  rw [exec_marInstr_tagged, exec_unmInstr_tagged, marshalTagged, unmarshalTagged, accept_running hf, accept_running hf,
    requireTag_other ht, requireTag_other ht]
  exact ⟨rfl, rfl⟩

end Sys2Proof.Proofs
end

section
/-! SEND as MAR, ENC1 and a write (30_encoding.md R87), and the direction byte of a frame's header (R78). -/

namespace Sys2Proof.Proofs

open Sys2Proof Sys2Proof.Machine Sys2Proof.Laws Sys2Proof.Claims

/-! ## SEND by its parts -/

/-- A MAR body that answers bytes has laid the value out. -/
theorem marshal_ok {sh : Shape} {v : Value} {s : State} {p : Bytes} (h : (marshal sh v s).resp = some (.ok (.bytes p))) :
    conforms sh v = true ∧ layout sh v = p ∧ marshal sh v s = finish (.bytes p) s := by
  unfold marshal at h ⊢
  cases hc : conforms sh v with
  | false => simp [hc] at h
  | true =>
    obtain rfl : layout sh v = p := by simpa [hc] using h
    exact ⟨rfl, rfl, rfl⟩

/-- An encoder that answers bytes has made that frame. -/
theorem finishEncode_ok {r : EncodeResult} {s : State} {f : Bytes} (h : (finishEncode r s).resp = some (.ok (.bytes f))) :
    r = .frame f ∧ finishEncode r s = finish (.bytes f) s := by
  cases r with
  | frame g =>
    obtain rfl : g = f := by simpa [finishEncode] using h
    exact ⟨rfl, rfl⟩
  | fault e => simp [finishEncode] at h

/-- SEND of a value whose frame can be made, attached, offers that frame. -/
theorem exec_send_offers {c : Half} {sh : Shape} {v : Value} {s : State} {f : Bytes} (hf : s.faulted = false)
    (ha : s.attached = true) (hc : conforms sh v = true) (he : enc1 Config.hardware c (layout sh v) = .frame f) :
    exec (.send c sh v) s = .next (offer f s) := by
  simp [exec, execSend, sendFrame, hf, ha, hc, he]

theorem offer_accepted {f : Bytes} {s : State} {rest : List TxAnswer} (h : s.tx = .ok :: rest) :
    offer f s = finish .none { s with tx := rest, txlog := s.txlog ++ f } := by
  simp [offer, h]

/-- Settles O46: MAR answers the layout (`marshal_ok`), ENC1 its frame (`finishEncode_ok`), and SEND offers that frame; MAR and
ENC1 write only STATUS and the answer, which the write writes again. -/
theorem sendIsMarEncWrite : Obligations.SendIsMarEncWrite := by
  intro c sh v s t u p f rest hf ha htx ht htp hu huf
  obtain rfl : marshal sh v s = t := Host.Outcome.next.inj ((exec_marInstr sh v s hf).symm.trans ht)
  obtain ⟨hc, rfl, hmar⟩ := marshal_ok htp
  rw [hmar] at hu
  obtain rfl : finishEncode (enc1 Config.hardware c (layout sh v)) (finish (.bytes (layout sh v)) s) = u := by
    simpa [exec, execEnc1, hf] using hu
  obtain ⟨he, henc⟩ := finishEncode_ok huf
  rw [exec_send_offers hf ha hc he, offer_accepted htx, henc]
  rfl

/-! ## An illegal direction byte -/

/-- DEC's two framing bytes, delivered, select the path. -/
theorem decFirst_selects {cfg : Cfg} {b : Byte} {rest : List RxAnswer} {s : State}
    (h : s.rx = .byte chDollar :: .byte b :: rest) : decFirst cfg s = decSelect cfg b (tookRx rest 2 s) := by
  have hsecond : decSecond cfg (tookRx (.byte b :: rest) 1 s) = decSelect cfg b (tookRx rest 2 s) := by
    rw [decSecond, rxRead_byte rfl, tookRx_tookRx]
  rw [decFirst, rxRead_byte h, ← hsecond]
  exact if_pos rfl

/-- A path whose header holds an illegal direction byte ends with it, the header read and nothing after it. -/
theorem framePath_badDirection (hold : Bytes → Pending) (len : Bytes → Nat) (check : Nat → Bytes → State → State)
    {hdr : Bytes} {rest : List RxAnswer} {s : State} (hd : isDirection (byteAt hdr 0) = false)
    (h : s.rx = bytesRx hdr ++ rest) :
    framePath hold hdr.length len check [] s =
      raise (.malformedHeader .direction (byteAt hdr 0)) (tookRx rest hdr.length s) := by
  rw [framePath, readTo_bytes hold hdr.length [] hdr rest s _ (Nat.sub_zero _) h, List.nil_append, afterHeader, hd,
    if_neg Bool.false_ne_true]

/-- DEC ended by an illegal direction byte after `k` bytes. -/
theorem badDirection_end (d : Byte) (rest : List RxAnswer) (k : Nat) (s : State) :
    let t := raise (.malformedHeader .direction d) (tookRx rest k (invalidate (unblock s)))
    DecError 0x12#8 ⟨0, [], 0, 0, d, .direction⟩ t ∧ DecKeeps s t ∧ t.rxpos = s.rxpos + k ∧ t.rx = rest :=
  ⟨⟨rfl, rfl, rfl, rfl⟩, ⟨rfl, rfl, rfl, rfl, rfl, rfl, rfl, rfl, rfl⟩, rfl, rfl⟩

/-- Settles O28: both paths read their header before they look at its direction (`framePath_badDirection`). -/
theorem decRejectsBadDirection : Obligations.DecRejectsBadDirection := by
  intro s d rest hf ha hlt hgt
  have hd : isDirection d = false := by
    rw [Bool.eq_false_iff, ne_eq, isDirection_iff]
    exact not_or.2 ⟨hlt, hgt⟩
  rw [exec_dec_running hf ha]
  constructor
  · intro l k hrx
    have hpath : decV1 [] (tookRx (bytesRx [d, l, k] ++ rest) 2 (invalidate (unblock s))) =
        raise (.malformedHeader .direction d) (tookRx rest 5 (invalidate (unblock s))) := by
      rw [decV1_eq]
      exact framePath_badDirection .decV1 lenV1 checkV1 (hdr := [d, l, k]) hd rfl
    refine ⟨_, ?_, badDirection_end d rest 5 s⟩
    rw [← hpath, decFirst_selects (s := invalidate (unblock s)) (b := chM) hrx]
    rfl
  · intro f cl ch ll lh hrx
    have hpath : decV2 Config.hardware [] (tookRx (bytesRx [d, f, cl, ch, ll, lh] ++ rest) 2 (invalidate (unblock s))) =
        raise (.malformedHeader .direction d) (tookRx rest 8 (invalidate (unblock s))) := by
      rw [decV2_eq]
      exact framePath_badDirection .decV2 lenV2 (checkV2 Config.hardware) (hdr := [d, f, cl, ch, ll, lh]) hd rfl
    refine ⟨_, ?_, badDirection_end d rest 8 s⟩
    rw [← hpath, decFirst_selects (s := invalidate (unblock s)) (b := chX) hrx]
    rfl

end Sys2Proof.Proofs
end

section
/-! The Checksum Engine (40_checksum.md): the exclusive-or as a sum in which order does not matter (R100), and the CRC as a
register fed one bit at a time (R102) whose steps lose nothing. -/

namespace Sys2Proof.Proofs

open Sys2Proof Sys2Proof.Machine Sys2Proof.Laws Sys2Proof.Claims

/-! ## The exclusive-or (R100, R101) -/

theorem xorChk_eq_foldr (s : Bytes) : xorChk s = s.foldr (fun x c => x ^^^ c) 0x00#8 :=
  List.foldl_eq_foldr

theorem xorChk_cons (a : Byte) (s : Bytes) : xorChk (a :: s) = a ^^^ xorChk s := by
  rw [xorChk_eq_foldr, xorChk_eq_foldr, List.foldr_cons]

theorem xorChk_append (s t : Bytes) : xorChk (s ++ t) = xorChk s ^^^ xorChk t := by
  induction s with
  | nil => exact BitVec.zero_xor.symm
  | cons a s ih => rw [List.cons_append, xorChk_cons, xorChk_cons, ih, BitVec.xor_assoc]

theorem xorChk_perm {s t : Bytes} (h : s.Perm t) : xorChk s = xorChk t :=
  h.foldl_eq _

theorem exec_chkx (b : Bytes) {s : State} (hf : s.faulted = false) :
    exec (.chkx b) s = .next (okState (.byte (xorChk b)) s) :=
  congrArg Host.Outcome.next (accept_running hf _)

/-- Settles O15: the exclusive-or is the same from either end (`xorChk_eq_foldr`) and in any order (`xorChk_perm`). -/
theorem chkxReturnsXor : Obligations.ChkxReturnsXor := by
  intro b s hf
  constructor
  · rw [exec_chkx b hf, xorChk_eq_foldr]
  · intro b' hperm
    rw [exec_chkx b hf, exec_chkx b' hf, xorChk_perm hperm]

/-- The bytes around the changed one cancel. -/
theorem xorChk_change (pre post : Bytes) (a a' : Byte) :
    xorChk (pre ++ a :: post) ^^^ xorChk (pre ++ a' :: post) = a ^^^ a' := by
  simp only [xorChk_append, xorChk_cons]
  generalize xorChk pre = p, xorChk post = q
  calc p ^^^ (a ^^^ q) ^^^ (p ^^^ (a' ^^^ q))
    _ = a ^^^ a' ^^^ (p ^^^ p) ^^^ (q ^^^ q) := by ac_rfl
    _ = a ^^^ a' := by simp

/-- Settles O18: equal checksums would differ by zero, and so would the two bytes (`xorChk_change`). -/
theorem xorDetectsByteChange : Obligations.XorDetectsByteChange := by
  intro pre post a a' hne
  have hdiff := xorChk_change pre post a a'
  refine ⟨hdiff, fun heq => hne ?_⟩
  rwa [heq, BitVec.xor_self, eq_comm, BitVec.xor_eq_zero_iff] at hdiff

/-! ## The CRC register, bit by bit (R102) -/

/-- A step on the register with a byte laid over it takes in that byte's top bit, the rest of the byte moving up. -/
theorem crcStep_xor (c b : Byte) : crcStep (c ^^^ b) = crcBit c b.msb ^^^ (b <<< 1) := by
  have hbit : (c ^^^ b).getLsbD 7 = (c.msb != b.msb) := by
    rw [BitVec.getLsbD_xor]; rfl
  unfold crcStep crcBit
  rw [hbit, BitVec.shiftLeft_xor_distrib]
  split
  · ac_rfl
  · rfl

/-- `n` steps take in the top `n` bits of the byte laid over the register. -/
theorem crcSteps_xor (n : Nat) (c b : Byte) :
    crcSteps n (c ^^^ b) = ((List.range n).map b.getMsbD).foldl crcBit c ^^^ (b <<< n) := by
  induction n generalizing c b with
  | zero => simp [crcSteps]
  | succ n ih =>
    have hbits : (List.range (n + 1)).map b.getMsbD = b.msb :: (List.range n).map (b <<< 1).getMsbD := by
      rw [List.range_succ_eq_map, List.map_cons, List.map_map]
      congr 1
      exact List.map_congr_left fun i _ => (BitVec.getMsbD_shiftLeft b 1).symm
    rw [crcSteps, crcStep_xor, ih, hbits, List.foldl_cons, ← BitVec.shiftLeft_add, Nat.add_comm 1 n]

/-- All eight bits taken in, nothing of the byte is left. -/
theorem crcByte_eq_foldl (c b : Byte) : crcByte c b = (msbFirst b).foldl crcBit c := by
  rw [crcByte, crcSteps_xor, BitVec.shiftLeft_eq_zero (Nat.le_refl 8), BitVec.xor_zero]
  rfl

theorem crc8DvbS2_eq_bitSerial (s : Bytes) : crc8DvbS2 s = (s.flatMap msbFirst).foldl crcBit 0x00#8 := by
  rw [List.foldl_flatMap, crc8DvbS2, funext₂ crcByte_eq_foldl]

theorem exec_chkc (b : Bytes) {s : State} (hf : s.faulted = false) :
    exec (.chkc b) s = .next (okState (.byte (crc8DvbS2 b)) s) :=
  congrArg Host.Outcome.next (accept_running hf _)

/-- Settles O16: the eight steps on a byte take its bits in one at a time (`crcByte_eq_foldl`). -/
theorem chkcReturnsBitSerialCrc : Obligations.ChkcReturnsBitSerialCrc := by
  intro b s hf
  rw [exec_chkc b hf, crc8DvbS2_eq_bitSerial]

/-! ## The CRC loses nothing -/

/-- The polynomial is odd, so a step keeps the bit it shifts out as the lowest bit. -/
theorem crcStep_lowBit (c : Byte) : (crcStep c).getLsbD 0 = c.getLsbD 7 := by
  unfold crcStep
  split
  next h => rw [h, BitVec.getLsbD_xor, BitVec.getLsbD_shiftLeft]; rfl
  next h => rw [Bool.eq_false_iff.2 h, BitVec.getLsbD_shiftLeft]; rfl

/-- The shifted register and the bit shifted out of it tell the whole register. -/
theorem eq_of_shiftLeft_eq {c d : Byte} (htop : c.getLsbD 7 = d.getLsbD 7) (h : c <<< 1 = d <<< 1) : c = d := by
  refine BitVec.eq_of_getLsbD_eq fun i hi => ?_
  by_cases hi7 : i = 7
  · rw [hi7, htop]
  · have hlt : i + 1 < 8 := by omega
    simpa [hi, hlt] using congrArg (·.getLsbD (i + 1)) h

theorem crcStep_injective : Function.Injective crcStep := by
  intro c d h
  have htop : c.getLsbD 7 = d.getLsbD 7 := by rw [← crcStep_lowBit, ← crcStep_lowBit, h]
  refine eq_of_shiftLeft_eq htop ?_
  unfold crcStep at h
  rw [htop] at h
  split at h
  · exact (BitVec.xor_left_inj _).1 h
  · exact h

theorem crcSteps_injective : ∀ n, Function.Injective (crcSteps n)
  | 0 => Function.injective_id
  | n + 1 => (crcSteps_injective n).comp crcStep_injective

theorem crcByte_injective_byte (c : Byte) : Function.Injective (crcByte c) := fun _ _ h =>
  (BitVec.xor_right_inj _).1 (crcSteps_injective 8 h)

theorem crcByte_injective_register {b c d : Byte} (h : crcByte c b = crcByte d b) : c = d :=
  (BitVec.xor_left_inj _).1 (crcSteps_injective 8 h)

/-- The bytes that follow keep two registers apart. -/
theorem foldl_crcByte_injective (s : Bytes) : Function.Injective (s.foldl crcByte) := by
  induction s with
  | nil => exact Function.injective_id
  | cons b s ih => exact fun c d h => crcByte_injective_register (ih h)

/-- Settles O19: the changed byte changes the register, and nothing after it brings the two registers together. -/
theorem crcDetectsByteChange : Obligations.CrcDetectsByteChange := by
  intro pre post a a' hne heq
  simp only [crc8DvbS2, List.foldl_append, List.foldl_cons] at heq
  exact hne (crcByte_injective_byte _ (foldl_crcByte_injective post heq))

/-! ## The table-driven CRC (R105) -/

/-- The table's entry for a byte is the CRC of that byte alone; it is looked up at the register with the byte over it. -/
theorem crc8DvbS2_entry (c b : Byte) : crc8DvbS2 [c ^^^ b] = crcByte c b :=
  congrArg (crcSteps 8) BitVec.zero_xor

/-- Settles O17: each lookup is a byte's eight steps (`crc8DvbS2_entry`). -/
theorem crcEqualsTableDriven : Obligations.CrcEqualsTableDriven := by
  refine ⟨fun b => ?_, by decide⟩
  rw [funext₂ crc8DvbS2_entry, crc8DvbS2]

end Sys2Proof.Proofs
end

section
/-! Frames written by the encoders (41_frame_encode.md R110 to R116), and a whole frame read back by the decoder's paths
(42_frame_decode.md R123, R127). -/

namespace Sys2Proof.Proofs

open Sys2Proof Sys2Proof.Machine Sys2Proof.Laws Sys2Proof.Claims

/-! ## The encoders' frames, byte by byte -/

theorem le16_eq (v : Half) : le16 v = [v.setWidth 8, (v >>> 8).setWidth 8] := rfl

theorem le16_ofNat (n : Nat) : le16 (BitVec.ofNat 16 n) = [BitVec.ofNat 8 n, BitVec.ofNat 8 (n / 256)] := by
  have hhigh : (BitVec.ofNat 16 n >>> 8).setWidth 8 = BitVec.ofNat 8 (n / 256) := by
    apply BitVec.eq_of_toNat_eq
    simp only [BitVec.toNat_setWidth, BitVec.toNat_ushiftRight, BitVec.toNat_ofNat, Nat.shiftRight_eq_div_pow]
    omega
  rw [le16_eq, BitVec.setWidth_ofNat_of_le (by omega), hhigh]

theorem v2Region_length (cfg : Cfg) (p : Bytes) : (v2Region cfg p).length = p.length := by
  unfold v2Region
  cases cfg.v2EncPayload
  · exact List.length_replicate
  · rfl

theorem v2Region_eq (cfg : Cfg) (p : Bytes) :
    v2Region cfg p = if cfg.v2EncPayload = .zeroFill then List.replicate p.length 0x00#8 else p := by
  unfold v2Region
  cases cfg.v2EncPayload <;> rfl

theorem v2Body_eq (flags : Byte) (c : Half) (pay : Bytes) :
    v2Body flags c pay = [flags, c.setWidth 8, (c >>> 8).setWidth 8, BitVec.ofNat 8 pay.length,
      BitVec.ofNat 8 (pay.length / 256)] ++ pay := by
  rw [v2Body, le16_eq c, le16_ofNat]
  rfl

theorem enc1_frame (c : Half) {p : Bytes} (h : p.length ≤ 255) :
    enc1 Config.hardware c p = .frame ([chDollar, chM, chLt] ++ v1Body c p ++ [xorChk (v1Body c p)]) :=
  if_neg (Nat.not_lt.2 h)

theorem enc2_frame (cfg : Cfg) (c : Half) {p : Bytes} (h : p.length ≤ 65535) :
    enc2 cfg c p = .frame ([chDollar, chX, chLt] ++ v2Body cfg.v2EncFlags c (v2Region cfg p) ++
      [crc8DvbS2 (v2Body cfg.v2EncFlags c (v2Region cfg p))]) :=
  if_neg (Nat.not_lt.2 h)

theorem enc1_tooLong (c : Half) {p : Bytes} (h : p.length > 255) : enc1 Config.hardware c p = .fault .v1TooLong :=
  if_pos h

theorem enc2_tooLong (cfg : Cfg) (c : Half) {p : Bytes} (h : p.length > 65535) : enc2 cfg c p = .fault .v2TooLong :=
  if_pos h

section
variable (c : Half) (p : Bytes) {s : State} (hf : s.faulted = false)
include hf

theorem exec_enc1 : exec (.enc1 c p) s = .next (finishEncode (enc1 Config.hardware c p) s) :=
  congrArg Host.Outcome.next (accept_running hf _)

theorem exec_enc2 : exec (.enc2 c p) s = .next (finishEncode (enc2 Config.hardware c p) s) :=
  congrArg Host.Outcome.next (accept_running hf _)

end

/-- Settles O20: up to the limit the frame is made (`enc1_frame`), beyond it the check faults. -/
theorem enc1ReturnsFrame : Obligations.Enc1ReturnsFrame := by
  intro c p s hf
  rw [exec_enc1 c p hf]
  constructor
  · intro hlen
    rw [enc1_frame c hlen]
    exact ⟨_, rfl, by simp, rfl⟩
  · intro hlen
    rw [enc1_tooLong c hlen]
    rfl

/-- Settles O21: up to the limit the frame is made (`enc2_frame`), with the body of R74 (`v2Body_eq`) and the payload region of
R115 (`v2Region_eq`), as long as the payload for either value of the parameter; beyond the limit the check faults. -/
theorem enc2ReturnsFrame : Obligations.Enc2ReturnsFrame := by
  intro c p s hf
  rw [exec_enc2 c p hf]
  constructor
  · intro hlen
    rw [enc2_frame _ c hlen, v2Body_eq, v2Region_length]
    exact ⟨_, _, _, v2Region_eq Config.hardware p, rfl, rfl, by simp [v2Region_length], rfl⟩
  · intro hlen
    rw [enc2_tooLong _ c hlen]
    rfl

/-! ## A path whose whole frame is delivered -/

/-- A path whose bytes are held or delivered takes what it still wants of the delivered ones, and goes on. -/
theorem readTo_reaches (hold : Bytes → Pending) {n : Nat} {got more : Bytes} {rest : List RxAnswer} {s : State}
    (path : Bytes → State → State) (hn : n ≤ got.length + more.length) (h : s.rx = bytesRx more ++ rest) :
    ∃ a b, more = a ++ b ∧ n ≤ (got ++ a).length ∧
      readTo hold n got s path = path (got ++ a) (tookRx (bytesRx b ++ rest) a.length s) := by
  obtain ⟨a, b, rfl, ha⟩ : ∃ a b, more = a ++ b ∧ a.length = n - got.length :=
    ⟨_, _, (List.take_append_drop _ _).symm, List.length_take_of_le (by omega)⟩
  have hall : n ≤ (got ++ a).length := by rw [List.length_append]; omega
  have hrx : s.rx = bytesRx a ++ (bytesRx b ++ rest) := by simpa using h
  exact ⟨a, b, rfl, hall, by rw [readTo_took hold path ha.le hrx, readTo_whole hold _ path hall]⟩

/-- A framed path comes to its check with the whole frame, however much of the frame it held and how much was delivered. -/
theorem framePath_whole (hold : Bytes → Pending) {n : Nat} {len : Bytes → Nat} (check : Nat → Bytes → State → State)
    {got more : Bytes} {rest : List RxAnswer} {s : State} (hn : 0 < n)
    (hlen : ∀ {g : Bytes}, n ≤ g.length → ∀ bs, len (g ++ bs) = len g) (hd : isDirection (byteAt (got ++ more) 0) = true)
    (htotal : (got ++ more).length = n + len (got ++ more) + 1) (h : s.rx = bytesRx more ++ rest) :
    framePath hold n len check got s = check (len (got ++ more)) (got ++ more) (tookRx rest more.length s) := by
  obtain ⟨a, b, rfl, hhdr, hread⟩ := readTo_reaches hold (afterHeader hold n len check)
    (show n ≤ got.length + more.length by rw [← List.length_append]; omega) h
  rw [← List.append_assoc] at hd htotal ⊢
  rw [byteAt_append (by omega)] at hd
  rw [hlen hhdr, List.length_append (as := got ++ a)] at htotal
  rw [framePath, hread, afterHeader, hd, if_pos rfl, hlen hhdr, readTo_bytes hold _ _ b rest _ _ (by omega) rfl,
    tookRx_tookRx, List.length_append]

/-- DEC while attached, its two framing bytes delivered, goes on as the path that the second one names. -/
theorem decFrame_selects (cfg : Cfg) {s : State} {b : Byte} {rest : List RxAnswer} (ha : s.attached = true)
    (h : s.rx = .byte chDollar :: .byte b :: rest) :
    decFrame cfg s = decSelect cfg b (tookRx rest 2 (invalidate (unblock s))) := by
  rw [decFrame, if_pos ha, decFirst_selects (s := invalidate (unblock s)) h]

/-- What a latch at the end of a DEC's reads writes, and what it leaves. -/
theorem latch_end (ver : Version) (dir : Byte) (cmd len : Half) (pay : Bytes) (chk : Byte) (rest : List RxAnswer)
    (k draws : Nat) (s : State) :
    let t := latch ver dir cmd len pay chk { tookRx rest k (invalidate (unblock s)) with draws := draws }
    Latched ⟨true, ver, dir, cmd, len, pay, chk⟩ s t ∧ DecKeeps s t ∧ t.rxpos = s.rxpos + k ∧ t.rx = rest :=
  ⟨⟨rfl, rfl, rfl, rfl, rfl⟩, ⟨rfl, rfl, rfl, rfl, rfl, rfl, rfl, rfl, rfl⟩, rfl, rfl⟩

/-! ## A whole V2 frame -/

/-- The bytes of a V2 frame that the V2 path reads (30_encoding.md R73): all but the two that select the path. -/
def v2Path (d f cl ch ll lh : Byte) (p : Bytes) (t : Byte) : Bytes := [d, f, cl, ch, ll, lh] ++ p ++ [t]

section
variable (cfg : Cfg) {d f cl ch ll lh t : Byte} {p : Bytes}

theorem v2Path_length : (v2Path d f cl ch ll lh p t).length = 6 + p.length + 1 := by
  simp [v2Path, Nat.add_comm 6]

/-- The end of the V2 path, on the fields of its frame. -/
theorem checkV2_v2Path (u : State) :
    checkV2 cfg p.length (v2Path d f cl ch ll lh p t) u =
      if cfg.v2CrcEnforce then
        if t = crc8DvbS2 ([f, cl, ch, ll, lh] ++ p) then latch .v2 d (ofLe16 cl ch) (ofLe16 ll lh) p t u
        else raise (.checksumMismatch (ofLe16 cl ch) p t (crc8DvbS2 ([f, cl, ch, ll, lh] ++ p))) u
      else latch .v2 d (ofLe16 cl ch) (ofLe16 ll lh) p (Config.freeChk u.draws) { u with draws := u.draws + 1 } := by
  have hpay : slice (v2Path d f cl ch ll lh p t) 6 p.length = p := List.take_left
  have htrailer : byteAt (v2Path d f cl ch ll lh p t) (6 + p.length) = t := by
    simp [v2Path, byteAt, Nat.add_comm 6]
  simp only [checkV2, hpay, htrailer]
  rfl

/-- With the trailer that the encoder writes, the V2 path latches the frame whether or not the CRC is enforced (R129). -/
theorem checkV2_v2Path_agrees (ht : t = crc8DvbS2 ([f, cl, ch, ll, lh] ++ p)) (u : State) :
    ∃ chk m, checkV2 cfg p.length (v2Path d f cl ch ll lh p t) u =
      latch .v2 d (ofLe16 cl ch) (ofLe16 ll lh) p chk { u with draws := m } := by
  rw [checkV2_v2Path, if_pos ht]
  split
  · exact ⟨t, u.draws, rfl⟩
  · exact ⟨_, _, rfl⟩

/-- DEC of a whole V2 frame comes to the check of its trailer, with all its bytes consumed. -/
theorem decFrame_v2Path {s : State} {rest : List RxAnswer} (ha : s.attached = true) (hd : isDirection d = true)
    (hlen : (ofLe16 ll lh).toNat = p.length)
    (h : s.rx = bytesRx ([chDollar, chX] ++ v2Path d f cl ch ll lh p t) ++ rest) :
    decFrame cfg s =
      checkV2 cfg p.length (v2Path d f cl ch ll lh p t) (tookRx rest (p.length + 9) (invalidate (unblock s))) := by
  have hfield : lenV2 (v2Path d f cl ch ll lh p t) = p.length := hlen
  have hsize : (v2Path d f cl ch ll lh p t).length = 6 + lenV2 (v2Path d f cl ch ll lh p t) + 1 := by
    rw [v2Path_length, hfield]
  have hpath : ∀ u : State, u.rx = bytesRx (v2Path d f cl ch ll lh p t) ++ rest →
      decSelect cfg chX u =
        checkV2 cfg p.length (v2Path d f cl ch ll lh p t) (tookRx rest (6 + p.length + 1) u) := fun u hu => by
    rw [← hfield, ← hsize]
    exact framePath_whole .decV2 (checkV2 cfg) (got := []) (Nat.succ_pos 5) lenV2_append hd hsize hu
  rw [decFrame_selects cfg ha h, hpath _ rfl, tookRx_tookRx, show 2 + (6 + p.length + 1) = p.length + 9 by omega]

end

/-! ## What ENC2 writes, DEC reads -/

theorem ofLe16_bytes (v : Half) : ofLe16 (v.extractLsb' 0 8) (v.extractLsb' 8 8) = v := by
  rw [ofLe16_append]
  exact BitVec.extractLsb'_append_extractLsb'

/-- Under `VERBATIM`, ENC2's frame is a V2 path whose fields join to the command and the length, and whose trailer is its CRC. -/
theorem enc2_verbatim {cfg : Cfg} (hverb : cfg.v2EncPayload = .verbatim) (c : Half) {p : Bytes} (h : p.length ≤ 65535) :
    ∃ cl ch ll lh t, enc2 cfg c p = .frame ([chDollar, chX] ++ v2Path chLt cfg.v2EncFlags cl ch ll lh p t) ∧
      ofLe16 cl ch = c ∧ ofLe16 ll lh = BitVec.ofNat 16 p.length ∧
      t = crc8DvbS2 ([cfg.v2EncFlags, cl, ch, ll, lh] ++ p) := by
  have hregion : v2Region cfg p = p := by rw [v2Region, hverb]
  rw [enc2_frame cfg c h, hregion]
  exact ⟨_, _, _, _, _, rfl, ofLe16_bytes c, ofLe16_bytes _, rfl⟩

/-- Settles O31: the frame is a whole V2 path (`enc2_verbatim`), of which DEC comes to the trailer's check (`decFrame_v2Path`);
its trailer is the CRC that an enforcing device wants (`checkV2_v2Path_agrees`). -/
theorem enc2DecRoundTrip : Obligations.Enc2DecRoundTrip := by
  intro cfg c p f s rest hverb hlen hf ha hrx
  obtain ⟨cl, ch, ll, lh, t, henc, rfl, hfield, ht⟩ := enc2_verbatim hverb c hlen
  obtain rfl := EncodeResult.frame.inj (henc.symm.trans hf)
  have hcount : (ofLe16 ll lh).toNat = p.length := by
    rw [hfield, BitVec.toNat_ofNat, Nat.mod_eq_of_lt (by omega)]
  obtain ⟨chk, m, hlatch⟩ := checkV2_v2Path_agrees cfg (d := chLt) ht (tookRx rest (p.length + 9) (invalidate (unblock s)))
  rw [decFrame_v2Path cfg ha rfl hcount hrx, hlatch, hfield]
  exact ⟨chk, latch_end ..⟩

end Sys2Proof.Proofs
end

section
/-! How a DEC reads a frame (42_frame_decode.md R121 to R133): its first two reads, a whole frame on either path, a frame cut
short, and what ENC1 writes read back. -/

namespace Sys2Proof.Proofs

open Sys2Proof Sys2Proof.Machine Sys2Proof.Laws Sys2Proof.Claims

/-! ## What a DEC that has ended has consumed and kept -/

/-- From `s` to `t`, where no operation is in progress, `k` bytes were read and `rest` left, and nothing changed that a DEC
never touches. -/
def Consumed (k : Nat) (rest : List RxAnswer) (s t : State) : Prop :=
  DecKeeps s t ∧ t.rxpos = s.rxpos + k ∧ t.rx = rest

/-- A DEC's reads consume answers only. -/
theorem consumed_dec (k : Nat) (rest : List RxAnswer) (s : State) :
    Consumed k rest s (tookRx rest k (invalidate (unblock s))) :=
  ⟨⟨rfl, rfl, rfl, rfl, rfl, rfl, rfl, rfl, rfl⟩, rfl, rfl⟩

/-- So do those of a frame path that is taken up. -/
theorem consumed_path (k : Nat) (rest : List RxAnswer) (s : State) : Consumed k rest s (tookRx rest k (unblock s)) :=
  ⟨⟨rfl, rfl, rfl, rfl, rfl, rfl, rfl, rfl, rfl⟩, rfl, rfl⟩

section
variable {k : Nat} {rest : List RxAnswer} {s v : State}

theorem Consumed.latch (h : Consumed k rest s v) (ver : Version) (dir : Byte) (cmd len : Half) (pay : Bytes) (chk : Byte) :
    Consumed k rest s (latch ver dir cmd len pay chk v) := h

/-- An error outcome that draws nothing keeps what the reads kept. -/
theorem Consumed.raise (h : Consumed k rest s v) {e : Raise} (he : raiseDrawsAttached e = false) :
    Consumed k rest s (raise e v) := by
  rw [raise_undrawn he]
  exact h

/-- Any error outcome keeps it but for the attachment (10_state.md R23). -/
theorem Consumed.raise_drawn (h : Consumed k rest s v) (e : Raise) :
    Consumed k rest { s with attached := (Machine.raise e v).attached } (Machine.raise e v) := by
  obtain ⟨⟨_, hkeeps⟩, hread⟩ := h
  exact ⟨⟨rfl, hkeeps⟩, hread⟩

theorem latched_latch (h : v.err = s.err) (ver : Version) (dir : Byte) (cmd len : Half) (pay : Bytes) (chk : Byte) :
    Latched ⟨true, ver, dir, cmd, len, pay, chk⟩ s (latch ver dir cmd len pay chk v) :=
  ⟨rfl, rfl, rfl, h, rfl⟩

theorem decError_raise (h : v.fr.valid = false) (e : Raise) : DecError (raiseCode e) (raiseErr e) (raise e v) :=
  ⟨h, rfl, rfl, rfl⟩

end

/-! ## The first two reads -/

theorem exec_dec {s : State} (hf : s.faulted = false) : exec .dec s = .next (decFrame Config.hardware s) :=
  congrArg Host.Outcome.next (accept_running hf _)

/-- DEC of a byte that starts no frame. -/
theorem decFirst_outOfBand (cfg : Cfg) {b : Byte} {rest : List RxAnswer} {s : State} (hb : b ≠ chDollar)
    (h : s.rx = .byte b :: rest) : decFirst cfg s = raise (.outOfBand b) (tookRx rest 1 s) := by
  rw [decFirst, rxRead_byte h]
  exact if_neg hb

theorem decFirst_endOfStream (cfg : Cfg) {rest : List RxAnswer} {s : State} (h : s.rx = .endOfStream :: rest) :
    decFirst cfg s = raise .endOfStream (tookRx rest 0 s) := by
  rw [decFirst, rxRead_eos h]

theorem decFirst_ioFailure (cfg : Cfg) {rest : List RxAnswer} {s : State} (h : s.rx = .ioFailure :: rest) :
    decFirst cfg s = raise .ioFailure (tookRx rest 0 s) := by
  rw [decFirst, rxRead_io h]

/-- Settles O22: each of the three answers ends DEC at its first read, with an error outcome of its own. -/
theorem decFirstReadDecides : Obligations.DecFirstReadDecides := by
  intro s rest hf ha
  rw [exec_dec_running hf ha]
  refine ⟨fun b hb hrx => ?_, fun hrx => ?_, fun hrx => ?_⟩
  · rw [decFirst_outOfBand _ hb (s := invalidate (unblock s)) hrx]
    exact ⟨_, rfl, decError_raise rfl _, (consumed_dec 1 rest s).raise rfl⟩
  · rw [decFirst_endOfStream _ (s := invalidate (unblock s)) hrx]
    exact ⟨_, rfl, decError_raise rfl _, (consumed_dec 0 rest s).raise rfl⟩
  · rw [decFirst_ioFailure _ (s := invalidate (unblock s)) hrx]
    exact ⟨_, rfl, decError_raise rfl _, (consumed_dec 0 rest s).raise_drawn _⟩

theorem decSelect_other (cfg : Cfg) {b : Byte} (hm : b ≠ chM) (hx : b ≠ chX) (s : State) :
    decSelect cfg b s = raise (.malformedHeader .version b) s := by
  simp [decSelect, decodeVersion, hm, hx]

/-- FRAME_V1 goes on with the bytes that the waiting path holds (log 27). -/
theorem exec_frameV1 {s : State} {got : Bytes} (hf : s.faulted = false) (hp : s.pending = some (.decV1 got)) :
    exec .frameV1 s = .next (decV1 got (unblock s)) := by
  simp [exec, execFrameV1, heldV1, hf, hp]

/-- FRAME_V2 goes on with the bytes that the waiting path holds (log 27). -/
theorem exec_frameV2 {s : State} {got : Bytes} (hf : s.faulted = false) (hp : s.pending = some (.decV2 got)) :
    exec .frameV2 s = .next (decV2 Config.hardware got (unblock s)) := by
  simp [exec, execFrameV2, heldV2, hf, hp]

/-- A DEC from `s` with its two framing bytes read and `rest` left, as it would wait in `p`. -/
def framed (p : Pending) (rest : List RxAnswer) (s : State) : State :=
  { tookRx rest 2 (invalidate (unblock s)) with pending := some p }

/-- Settles O23: DEC with its two framing bytes read is where the path that the second one names starts, with none of its bytes
held (`decFrame_selects`). -/
theorem decSecondByteSelects : Obligations.DecSecondByteSelects := by
  intro s b1 rest hf ha hrx
  rw [exec_dec hf, decFrame_selects _ ha hrx]
  obtain ⟨hkeeps, hpos, hrest⟩ := consumed_dec 2 rest s
  refine ⟨?_, fun hm hx => ?_⟩
  · rintro (rfl | rfl)
    · have hpath := exec_frameV1 (s := framed (.decV1 []) rest s) hf rfl
      exact ⟨framed (.decV1 []) rest s, hkeeps, rfl, hrest, hpos, rfl, rfl, fun _ => ⟨rfl, hpath.symm⟩,
        fun h => absurd h (by decide)⟩
    · have hpath := exec_frameV2 (s := framed (.decV2 []) rest s) hf rfl
      exact ⟨framed (.decV2 []) rest s, hkeeps, rfl, hrest, hpos, rfl, rfl, fun h => absurd h (by decide),
        fun _ => ⟨rfl, hpath.symm⟩⟩
  · rw [decSelect_other _ hm hx]
    exact ⟨_, rfl, decError_raise rfl _, (consumed_dec 2 rest s).raise rfl⟩

/-! ## A waiting frame path is taken up -/

/-- The model's check of duty 2 finds only what R221 calls broken. -/
theorem dutyBroken_of_breaksDuty {s : State} (h : breaksDuty s = true) : DutyBroken s := by
  obtain ⟨p, c, hp, hi, hover⟩ := pending_of_breaksDuty h
  refine ⟨p, c, hp, hi, ?_⟩
  cases p with
  | send f => exact Or.inr ⟨f, rfl⟩
  | decFirst | decSecond | decV1 _ | decV2 _ => exact Or.inl (beq_eq_false_iff_ne.1 hover)

theorem nextWork_resumes {s : State} {p : Pending} (hp : s.pending = some p) (hn : NoReset s) (hd : ¬ DutyBroken s) :
    nextWork s = resumeWork p s := by
  rcases nextWork_waiting hp with ⟨_, hw⟩ | ⟨_, _, hw⟩ | ⟨hbroken, _⟩
  · exact hw
  · exact absurd hw (hn _)
  · exact absurd (dutyBroken_of_breaksDuty hbroken) hd

/-- Settles O8: neither a reset nor a broken duty stands before the waiting path (`nextWork_resumes`). -/
theorem stepRunsFramePath : Obligations.StepRunsFramePath := by
  refine fun s hn hd => ⟨fun got hp => ?_, fun got hp => ?_⟩
  · rw [step, nextWork_resumes hp hn hd]; rfl
  · rw [step, nextWork_resumes hp hn hd]; rfl

/-! ## A whole V1 frame -/

/-- The bytes of a V1 frame that the V1 path reads (30_encoding.md R71): all but the two that select the path. -/
def v1Path (d l k : Byte) (p : Bytes) (obs : Byte) : Bytes := [d, l, k] ++ p ++ [obs]

section
variable {d l k obs : Byte} {p : Bytes}

theorem v1Path_length : (v1Path d l k p obs).length = 3 + p.length + 1 := by
  simp [v1Path, Nat.add_comm 3]

/-- The V1 path, its whole frame held or delivered, comes to the check of its checksum. -/
theorem decV1_v1Path {got more : Bytes} {rest : List RxAnswer} {s : State} (hd : isDirection d = true)
    (hlen : p.length = l.toNat) (hg : got ++ more = v1Path d l k p obs) (h : s.rx = bytesRx more ++ rest) :
    decV1 got s = checkV1 p.length (v1Path d l k p obs) (tookRx rest more.length s) := by
  have hfield : lenV1 (v1Path d l k p obs) = p.length := hlen.symm
  rw [decV1_eq, ← hfield, ← hg]
  refine framePath_whole .decV1 checkV1 (Nat.succ_pos 2) lenV1_append ?_ ?_ h <;> rw [hg]
  · exact hd
  · rw [v1Path_length, hfield]

/-- The end of the V1 path, on the fields of its frame. -/
theorem checkV1_v1Path (u : State) :
    checkV1 p.length (v1Path d l k p obs) u =
      if obs = xorChk ([l, k] ++ p) then latch .v1 d (k.setWidth 16) (l.setWidth 16) p obs u
      else raise (.checksumMismatch (k.setWidth 16) p obs (xorChk ([l, k] ++ p))) u := by
  have hpay : slice (v1Path d l k p obs) 3 p.length = p := List.take_left
  have hobs : byteAt (v1Path d l k p obs) (3 + p.length) = obs := by
    simp [v1Path, byteAt, Nat.add_comm 3]
  simp only [checkV1, hpay, hobs]
  rfl

/-- What the check of a V1 frame comes to (R124, R125), where no frame was latched before. -/
theorem checkV1_v1Ends {s v : State} (hv : v.fr.valid = false) (herr : v.err = s.err) :
    V1Ends d l k p obs s (checkV1 p.length (v1Path d l k p obs) v) := by
  simp only [checkV1_v1Path, V1Ends]
  split
  · exact latched_latch herr ..
  · exact decError_raise hv _

theorem Consumed.checkV1 {n : Nat} {rest : List RxAnswer} {s v : State} (h : Consumed n rest s v) (len : Nat) (g : Bytes) :
    Consumed n rest s (checkV1 len g v) := by
  rcases checkV1_cases len g v with ⟨_, hend⟩ | ⟨_, hend⟩ <;> rw [hend]
  · exact h.latch ..
  · exact h.raise rfl

end

/-- Settles O24: the path comes to the check of its checksum, from wherever it waits (`decV1_v1Path`), and the check latches or
reports the mismatch (`checkV1_v1Ends`). -/
theorem frameV1EndsByChecksum : Obligations.FrameV1EndsByChecksum := by
  intro s d l k p obs got more rest hf hv hp hrx hg hlen hd
  rw [exec_frameV1 hf hp, decV1_v1Path (s := unblock s) ((isDirection_iff d).2 hd) hlen hg hrx]
  exact ⟨_, rfl, checkV1_v1Ends hv rfl, (consumed_path more.length rest s).checkV1 ..⟩

/-! ## What ENC1 writes, DEC reads -/

/-- ENC1's frame is a V1 path behind its two framing bytes, whose last byte is the checksum over the rest of the fields. -/
theorem enc1_v1Path (c : Half) {p : Bytes} (h : p.length ≤ 255) :
    ∃ l k, enc1 Config.hardware c p = .frame ([chDollar, chM] ++ v1Path chLt l k p (xorChk ([l, k] ++ p))) ∧
      l = BitVec.ofNat 8 p.length ∧ k = c.setWidth 8 :=
  ⟨_, _, enc1_frame c h, rfl, rfl⟩

theorem setWidth_lowByte {c : Half} (h : c.toNat ≤ 0x00FF) : (c.setWidth 8).setWidth 16 = c := by
  apply BitVec.eq_of_toNat_eq
  rw [toNat_setWidth_byte, BitVec.toNat_setWidth, Nat.mod_eq_of_lt (by omega)]

/-- A count up to 255 is not cut by a V1 length byte. -/
theorem setWidth_ofNat_byte {n : Nat} (h : n ≤ 255) : (BitVec.ofNat 8 n).setWidth 16 = BitVec.ofNat 16 n := by
  apply BitVec.eq_of_toNat_eq
  rw [toNat_setWidth_byte, BitVec.toNat_ofNat, BitVec.toNat_ofNat]
  omega

/-- Settles O30: the frame is a whole V1 path (`enc1_v1Path`), of which DEC comes to the check (`decV1_v1Path`); its checksum is
the one the check wants, and its two fields of a byte lose nothing of the command and the length. -/
theorem enc1DecRoundTrip : Obligations.Enc1DecRoundTrip := by
  intro c p f s rest hc hlen henc hf ha hrx
  obtain ⟨l, k, hframe, hl, hk⟩ := enc1_v1Path c hlen
  obtain rfl := EncodeResult.frame.inj (hframe.symm.trans henc)
  have hcount : p.length = l.toNat := by rw [hl, BitVec.toNat_ofNat, Nat.mod_eq_of_lt (by omega)]
  have hpath : ∀ u : State, u.rx = bytesRx (v1Path chLt l k p (xorChk ([l, k] ++ p))) ++ rest →
      decSelect Config.hardware chM u =
        latch .v1 chLt c (BitVec.ofNat 16 p.length) p (xorChk ([l, k] ++ p)) (tookRx rest (3 + p.length + 1) u) := by
    intro u hu
    rw [← v1Path_length, ← setWidth_lowByte hc, ← setWidth_ofNat_byte hlen, ← hk, ← hl]
    exact (decV1_v1Path (got := []) rfl hcount rfl hu).trans ((checkV1_v1Path _).trans (if_pos rfl))
  rw [exec_dec hf, decFrame_selects _ ha hrx, hpath _ rfl, tookRx_tookRx, show 2 + (3 + p.length + 1) = p.length + 6 by omega]
  exact ⟨_, _, rfl, latch_end ..⟩

/-! ## A whole V2 frame -/

/-- The number in two bytes, least significant first (20_memory.md R56). -/
theorem ofLe16_toNat (lo hi : Byte) : (ofLe16 lo hi).toNat = lo.toNat + 256 * hi.toNat := by
  rw [ofLe16_append, BitVec.toNat_append, ← Nat.shiftLeft_add_eq_or_of_lt lo.isLt, Nat.shiftLeft_eq]
  omega

section
variable {d f cl ch ll lh t : Byte} {p : Bytes}

/-- The V2 path, its whole frame held or delivered, comes to the check of its trailer. -/
theorem decV2_v2Path (cfg : Cfg) {got more : Bytes} {rest : List RxAnswer} {s : State} (hd : isDirection d = true)
    (hlen : p.length = ll.toNat + 256 * lh.toNat) (hg : got ++ more = v2Path d f cl ch ll lh p t)
    (h : s.rx = bytesRx more ++ rest) :
    decV2 cfg got s = checkV2 cfg p.length (v2Path d f cl ch ll lh p t) (tookRx rest more.length s) := by
  have hfield : lenV2 (v2Path d f cl ch ll lh p t) = p.length := (ofLe16_toNat ll lh).trans hlen.symm
  rw [decV2_eq, ← hfield, ← hg]
  refine framePath_whole .decV2 (checkV2 cfg) (Nat.succ_pos 5) lenV2_append ?_ ?_ h <;> rw [hg]
  · exact hd
  · rw [v2Path_length, hfield]

/-- Where the CRC is not enforced, the check latches the frame with a drawn `FR.CHK`, whatever the trailer is (R129). -/
theorem checkV2_latches {cfg : Cfg} (hcfg : cfg.v2CrcEnforce = false) (u : State) :
    checkV2 cfg p.length (v2Path d f cl ch ll lh p t) u =
      latch .v2 d (ch ++ cl) (lh ++ ll) p (Config.freeChk u.draws) { u with draws := u.draws + 1 } := by
  rw [checkV2_v2Path, hcfg, ofLe16_append, ofLe16_append]
  rfl

/-- Where the CRC is enforced, the check compares the trailer (R129). -/
theorem checkV2_compares {cfg : Cfg} (hcfg : cfg.v2CrcEnforce = true) (u : State) :
    checkV2 cfg p.length (v2Path d f cl ch ll lh p t) u =
      if t = crc8DvbS2 ([f, cl, ch, ll, lh] ++ p) then latch .v2 d (ch ++ cl) (lh ++ ll) p t u
      else raise (.checksumMismatch (ch ++ cl) p t (crc8DvbS2 ([f, cl, ch, ll, lh] ++ p))) u := by
  rw [checkV2_v2Path, hcfg, ofLe16_append, ofLe16_append]
  rfl

end

/-- Settles O25: the path comes to the check of its trailer, from wherever it waits (`decV2_v2Path`), and this hardware's check
latches the frame (`checkV2_latches`). -/
theorem frameV2LatchesAnyTrailer : Obligations.FrameV2LatchesAnyTrailer := by
  intro s d f cl ch ll lh p trailer got more rest hf hp hrx hg hlen hd
  rw [exec_frameV2 hf hp, decV2_v2Path _ (s := unblock s) ((isDirection_iff d).2 hd) hlen hg hrx, checkV2_latches rfl]
  exact ⟨_, _, rfl, latched_latch rfl .., consumed_path more.length rest s⟩

/-- Settles O26: DEC comes to the check of the trailer with every byte of the frame consumed (`decFrame_v2Path`). -/
theorem decV2ConsumesWholeFrame : Obligations.DecV2ConsumesWholeFrame := by
  intro s d f cl ch ll lh p trailer rest hf ha hrx hlen hd
  rw [exec_dec hf, decFrame_v2Path _ ha ((isDirection_iff d).2 hd) ((ofLe16_toNat ll lh).trans hlen.symm) hrx,
    checkV2_latches rfl, show s.rxpos + 2 + (6 + p.length + 1) = s.rxpos + (p.length + 9) by omega]
  exact ⟨_, _, rfl, latch_end ..⟩

/-- Settles O27: DEC comes to the same check (`decFrame_v2Path`), which now compares the trailer (`checkV2_compares`). -/
theorem enforcedV2ChecksCrc : Obligations.EnforcedV2ChecksCrc := by
  intro cfg s d f cl ch ll lh p trailer rest hcfg ha hrx hlen hd
  have hread := consumed_dec (p.length + 9) rest s
  dsimp only
  rw [decFrame_v2Path _ ha ((isDirection_iff d).2 hd) ((ofLe16_toNat ll lh).trans hlen.symm) hrx, checkV2_compares hcfg,
    show s.rxpos + 9 + p.length = s.rxpos + (p.length + 9) by omega]
  split
  · obtain ⟨hkeeps, hpos, hrest⟩ := hread.latch .v2 d (ch ++ cl) (lh ++ ll) p trailer
    exact ⟨hkeeps, hpos, hrest, latched_latch rfl ..⟩
  · obtain ⟨hkeeps, hpos, hrest⟩ := hread.raise
      (e := .checksumMismatch (ch ++ cl) p trailer (crc8DvbS2 ([f, cl, ch, ll, lh] ++ p))) rfl
    exact ⟨hkeeps, hpos, hrest, decError_raise rfl _⟩

/-! ## A short read inside a frame -/

/-- The answer `a` to a read inside a frame ends DEC with the transport error `e` (R126). -/
inductive CutsShort : RxAnswer → Raise → Prop
  | endOfStream : CutsShort .endOfStream .unexpectedEos
  | ioFailure : CutsShort .ioFailure .ioFailure

theorem cutsShort_of_shortCode {a : RxAnswer} {code : Byte} (h : shortCode a = some code) :
    ∃ e, CutsShort a e ∧ raiseCode e = code ∧ raiseErr e = noErr := by
  cases a with
  | byte b => exact nomatch h
  | endOfStream => exact ⟨_, .endOfStream, Option.some.inj h, rfl⟩
  | ioFailure => exact ⟨_, .ioFailure, Option.some.inj h, rfl⟩

section
variable {a : RxAnswer} {e : Raise} (hcut : CutsShort a e) {rest : List RxAnswer} {s : State}
include hcut

theorem decSecond_short (cfg : Cfg) (h : s.rx = a :: rest) : decSecond cfg s = raise e (tookRx rest 0 s) := by
  cases hcut with
  | endOfStream => rw [decSecond, rxRead_eos h]
  | ioFailure => rw [decSecond, rxRead_io h]

/-- A run of reads that the next answer cuts short has read nothing. -/
theorem readTo_cut (hold : Bytes → Pending) {n : Nat} {got : Bytes} (path : Bytes → State → State) (hn : got.length < n)
    (h : s.rx = a :: rest) : readTo hold n got s path = raise e (tookRx rest 0 s) := by
  obtain ⟨m, hm⟩ : ∃ m, n - got.length = m + 1 := ⟨n - got.length - 1, by omega⟩
  cases hcut with
  | endOfStream => simp only [readTo, hm, rxReadN, rxRead_eos h]
  | ioFailure => simp only [readTo, hm, rxReadN, rxRead_io h]

/-- A run of reads cut short after some bytes leaves them consumed. -/
theorem readTo_short (hold : Bytes → Pending) {n : Nat} {got bs : Bytes} (path : Bytes → State → State)
    (hn : got.length + bs.length < n) (h : s.rx = bytesRx bs ++ a :: rest) :
    readTo hold n got s path = raise e (tookRx rest bs.length s) := by
  rw [readTo_took hold path (by omega) h, readTo_cut hcut hold path (by rwa [List.length_append]) rfl, tookRx_tookRx,
    Nat.add_zero]

/-- A frame path cut short in its header, or, with a legal direction, in its payload or before its trailer, is a transport error
with the bytes before it consumed. -/
theorem framePath_short (hold : Bytes → Pending) {n : Nat} {len : Bytes → Nat} (check : Nat → Bytes → State → State)
    {bs : Bytes} (hn : 0 < n) (hlen : ∀ {g : Bytes}, n ≤ g.length → ∀ bs, len (g ++ bs) = len g)
    (hshort : bs.length < n ∨ isDirection (byteAt bs 0) = true ∧ bs.length < n + len bs + 1)
    (h : s.rx = bytesRx bs ++ a :: rest) :
    framePath hold n len check [] s = raise e (tookRx rest bs.length s) := by
  rw [framePath]
  by_cases hhdr : bs.length < n
  · exact readTo_short hcut hold _ (by simpa using hhdr) h
  · obtain ⟨hd, hcount⟩ := hshort.resolve_left hhdr
    obtain ⟨g, bs, rfl, hg, hread⟩ := readTo_reaches hold (got := []) (afterHeader hold n len check)
      (show n ≤ ([] : Bytes).length + bs.length by simpa using hhdr) h
    rw [List.nil_append] at hg hread
    rw [byteAt_append (by omega)] at hd
    rw [hlen hg, List.length_append] at hcount
    rw [hread, afterHeader, hd, if_pos rfl, readTo_short hcut hold _ hcount rfl, tookRx_tookRx, List.length_append]

theorem decV1_short {bs : Bytes} (hshort : ShortV1 bs) (h : s.rx = bytesRx bs ++ a :: rest) :
    decV1 [] s = raise e (tookRx rest bs.length s) := by
  rw [decV1_eq]
  refine framePath_short hcut .decV1 checkV1 (Nat.succ_pos 2) lenV1_append (hshort.imp_right ?_) h
  rintro ⟨d, l, k, more, rfl, hd, hmore⟩
  have hfield : lenV1 (d :: l :: k :: more) = l.toNat := rfl
  refine ⟨(isDirection_iff d).2 hd, ?_⟩
  rw [hfield]
  simp only [List.length_cons]
  omega

theorem decV2_short (cfg : Cfg) {bs : Bytes} (hshort : ShortV2 bs) (h : s.rx = bytesRx bs ++ a :: rest) :
    decV2 cfg [] s = raise e (tookRx rest bs.length s) := by
  rw [decV2_eq]
  refine framePath_short hcut .decV2 (checkV2 cfg) (Nat.succ_pos 5) lenV2_append (hshort.imp_right ?_) h
  rintro ⟨d, f, cl, ch, ll, lh, more, rfl, hd, hmore⟩
  have hfield : lenV2 (d :: f :: cl :: ch :: ll :: lh :: more) = ll.toNat + 256 * lh.toNat := ofLe16_toNat ll lh
  refine ⟨(isDirection_iff d).2 hd, ?_⟩
  rw [hfield]
  simp only [List.length_cons]
  omega

/-- DEC cut short anywhere after `'$'` in a frame of either format. -/
theorem decFirst_short (cfg : Cfg) {bs : Bytes} (h : s.rx = bytesRx (chDollar :: bs) ++ a :: rest)
    (hshort : bs = [] ∨ (∃ more, bs = chM :: more ∧ ShortV1 more) ∨ (∃ more, bs = chX :: more ∧ ShortV2 more)) :
    decFirst cfg s = raise e (tookRx rest (1 + bs.length) s) := by
  rcases hshort with rfl | ⟨more, rfl, hshort⟩ | ⟨more, rfl, hshort⟩
  · rw [decFirst, rxRead_byte h]
    exact decSecond_short hcut cfg rfl
  · rw [decFirst_selects h, List.length_cons, show 1 + (more.length + 1) = 2 + more.length by omega, ← tookRx_tookRx]
    exact decV1_short hcut hshort rfl
  · rw [decFirst_selects h, List.length_cons, show 1 + (more.length + 1) = 2 + more.length by omega, ← tookRx_tookRx]
    exact decV2_short hcut cfg hshort rfl

end

/-- Settles O29: on every path the short read ends DEC with its transport error, the bytes before it consumed
(`decFirst_short`). -/
theorem shortFrameIsTransportError : Obligations.ShortFrameIsTransportError := by
  intro s bs a code rest hf ha hcode hrx hshort
  obtain ⟨e, hcut, rfl, herr⟩ := cutsShort_of_shortCode hcode
  rw [exec_dec_running hf ha, decFirst_short hcut _ (s := invalidate (unblock s)) hrx hshort, ← herr, Nat.add_assoc]
  exact ⟨_, rfl, decError_raise rfl e, (consumed_dec (1 + bs.length) rest s).raise_drawn e⟩

end Sys2Proof.Proofs
end

section
/-! Shapes, values and their layouts (43_marshal.md R140, R141): a layout has its shape's size, every byte sequence of that
size is one, and a reading gives back the value laid out. -/

namespace Sys2Proof.Proofs

open Sys2Proof Sys2Proof.Machine Sys2Proof.Laws

/-! ## Which values conform (R140) -/

theorem conforms_u8 (v : Value) : conforms .u8 v = true ↔ ∃ x, v = .v8 x := by
  cases v <;> simp [conforms]

theorem conforms_u16 (v : Value) : conforms .u16 v = true ↔ ∃ x, v = .v16 x := by
  cases v <;> simp [conforms]

theorem conforms_u32 (v : Value) : conforms .u32 v = true ↔ ∃ x, v = .v32 x := by
  cases v <;> simp [conforms]

theorem conforms_agg (fs : Shapes) (v : Value) :
    conforms (.agg fs) v = true ↔ ∃ vs, v = .agg vs ∧ fieldsConform fs vs = true := by
  cases v <;> simp [conforms]

theorem conforms_seq (n : Nat) (sh : Shape) (v : Value) :
    conforms (.seq n sh) v = true ↔ ∃ vs, v = .seq vs ∧ eachConforms (conforms sh) n vs = true := by
  cases v <;> simp [conforms]

theorem fieldsConform_nil (vs : Values) : fieldsConform .nil vs = true ↔ vs = .nil := by
  cases vs <;> simp [fieldsConform]

theorem fieldsConform_cons (sh : Shape) (fs : Shapes) (vs : Values) :
    fieldsConform (.cons sh fs) vs = true ↔
      ∃ v rest, vs = .cons v rest ∧ conforms sh v = true ∧ fieldsConform fs rest = true := by
  cases vs <;> simp [fieldsConform, and_assoc]

theorem eachConforms_zero (test : Value → Bool) (vs : Values) : eachConforms test 0 vs = true ↔ vs = .nil := by
  cases vs <;> simp [eachConforms]

theorem eachConforms_succ (test : Value → Bool) (n : Nat) (vs : Values) :
    eachConforms test (n + 1) vs = true ↔
      ∃ v rest, vs = .cons v rest ∧ test v = true ∧ eachConforms test n rest = true := by
  cases vs <;> simp [eachConforms, and_assoc]

/-! ## The size of a layout -/

/-- Elements of one size each. -/
theorem layEach_length {test : Value → Bool} {lay : Value → Bytes} {m : Nat}
    (hlay : ∀ v, test v = true → (lay v).length = m) (n : Nat) (vs : Values) (h : eachConforms test n vs = true) :
    (layEach lay vs).length = n * m := by
  induction n generalizing vs with
  | zero =>
    obtain rfl := (eachConforms_zero test vs).1 h
    simp [layEach]
  | succ n ih =>
    obtain ⟨v, rest, rfl, hv, hrest⟩ := (eachConforms_succ test n vs).1 h
    rw [layEach, List.length_append, hlay v hv, ih rest hrest, Nat.succ_mul, Nat.add_comm]

mutual
theorem layout_length : ∀ (sh : Shape) (v : Value), conforms sh v = true → (layout sh v).length = shapeSize sh
  | .u8, v, h => by
    obtain ⟨x, rfl⟩ := (conforms_u8 v).1 h
    rfl
  | .u16, v, h => by
    obtain ⟨x, rfl⟩ := (conforms_u16 v).1 h
    rfl
  | .u32, v, h => by
    obtain ⟨x, rfl⟩ := (conforms_u32 v).1 h
    rfl
  | .agg fs, v, h => by
    obtain ⟨vs, rfl, hvs⟩ := (conforms_agg fs v).1 h
    exact layoutFields_length fs vs hvs
  | .seq n sh, v, h => by
    obtain ⟨vs, rfl, hvs⟩ := (conforms_seq n sh v).1 h
    exact layEach_length (layout_length sh) n vs hvs
theorem layoutFields_length :
    ∀ (fs : Shapes) (vs : Values), fieldsConform fs vs = true → (layoutFields fs vs).length = shapesSize fs
  | .nil, _, _ => rfl
  | .cons sh fs, vs, h => by
    obtain ⟨v, rest, rfl, hv, hrest⟩ := (fieldsConform_cons sh fs vs).1 h
    rw [layoutFields, List.length_append, layout_length sh v hv, layoutFields_length fs rest hrest, shapesSize]
end

/-! ## Byte order, back and forth -/

/-- The lowest byte of a concatenation is passed over. -/
theorem extractLsb'_append_byte {w : Nat} (x : BitVec w) (a : Byte) (k : Nat) :
    (x ++ a).extractLsb' (k + 8) 8 = x.extractLsb' k 8 :=
  BitVec.extractLsb'_append_eq_of_le (Nat.le_add_left 8 k)

theorem le16_ofLe16 (a b : Byte) : le16 (ofLe16 a b) = [a, b] := by
  rw [ofLe16_append, le16, BitVec.extractLsb'_append_eq_left, BitVec.extractLsb'_append_eq_right]

theorem le32_ofLe32 (a b c d : Byte) : le32 (ofLe32 a b c d) = [a, b, c, d] := by
  have pass_a := extractLsb'_append_byte (d ++ c ++ b) a
  have pass_b := extractLsb'_append_byte (d ++ c) b
  have ha : (d ++ c ++ b ++ a).extractLsb' 0 8 = a := BitVec.extractLsb'_append_eq_right
  have hb : (d ++ c ++ b ++ a).extractLsb' 8 8 = b := (pass_a 0).trans BitVec.extractLsb'_append_eq_right
  have hc : (d ++ c ++ b ++ a).extractLsb' 16 8 = c :=
    ((pass_a 8).trans (pass_b 0)).trans BitVec.extractLsb'_append_eq_right
  have hd : (d ++ c ++ b ++ a).extractLsb' 24 8 = d :=
    ((pass_a 16).trans (pass_b 8)).trans BitVec.extractLsb'_append_eq_left
  rw [ofLe32_append, le32, ha, hb, hc, hd]

theorem ofLe32_bytes (v : Word) :
    ofLe32 (v.extractLsb' 0 8) (v.extractLsb' 8 8) (v.extractLsb' 16 8) (v.extractLsb' 24 8) = v := by
  have high : v.extractLsb' 24 8 ++ v.extractLsb' 16 8 = v.extractLsb' 16 16 :=
    BitVec.extractLsb'_append_extractLsb'_eq_extractLsb' rfl
  have mid : v.extractLsb' 16 16 ++ v.extractLsb' 8 8 = v.extractLsb' 8 24 :=
    BitVec.extractLsb'_append_extractLsb'_eq_extractLsb' rfl
  rw [ofLe32_append, high, mid]
  exact BitVec.extractLsb'_append_extractLsb'

/-! ## Every byte sequence of a shape's size is a layout -/

/-- A byte sequence of two parts' size is cut where the first part ends. -/
theorem exists_append_of_length {bs : Bytes} {m n : Nat} (h : bs.length = m + n) :
    ∃ front back : Bytes, bs = front ++ back ∧ front.length = m ∧ back.length = n :=
  ⟨bs.take m, bs.drop m, (List.take_append_drop m bs).symm, by rw [List.length_take]; omega,
    by rw [List.length_drop]; omega⟩

theorem exists_layEach {test : Value → Bool} {lay : Value → Bytes} {m : Nat}
    (hlay : ∀ bs : Bytes, bs.length = m → ∃ v, test v = true ∧ lay v = bs) (n : Nat) (bs : Bytes)
    (h : bs.length = n * m) : ∃ vs, eachConforms test n vs = true ∧ layEach lay vs = bs := by
  induction n generalizing bs with
  | zero =>
    obtain rfl : bs = [] := List.length_eq_zero_iff.1 (by rw [h, Nat.zero_mul])
    exact ⟨.nil, rfl, rfl⟩
  | succ n ih =>
    rw [Nat.succ_mul, Nat.add_comm] at h
    obtain ⟨front, back, rfl, hfront, hback⟩ := exists_append_of_length h
    obtain ⟨v, hv, rfl⟩ := hlay front hfront
    obtain ⟨vs, hvs, rfl⟩ := ih back hback
    exact ⟨.cons v vs, (eachConforms_succ test n _).2 ⟨v, vs, rfl, hv, hvs⟩, rfl⟩

mutual
theorem exists_layout :
    ∀ (sh : Shape) (bs : Bytes), bs.length = shapeSize sh → ∃ v, conforms sh v = true ∧ layout sh v = bs
  | .u8, bs, h => by
    obtain ⟨a, rfl⟩ := List.length_eq_one_iff.1 h
    exact ⟨.v8 a, rfl, rfl⟩
  | .u16, bs, h => by
    obtain ⟨a, b, rfl⟩ := List.length_eq_two.1 h
    exact ⟨.v16 (ofLe16 a b), rfl, le16_ofLe16 a b⟩
  | .u32, bs, h => by
    obtain ⟨a, b, c, d, rfl⟩ := List.length_eq_four.1 h
    exact ⟨.v32 (ofLe32 a b c d), rfl, le32_ofLe32 a b c d⟩
  | .agg fs, bs, h => by
    obtain ⟨vs, hvs, hbs⟩ := exists_layoutFields fs bs h
    exact ⟨.agg vs, hvs, hbs⟩
  | .seq n sh, bs, h => by
    obtain ⟨vs, hvs, hbs⟩ := exists_layEach (exists_layout sh) n bs h
    exact ⟨.seq vs, hvs, hbs⟩
theorem exists_layoutFields :
    ∀ (fs : Shapes) (bs : Bytes), bs.length = shapesSize fs → ∃ vs, fieldsConform fs vs = true ∧ layoutFields fs vs = bs
  | .nil, bs, h => by
    obtain rfl : bs = [] := List.length_eq_zero_iff.1 h
    exact ⟨.nil, rfl, rfl⟩
  | .cons sh fs, bs, h => by
    obtain ⟨front, back, rfl, hfront, hback⟩ := exists_append_of_length h
    obtain ⟨v, hv, rfl⟩ := exists_layout sh front hfront
    obtain ⟨vs, hvs, rfl⟩ := exists_layoutFields fs back hback
    exact ⟨.cons v vs, (fieldsConform_cons sh fs _).2 ⟨v, vs, rfl, hv, hvs⟩, rfl⟩
end

/-! ## Reading a layout gives its value back -/

/-- What stands at an index stands there byte by byte. -/
theorem byteAt_add {p bs : Bytes} {i : Nat} (h : p.drop i = bs) (k : Nat) : byteAt p (i + k) = byteAt bs k := by
  rw [← h, byteAt, byteAt, List.getD_eq_getElem?_getD, List.getD_eq_getElem?_getD, List.getElem?_drop]

/-- Behind the first part of what stands at an index stands the rest. -/
theorem drop_add_of_append {p front back : Bytes} {i n : Nat} (h : p.drop i = front ++ back) (hn : front.length = n) :
    p.drop (i + n) = back := by
  rw [← List.drop_drop, h, List.drop_left' hn]

/-- The reader gives back the value of every layout that stands in the payload, whatever follows it. -/
def ReadsBack {α : Type} (p : Bytes) (good : α → Bool) (lay : α → Bytes) (read : Nat → α × Nat) : Prop :=
  ∀ (a : α) (i : Nat) (tail : Bytes), good a = true → p.drop i = lay a ++ tail → (read i).1 = a

theorem readEach_readsBack {p : Bytes} {test : Value → Bool} {lay : Value → Bytes} {read : Nat → Value × Nat} {m : Nat}
    (hread : ReadsBack p test lay read) (hend : ∀ i, (read i).2 = i + m)
    (hlay : ∀ v, test v = true → (lay v).length = m) (n : Nat) :
    ReadsBack p (eachConforms test n) (layEach lay) (readEach read n) := by
  induction n with
  | zero =>
    intro vs i tail h _
    exact ((eachConforms_zero test vs).1 h).symm
  | succ n ih =>
    intro vs i tail h hp
    obtain ⟨v, rest, rfl, hv, hrest⟩ := (eachConforms_succ test n vs).1 h
    rw [layEach, List.append_assoc] at hp
    have hback := ih rest (i + m) tail hrest (drop_add_of_append hp (hlay v hv))
    simp only [readEach, hend, hread v i _ hv hp, hback]

mutual
theorem readShape_readsBack (p : Bytes) : ∀ sh : Shape, ReadsBack p (conforms sh) (layout sh) (readShape p sh)
  | .u8, v, i, tail, h, hp => by
    obtain ⟨x, rfl⟩ := (conforms_u8 v).1 h
    exact congrArg Value.v8 (byteAt_add hp 0)
  | .u16, v, i, tail, h, hp => by
    obtain ⟨x, rfl⟩ := (conforms_u16 v).1 h
    rw [readShape, byteAt_add hp 1, ← Nat.add_zero i, byteAt_add hp 0]
    exact congrArg Value.v16 (ofLe16_bytes x)
  | .u32, v, i, tail, h, hp => by
    obtain ⟨x, rfl⟩ := (conforms_u32 v).1 h
    rw [readShape, byteAt_add hp 1, byteAt_add hp 2, byteAt_add hp 3, ← Nat.add_zero i, byteAt_add hp 0]
    exact congrArg Value.v32 (ofLe32_bytes x)
  | .agg fs, v, i, tail, h, hp => by
    obtain ⟨vs, rfl, hvs⟩ := (conforms_agg fs v).1 h
    exact congrArg Value.agg (readFields_readsBack p fs vs i tail hvs hp)
  | .seq n sh, v, i, tail, h, hp => by
    obtain ⟨vs, rfl, hvs⟩ := (conforms_seq n sh v).1 h
    exact congrArg Value.seq
      (readEach_readsBack (readShape_readsBack p sh) (readShape_end p sh) (layout_length sh) n vs i tail hvs hp)
theorem readFields_readsBack (p : Bytes) : ∀ fs : Shapes, ReadsBack p (fieldsConform fs) (layoutFields fs) (readFields p fs)
  | .nil, vs, i, tail, h, hp => ((fieldsConform_nil vs).1 h).symm
  | .cons sh fs, vs, i, tail, h, hp => by
    obtain ⟨v, rest, rfl, hv, hrest⟩ := (fieldsConform_cons sh fs vs).1 h
    rw [layoutFields, List.append_assoc] at hp
    have hback := readFields_readsBack p fs rest (i + shapeSize sh) tail hrest (drop_add_of_append hp (layout_length sh v hv))
    simp only [readFields, readShape_end, readShape_readsBack p sh v i _ hv hp, hback]
end

end Sys2Proof.Proofs
end

section
/-! The Payload Marshaler (43_marshal.md R142 to R159): MAR's two outcomes, UNM's three, and the statements about them. -/

namespace Sys2Proof.Proofs

open Sys2Proof Sys2Proof.Machine Sys2Proof.Laws Sys2Proof.Claims

/-! ## MAR (R142 to R147) -/

section
variable {sh : Shape} {v : Value} {s : State} (hf : s.faulted = false)
include hf

theorem exec_mar_conforming (hv : conforms sh v = true) :
    exec (marInstr sh.tag sh v) s = .next (okState (.bytes (layout sh v)) s) := by
  rw [exec_marInstr sh v s hf, marshal, if_pos hv]
  rfl

theorem exec_mar_mismatch (hv : ¬ conforms sh v = true) :
    exec (marInstr sh.tag sh v) s = .next (faultState 0x42#8 s) := by
  rw [exec_marInstr sh v s hf, marshal, if_neg hv]
  rfl

end

/-- Settles O36: the layouts by `exec_mar_conforming`, the faults by which values conform to an integer (`conforms_u8`). -/
theorem marPacksIntegers : Obligations.MarPacksIntegers := fun _ hf =>
  ⟨fun x => exec_mar_conforming (sh := .u8) (v := .v8 x) hf rfl,
    fun x => exec_mar_conforming (sh := .u16) (v := .v16 x) hf rfl,
    fun x => exec_mar_conforming (sh := .u32) (v := .v32 x) hf rfl,
    fun v hv => exec_mar_mismatch (sh := .u8) hf fun h => not_exists.2 hv ((conforms_u8 v).1 h),
    fun v hv => exec_mar_mismatch (sh := .u16) hf fun h => not_exists.2 hv ((conforms_u16 v).1 h),
    fun v hv => exec_mar_mismatch (sh := .u32) hf fun h => not_exists.2 hv ((conforms_u32 v).1 h)⟩

theorem conforms_agg_ofList (ss : List Shape) (vs : List Value) :
    conforms (.agg (.ofList ss)) (.agg (.ofList vs)) = true ↔ List.Forall₂ (fun sh v => conforms sh v = true) ss vs :=
  fieldsConform_ofList ss vs

theorem conforms_seq_ofList (n : Nat) (sh : Shape) (vs : List Value) :
    conforms (.seq n sh) (.seq (.ofList vs)) = true ↔ vs.length = n ∧ ∀ v ∈ vs, conforms sh v = true :=
  eachConforms_ofList (conforms sh) n vs

/-- Settles O37: an aggregate conforms field by field (`conforms_agg_ofList`) and is laid out so (`layoutFields_ofList`). -/
theorem marPacksAggregates : Obligations.MarPacksAggregates := by
  intro ss s hf
  refine ⟨fun vs hvs => ?_, fun vs hvs => ?_, fun v hv => ?_⟩
  · rw [← layoutFields_ofList]
    exact exec_mar_conforming (sh := .agg (.ofList ss)) hf ((conforms_agg_ofList ss vs).2 hvs)
  · exact exec_mar_mismatch (sh := .agg (.ofList ss)) hf (mt (conforms_agg_ofList ss vs).1 hvs)
  · refine exec_mar_mismatch (sh := .agg (.ofList ss)) hf fun h => ?_
    obtain ⟨vs, rfl, _⟩ := (conforms_agg _ v).1 h
    exact hv vs rfl

/-- Settles O38: a sequence conforms by its count and element by element (`conforms_seq_ofList`) and is laid out so
(`layEach_ofList`). -/
theorem marPacksSequences : Obligations.MarPacksSequences := by
  intro n sh s hf
  refine ⟨fun vs hn hvs => ?_, fun vs hvs => ?_, fun v hv => ?_⟩
  · rw [← layEach_ofList]
    exact exec_mar_conforming (sh := .seq n sh) hf ((conforms_seq_ofList n sh vs).2 ⟨hn, hvs⟩)
  · exact exec_mar_mismatch (sh := .seq n sh) hf (mt (conforms_seq_ofList n sh vs).1 hvs)
  · refine exec_mar_mismatch (sh := .seq n sh) hf fun h => ?_
    obtain ⟨vs, rfl, _⟩ := (conforms_seq n sh v).1 h
    exact hv vs rfl

/-- Settles O39: by induction over the shape (`layout_length`). -/
theorem layoutHasShapeSize : Obligations.LayoutHasShapeSize := layout_length

/-! ## UNM (R150 to R156) -/

theorem unmarshal_noFrame {s : State} (hv : s.fr.valid = false) (sh : Shape) : unmarshal sh s = faultState 0x45#8 s := by
  rw [unmarshal, hv]
  rfl

theorem unmarshal_short {sh : Shape} {s : State} (hv : s.fr.valid = true)
    (hshort : s.cur.toNat + shapeSize sh > s.fr.len.toNat) : unmarshal sh s = shortPayload s := by
  rw [unmarshal, if_pos hv, if_pos hshort]

/-- The cursor's sum is the sum of the numbers, both modulo the cursor's width. -/
theorem ofNat_cursor_add (cur : Half) (n : Nat) : BitVec.ofNat 16 (cur.toNat + n) = cur + BitVec.ofNat 16 n := by
  rw [BitVec.ofNat_add, BitVec.ofNat_toNat, BitVec.setWidth_eq]

theorem unmarshal_done {sh : Shape} {s : State} (hv : s.fr.valid = true)
    (hfits : s.cur.toNat + shapeSize sh ≤ s.fr.len.toNat) :
    unmarshal sh s = unmDone (readShape s.fr.pay sh s.cur.toNat).1 (shapeSize sh) s := by
  simp only [unmarshal, if_pos hv, if_neg (Nat.not_lt.2 hfits), readShape_end, ofNat_cursor_add]
  rfl

/-- A short payload draws the cursor within the payload and records nothing else (R151). -/
theorem shortPayload_eq {s : State} (h : s.cur.toNat ≤ s.fr.len.toNat) :
    ∃ (c : Half) (d : Nat), s.cur.toNat ≤ c.toNat ∧ c.toNat ≤ s.fr.len.toNat ∧
      shortPayload s = errState 0x30#8 noErr { s with cur := c, draws := d } :=
  ⟨_, _, (drawn_cursor h s.draws).1, (drawn_cursor h s.draws).2, rfl⟩

/-- The three cases of an UNM, for every shape. -/
theorem unmCases (sh : Shape) :
    UnmCases (unmInstr sh.tag sh) (shapeSize sh) (fun s => (readShape s.fr.pay sh s.cur.toNat).1) := by
  intro s hf
  rw [exec_unmInstr sh s hf]
  refine ⟨fun hv => ?_, fun hv hcur hshort => ?_, fun hv hfits => ?_⟩
  · rw [unmarshal_noFrame hv]
  · rw [unmarshal_short hv hshort]
    obtain ⟨c, d, hlo, hhi, heq⟩ := shortPayload_eq hcur
    exact ⟨c, d, hlo, hhi, congrArg _ heq⟩
  · rw [unmarshal_done hv hfits]

/-- Settles O40: the three cases of `unmCases`, with two and four bytes assembled by concatenation (`ofLe16_append`). -/
theorem unmUnpacksIntegers : Obligations.UnmUnpacksIntegers := by
  refine ⟨unmCases .u8, ?_, ?_⟩
  · simp only [← ofLe16_append]
    exact unmCases .u16
  · simp only [← ofLe32_append]
    exact unmCases .u32

/-- Settles O42: the first two cases of `unmCases`. -/
theorem unmNeedsFrameAndBytes : Obligations.UnmNeedsFrameAndBytes := fun sh s hf =>
  have ⟨noFrame, short, _⟩ := unmCases sh s hf
  ⟨noFrame, short⟩

/-- UNM over a layout that stands at the cursor delivers the value laid out. -/
theorem exec_unm_layout {sh : Shape} {v : Value} {tail : Bytes} {s : State} (hf : s.faulted = false)
    (hvalid : s.fr.valid = true) (hfits : s.cur.toNat + shapeSize sh ≤ s.fr.len.toNat) (hv : conforms sh v = true)
    (hpay : s.fr.pay.drop s.cur.toNat = layout sh v ++ tail) :
    exec (unmInstr sh.tag sh) s = .next (unmDone v (shapeSize sh) s) := by
  rw [exec_unmInstr sh s hf, unmarshal_done hvalid hfits, readShape_readsBack s.fr.pay sh v _ tail hv hpay]

/-- Settles O41: the bytes at the cursor are the layout of some conforming value (`exists_layout`), and UNM delivers that one
(`exec_unm_layout`). -/
theorem unmReturnsLaidOutValue : Obligations.UnmReturnsLaidOutValue := by
  intro sh s hf hvalid hlen hfits
  obtain ⟨v, hv, hlay⟩ := exists_layout sh (slice s.fr.pay s.cur.toNat (shapeSize sh)) (slice_length (hlen ▸ hfits))
  refine ⟨v, hv, hlay, exec_unm_layout hf hvalid hfits hv (tail := (s.fr.pay.drop s.cur.toNat).drop (shapeSize sh)) ?_⟩
  rw [hlay, slice, List.take_append_drop]

/-- Settles O43: the marshaled value stands at the cursor (`exec_unm_layout`) and has its shape's size (`layout_length`). -/
theorem marUnmRoundTrip : Obligations.MarUnmRoundTrip := by
  intro sh v tail s hv hf hvalid hpay hlen hcur
  have hstart : s.cur.toNat = 0 := by rw [hcur]; rfl
  have hfits : s.cur.toNat + shapeSize sh ≤ s.fr.len.toNat := by
    rw [hstart, hlen, hpay, List.length_append, layout_length sh v hv]
    omega
  have hpayload : s.fr.pay.drop s.cur.toNat = layout sh v ++ tail := by rw [hstart, hpay, List.drop_zero]
  rw [exec_unm_layout hf hvalid hfits hv hpayload, unmDone, hcur, zero_add]

/-! ## Two UNMs in a row (R159) -/

/-- An UNM body that answers a value had a frame and enough payload. -/
theorem unmarshal_ok {sh : Shape} {v : Value} {s : State} (h : (unmarshal sh s).resp = some (.ok (.value v))) :
    s.fr.valid = true ∧ s.cur.toNat + shapeSize sh ≤ s.fr.len.toNat ∧ (readShape s.fr.pay sh s.cur.toNat).1 = v ∧
      unmarshal sh s = unmDone v (shapeSize sh) s := by
  cases hvalid : s.fr.valid with
  | false => simp [unmarshal_noFrame hvalid, faultState] at h
  | true =>
    rcases Nat.lt_or_ge s.fr.len.toNat (s.cur.toNat + shapeSize sh) with hshort | hfits
    · simp [unmarshal_short hvalid hshort, shortPayload] at h
    · rw [unmarshal_done hvalid hfits] at h ⊢
      obtain rfl : (readShape s.fr.pay sh s.cur.toNat).1 = v := by simpa [unmDone, okState] using h
      exact ⟨rfl, hfits, rfl, rfl⟩

/-- An aggregate of two shapes is read field by field. -/
theorem readShape_pair (p : Bytes) (s1 s2 : Shape) (i : Nat) :
    (readShape p (.agg (.ofList [s1, s2])) i).1 =
      .agg (.ofList [(readShape p s1 i).1, (readShape p s2 (i + shapeSize s1)).1]) := by
  simp only [Shapes.ofList, Values.ofList, readShape, readFields, readShape_end]

/-- Where an UNM with enough payload leaves the cursor. -/
theorem unmDone_cursor {s : State} {n : Nat} (h : s.cur.toNat + n ≤ s.fr.len.toNat) (v : Value) :
    (unmDone v n s).cur.toNat = s.cur.toNat + n := by
  rw [← toNat_cursor_add h, ofNat_cursor_add]
  rfl

/-- Two UNMs that delivered values are one that delivered another value and moved the cursor on by the sum of their sizes, but
for the answer. -/
theorem unmDone_unmDone (v1 v2 v : Value) (m n : Nat) (s : State) :
    unmDone v (m + n) s = { unmDone v2 n (unmDone v1 m s) with resp := some (.ok (.value v)) } := by
  simp only [unmDone, okState, BitVec.ofNat_add, BitVec.add_assoc]

/-- Settles O44: the first UNM leaves the cursor where the aggregate's second field begins (`unmDone_cursor`), so the aggregate
reads the same two values (`readShape_pair`) and ends at the same cursor (`unmDone_unmDone`). -/
theorem successiveUnmsCompose : Obligations.SuccessiveUnmsCompose := by
  intro s1 s2 v1 v2 s t u hf ht htv hu huv
  obtain rfl : unmarshal s1 s = t := Host.Outcome.next.inj ((exec_unmInstr s1 s hf).symm.trans ht)
  obtain ⟨hvalid, hfits1, hread1, hunm1⟩ := unmarshal_ok htv
  rw [hunm1] at hu
  obtain rfl := Host.Outcome.next.inj ((exec_unmInstr s2 (unmDone v1 (shapeSize s1) s) hf).symm.trans hu)
  obtain ⟨-, hfits2, hread2, hunm2⟩ := unmarshal_ok huv
  rw [unmDone_cursor hfits1] at hfits2 hread2
  have hfits : s.cur.toNat + shapeSize (.agg (.ofList [s1, s2])) ≤ s.fr.len.toNat := (Nat.add_assoc ..).symm.trans_le hfits2
  calc exec (.unmAgg (.agg (.ofList [s1, s2]))) s
      = .next (unmarshal (.agg (.ofList [s1, s2])) s) := exec_unmInstr (.agg (.ofList [s1, s2])) s hf
    _ = .next (unmDone (.agg (.ofList [v1, v2])) (shapeSize s1 + shapeSize s2) s) := by
      rw [unmarshal_done hvalid hfits, readShape_pair, hread1, ← hread2]
      rfl
    _ = _ := by rw [hunm2, ← unmDone_unmDone]

end Sys2Proof.Proofs
end

section
/-! The transport operations (44_transport_ops.md R170 to R177): what ATT, DET and SEND come to, use after close, a DET over a
waiting DEC, and what opens and closes the session. -/

namespace Sys2Proof.Proofs

open Sys2Proof Sys2Proof.Machine Sys2Proof.Laws Sys2Proof.Claims

/-! ## ATT and DET (R172 to R174) -/

section
variable {s : State} (hf : s.faulted = false)
include hf

theorem exec_att (name : PortName) (baud : Nat) : exec (.att name baud) s = .next (attach name baud s) :=
  congrArg Host.Outcome.next (accept_running hf _)

theorem exec_det : exec .det s = .next (detach s) := congrArg Host.Outcome.next (accept_running hf _)

theorem exec_send (c : Half) (sh : Shape) (v : Value) :
    exec (.send c sh v) s = .next (sendFrame Config.hardware c sh v s) :=
  congrArg Host.Outcome.next (accept_running hf _)

end

theorem attach_attached {s : State} (h : s.attached = true) (name : PortName) (baud : Nat) :
    attach name baud s = fault .doubleAttach s := if_pos h

theorem attach_opened {s : State} {rest : List OpenAnswer} (h : s.attached = false) (ho : s.opens = .opened :: rest)
    (name : PortName) (baud : Nat) : attach name baud s = opened name baud { s with opens := rest } := by
  simp [attach, h, ho]

theorem attach_failed {s : State} {rest : List OpenAnswer} (h : s.attached = false) (ho : s.opens = .failed :: rest)
    (name : PortName) (baud : Nat) : attach name baud s = raise .openFailure { s with opens := rest } := by
  simp [attach, h, ho]

/-- With no answer given beforehand, the draw decides (log 3). -/
theorem attach_drawn {s : State} (h : s.attached = false) (ho : s.opens = []) (name : PortName) (baud : Nat) :
    attach name baud s = if Config.freeOpened s.draws then opened name baud { s with draws := s.draws + 1 }
      else raise .openFailure { s with draws := s.draws + 1 } := by
  simp [attach, h, ho]

/-- Settles O48: the answer at the front of `opens` decides, or the draw (`attach_drawn`). -/
theorem attOpensOrFails : Obligations.AttOpensOrFails := by
  intro name baud s hf
  rw [exec_att hf]
  refine ⟨fun ha => ?_, fun ha => ⟨fun rest ho => ?_, fun rest ho => ?_, fun ho => ?_⟩⟩
  · rw [attach_attached ha]; rfl
  · rw [attach_opened ha ho]; rfl
  · rw [attach_failed ha ho]; rfl
  · refine ⟨s.draws + 1, ?_⟩
    rw [attach_drawn ha ho]
    cases Config.freeOpened s.draws with
    | true => exact Or.inl rfl
    | false => exact Or.inr rfl

/-- Settles O49. -/
theorem detDetaches : Obligations.DetDetaches := by
  intro s hf
  rw [exec_det hf, detach]
  refine ⟨fun ha => ?_, fun ha => ?_⟩
  · rw [if_pos ha]; rfl
  · rw [ha]; rfl

/-! ## SEND (R170) -/

section
variable {s : State} (cfg : Cfg) (c : Half) {sh : Shape} {v : Value}

theorem sendFrame_detached (ha : s.attached = false) : sendFrame cfg c sh v s = fault .useAfterClose s := by
  simp [sendFrame, ha]

theorem sendFrame_mismatch (ha : s.attached = true) (hc : conforms sh v = false) :
    sendFrame cfg c sh v s = fault .shapeValueMismatch s := by
  simp [sendFrame, ha, hc]

/-- What the encoder faults, SEND faults. -/
theorem sendFrame_unencoded {e : PFault} (ha : s.attached = true) (hc : conforms sh v = true)
    (he : enc1 cfg c (layout sh v) = .fault e) : sendFrame cfg c sh v s = fault e s := by
  simp [sendFrame, ha, hc, he]

end

theorem offer_failed {f : Bytes} {s : State} {k : Nat} {rest : List TxAnswer} (h : s.tx = .ioFailure k :: rest) :
    offer f s = raise .ioFailure { s with tx := rest, txlog := s.txlog ++ f.take k } := by
  simp [offer, h]

/-- Settles O45: a check that fails faults, and a value that passes them all is offered as its V1 frame
(`exec_send_offers`), which the answer to the write ends or leaves waiting. -/
theorem sendWritesOneFrame : Obligations.SendWritesOneFrame := by
  intro c sh v s hf
  refine ⟨fun ha => ?_, fun ha hc => ?_, fun ha hc hlen => ?_, fun ha hc hlen => ?_⟩
  · rw [exec_send hf, sendFrame_detached _ c ha]; rfl
  · rw [exec_send hf, sendFrame_mismatch _ c ha hc]; rfl
  · rw [exec_send hf, sendFrame_unencoded _ c ha hc (enc1_tooLong c hlen)]; rfl
  · have he := enc1_frame c hlen
    refine ⟨_, he, fun rest htx => ?_, fun k rest htx => ?_, fun htx => ?_⟩ <;> rw [exec_send_offers hf ha hc he]
    · rw [offer_accepted htx]; rfl
    · rw [offer_failed htx]
      exact ⟨_, _, rfl⟩
    · rw [offer_waits _ htx]; rfl

/-! ## Use after close (R176) -/

/-- `run` does not look at `ATTACHED`, and leaves it. -/
def IgnoresAttached (run : State → State) : Prop :=
  ∀ (b : Bool) (s : State), run { s with attached := b } = { run s with attached := b }

theorem accept_ignoresAttached {run : State → State} (h : IgnoresAttached run) : IgnoresAttached fun s => accept s run := by
  intro b s
  rcases accept_cases s run with ⟨hf, hr⟩ | ⟨hf, hr⟩
  · simpa only [hr] using accept_faulted (s := { s with attached := b }) hf run
  · simpa only [hr, h b s] using accept_running (s := { s with attached := b }) hf run

theorem finishEncode_ignoresAttached (r : EncodeResult) : IgnoresAttached (finishEncode r) := by
  cases r <;> exact fun _ _ => rfl

theorem marshalTagged_ignoresAttached (t : ShapeTag) (sh : Shape) (v : Value) : IgnoresAttached (marshalTagged t sh v) := by
  refine accept_ignoresAttached fun b s => ?_
  by_cases ht : sh.tag = t
  · subst ht
    simp only [requireTag_same, marshal]
    split <;> rfl
  · simp only [requireTag_other ht]
    rfl

theorem unmarshal_ignoresAttached (sh : Shape) : IgnoresAttached (unmarshal sh) := by
  intro b s
  cases hv : s.fr.valid with
  | false => rw [unmarshal_noFrame hv, unmarshal_noFrame (s := { s with attached := b }) hv]; rfl
  | true =>
    by_cases hfits : s.cur.toNat + shapeSize sh ≤ s.fr.len.toNat
    · rw [unmarshal_done hv hfits, unmarshal_done (s := { s with attached := b }) hv hfits]; rfl
    · rw [unmarshal_short hv (Nat.not_le.1 hfits),
        unmarshal_short (s := { s with attached := b }) hv (Nat.not_le.1 hfits)]
      rfl

theorem unmarshalTagged_ignoresAttached (t : ShapeTag) (sh : Shape) : IgnoresAttached (unmarshalTagged t sh) := by
  refine accept_ignoresAttached fun b s => ?_
  by_cases ht : sh.tag = t
  · subst ht
    simp only [requireTag_same, unmarshal_ignoresAttached sh b s]
  · simp only [requireTag_other ht]
    rfl

/-- The operations that touch no port run the same, attached or not. -/
theorem exec_ignoresAttached {i : Instr} (hi : PureOp i ∨ MovesCursor i) :
    ∃ run, IgnoresAttached run ∧ ∀ s, exec i s = .next (run s) := by
  cases i with
  | chkx b => exact ⟨_, accept_ignoresAttached (run := finish _) fun _ _ => rfl, fun _ => rfl⟩
  | chkc b => exact ⟨_, accept_ignoresAttached (run := finish _) fun _ _ => rfl, fun _ => rfl⟩
  | enc1 c p => exact ⟨_, accept_ignoresAttached (finishEncode_ignoresAttached _), fun _ => rfl⟩
  | enc2 c p => exact ⟨_, accept_ignoresAttached (finishEncode_ignoresAttached _), fun _ => rfl⟩
  | marU8 sh v | marU16 sh v | marU32 sh v | marAgg sh v | marSeq sh v =>
    exact ⟨_, marshalTagged_ignoresAttached _ sh v, fun _ => rfl⟩
  | unmU8 sh | unmU16 sh | unmU32 sh | unmAgg sh | unmSeq sh =>
    exact ⟨_, unmarshalTagged_ignoresAttached _ sh, fun _ => rfl⟩
  | dec | send _ _ _ | att _ _ | det | frameV1 | frameV2 => exact (hi.elim id id).elim

theorem decFrame_detached (cfg : Cfg) {s : State} (ha : s.attached = false) : decFrame cfg s = fault .useAfterClose s := by
  simp [decFrame, ha]

/-- Settles O50: DEC and SEND check the attachment first, and no other operation looks at it (`exec_ignoresAttached`). -/
theorem useAfterCloseFaults : Obligations.UseAfterCloseFaults := by
  intro s hf
  refine ⟨fun ha => ?_, fun ha c sh v => ?_, fun i b t hi h => ?_⟩
  · rw [exec_dec hf, decFrame_detached _ ha]; rfl
  · rw [exec_send hf, sendFrame_detached _ c ha]; rfl
  · obtain ⟨run, hrun, hexec⟩ := exec_ignoresAttached hi
    obtain rfl : run s = t := Host.Outcome.next.inj ((hexec s).symm.trans h)
    rw [hexec, hrun]

/-! ## A DET over a waiting DEC (R175) -/

/-- With no answer standing, `run` does not wait; or it does, and a DET issued meanwhile ends it with `e` (log 5). -/
def DetEnds (e : Raise) (run : State → State) : Prop :=
  ∀ s, s.rx = [] → s.pending = none →
    (run s).pending = none ∨
      ∀ x, detIssued { s with issued := x } = true → run { s with issued := x } = raise e { s with issued := x }

theorem readByte_detEnds (p : Pending) (e : Raise) (next : Byte → State → State) : DetEnds e (readByte p e next) := by
  refine fun s hrx _ => Or.inr fun x hd => ?_
  rw [readByte, rxRead_det (s := { s with issued := x }) hrx hd]

/-- A run of reads that a DET ends has read nothing. -/
theorem readTo_det (hold : Bytes → Pending) {n : Nat} {got : Bytes} {s : State} (path : Bytes → State → State)
    (hn : got.length < n) (hrx : s.rx = []) (hd : detIssued s = true) :
    readTo hold n got s path = raise .unexpectedEos s := by
  obtain ⟨m, hm⟩ : ∃ m, n - got.length = m + 1 := ⟨n - got.length - 1, by omega⟩
  simp only [readTo, hm, rxReadN, rxRead_det hrx hd]

theorem readTo_detEnds (hold : Bytes → Pending) {n : Nat} {got : Bytes} {path : Bytes → State → State}
    (hpath : DetEnds .unexpectedEos (path got)) : DetEnds .unexpectedEos fun s => readTo hold n got s path := by
  by_cases hn : n ≤ got.length
  · simpa only [readTo_whole hold _ path hn] using hpath
  · exact fun s hrx _ => Or.inr fun x hd => readTo_det (s := { s with issued := x }) hold path (Nat.not_le.1 hn) hrx hd

theorem framePath_detEnds (hold : Bytes → Pending) (n : Nat) (len : Bytes → Nat) {check : Nat → Bytes → State → State}
    (hcheck : ∀ l g v, (check l g v).pending = v.pending) (got : Bytes) :
    DetEnds .unexpectedEos (framePath hold n len check got) := by
  refine readTo_detEnds hold ?_
  cases hd : isDirection (byteAt got 0) with
  | false => exact fun s _ hp => Or.inl (by simpa [afterHeader, hd] using hp)
  | true =>
    have hafter : afterHeader hold n len check got = fun s => readTo hold (n + len got + 1) got s (check (len got)) := by
      funext s
      rw [afterHeader, hd, if_pos rfl]
    rw [hafter]
    exact readTo_detEnds hold fun s _ hp => Or.inl (by rw [hcheck, hp])

/-- The error outcome of a waiting operation whose read a DET ends. -/
def detError : Pending → Raise
  | .decFirst => .endOfStream
  | .decSecond | .decV1 _ | .decV2 _ | .send _ => .unexpectedEos

theorem detError_later {p : Pending} (h : p ≠ .decFirst) : detError p = .unexpectedEos := by
  cases p with
  | decFirst => exact absurd rfl h
  | _ => rfl

theorem resumed_detEnds (cfg : Cfg) {p : Pending} (hsend : ∀ f, p ≠ .send f) : DetEnds (detError p) (resumed cfg p) := by
  cases p with
  | decFirst => exact readByte_detEnds .decFirst .endOfStream (afterFirst cfg)
  | decSecond => exact readByte_detEnds .decSecond .unexpectedEos (decSelect cfg)
  | decV1 got => exact framePath_detEnds .decV1 3 lenV1 checkV1_pending got
  | decV2 got => exact framePath_detEnds .decV2 6 lenV2 (checkV2_pending cfg) got
  | send f => exact absurd rfl (hsend f)

/-- A step whose work is the operation in progress takes it up. -/
theorem step_takesUp {s : State} {p : Pending} (hp : s.pending = some p) (hw : nextWork s = resumeWork p s)
    (hf : s.faulted = false) : step s = .next (resumed Config.hardware p (unblock s)) := by
  rw [step, hw]
  cases p with
  | decFirst => exact congrArg Host.Outcome.next (accept_running hf _)
  | decSecond => exact congrArg Host.Outcome.next (accept_running hf _)
  | decV1 got => exact exec_frameV1 hf hp
  | decV2 got => exact exec_frameV2 hf hp
  | send f => exact congrArg Host.Outcome.next (accept_running hf _)

theorem decodeCommand_det : decodeCommand ⟨0x5100#16, []⟩ = .instr .det := by decide

theorem overtakes_det {p : Pending} (hsend : ∀ f, p ≠ .send f) : overtakes ⟨0x5100#16, []⟩ p = true := by
  rw [overtakes_dec hsend, isDet, decodeCommand_det]
  rfl

section
variable {s : State} {p : Pending} (hsend : ∀ f, p ≠ .send f)
include hsend

/-- To issue DET over a waiting DEC breaks no duty. -/
theorem hostIssues_det (hp : s.pending = some p) (hi : s.issued = none) :
    hostIssues detCommand s = some { s with issued := some detCommand } := by
  simp [hostIssues, breaksDuty, hp, hi, overtakes_det hsend]

theorem nextWork_det (hp : s.pending = some p) (hi : s.issued = some detCommand) : nextWork s = resumeWork p s := by
  simp [nextWork, duringWait, hp, hi, overtakes_det hsend]

/-- A DET issued over a DEC that waits in `p`, where it would only wait again, ends it. -/
theorem step_det_over_dec (hrx : s.rx = []) (hp : s.pending = none) (hf : s.faulted = false)
    (hagain : resumed Config.hardware p s = block p s) :
    step { block p s with issued := some detCommand } = .next (raise (detError p) { s with issued := some detCommand }) := by
  have hdet : detIssued { s with issued := some detCommand } = true := by simp [detIssued, isDet, decodeCommand_det]
  have hfree : unblock { block p s with issued := some detCommand } =
      { { s with issued := some detCommand } with resp := none } := by
    simp [unblock, block, hp]
  rcases resumed_detEnds Config.hardware hsend s hrx hp with h | h
  · simp [hagain] at h
  · have hstep := step_takesUp (s := { block p s with issued := some detCommand }) rfl (nextWork_det hsend rfl rfl) hf
    rw [hstep, hfree, resumed_ignoresResp, h _ hdet]

end

/-- A free machine takes the DET that is issued, with the effect of R174. -/
theorem step_takes_det {s : State} (hf : s.faulted = false) (hp : s.pending = none) (hi : s.issued = some detCommand) :
    (s.attached = true → step s = .next (okState .none { s with attached := false, port := none, issued := none })) ∧
      (s.attached = false → step s = .next (faultState 0x40#8 { s with issued := none })) := by
  rw [step_takes_instr ⟨hp, Or.inl ⟨hi, rfl⟩⟩ decodeCommand_det]
  exact detDetaches { s with issued := none } hf

/-- What waits after a DEC is no SEND. -/
theorem endsDec_waits {s t : State} {p : Pending} (h : EndsDec Config.hardware s t) (hs : s.pending = none)
    (hp : t.pending = some p) (f : Bytes) : p ≠ .send f := by
  obtain ⟨rest, k, h⟩ := endsDec_outcome h
  cases h with
  | error => cases hs.symm.trans hp
  | waits q hsend =>
    obtain rfl : q = p := Option.some.inj hp
    exact hsend f
  | latched => cases hs.symm.trans hp

/-- Settles O34: the DEC waits where it would wait again (`decFirst_waits`), so the DET ends its read (`step_det_over_dec`), and
the next step runs the DET. -/
theorem detOvertakesWaitingDec : Obligations.DetOvertakesWaitingDec := by
  intro s t hf ha hi ht hwait
  rw [exec_dec_running hf ha] at ht
  obtain rfl : decFirst Config.hardware (invalidate (unblock s)) = t := Host.Outcome.next.inj ht
  obtain ⟨p, k, h, hagain⟩ := decFirst_waits Config.hardware (u := invalidate (unblock s)) rfl hi hwait
  have hsend := endsDec_waits (decFirst_ends Config.hardware (invalidate (unblock s))) rfl (congrArg State.pending h)
  rw [h]
  refine ⟨hostIssues_det hsend rfl hi, _, step_det_over_dec hsend rfl rfl hf hagain, rfl, rfl, rfl, rfl, hf, fun hfirst => ?_,
    fun hlater => ?_, step_takes_det hf rfl rfl⟩
  · obtain rfl : p = .decFirst := Option.some.inj hfirst
    exact ⟨decError_raise rfl _, ha⟩
  · rw [detError_later fun hfirst => hlater (congrArg some hfirst)]
    exact decError_raise rfl _

/-! ## What opens and closes the session (R177) -/

/-- An operation that has ended with a transport error other than `TE_OPEN_FAILURE`. -/
def TransportError (t : State) : Prop := t.resp = some (.error 0x21#8) ∨ t.resp = some (.error 0x22#8)

/-- An error outcome changes `ATTACHED` only as a transport error (10_state.md R23). -/
theorem raise_attachment (e : Raise) (s : State) : (raise e s).attached = s.attached ∨ TransportError (raise e s) := by
  cases e with
  | ioFailure => exact Or.inr (Or.inl rfl)
  | unexpectedEos => exact Or.inr (Or.inr rfl)
  | _ => exact Or.inl rfl

theorem endsDec_attachment {s t : State} (h : EndsDec Config.hardware s t) : t.attached = s.attached ∨ TransportError t := by
  obtain ⟨rest, k, h⟩ := endsDec_outcome h
  cases h with
  | error e => exact raise_attachment e _
  | waits => exact Or.inl rfl
  | latched => exact Or.inl rfl

theorem offer_attachment (f : Bytes) (s : State) : (offer f s).attached = s.attached ∨ TransportError (offer f s) := by
  rcases offer_cases f s with ⟨rest, _, h⟩ | ⟨k, rest, _, h⟩ | ⟨_, h⟩ <;> rw [h]
  · exact Or.inl rfl
  · exact raise_attachment _ _
  · exact Or.inl rfl

section
variable {i : Instr} {s t : State} (h : OpEnd i s t)
include h

/-- Of the operations that run on a free machine, only ATT attaches. -/
theorem opEnd_opens (h1 : i ≠ .frameV1) (h2 : i ≠ .frameV2) (hs : s.attached = false) (ht : t.attached = true) :
    ∃ name baud, i = .att name baud ∧ t.resp = some (.ok .none) ∧ t.port = some ⟨name, baud⟩ := by
  cases h
  case opened name baud _ _ _ _ hatt => exact ⟨name, baud, hatt, rfl, rfl⟩
  case dec _ _ ha _ | send _ _ ha _ => cases hs.symm.trans ha
  case path _ hpath _ => exact (hpath.elim h1 h2).elim
  case detached => cases ht
  all_goals cases hs.symm.trans ht

/-- Only DET detaches, but for a transport error. -/
theorem opEnd_closes (hs : s.attached = true) (ht : t.attached = false) : i = .det ∨ TransportError t := by
  cases h
  case detached hdet => exact Or.inl hdet
  case opened ha _ => cases hs.symm.trans ha
  case dec _ _ _ hend | path _ _ hend =>
    refine Or.inr ((endsDec_attachment hend).resolve_left fun heq => ?_)
    cases (hs.symm.trans heq.symm).trans ht
  case send f _ _ _ =>
    refine Or.inr ((offer_attachment f s).resolve_left fun heq => ?_)
    cases (hs.symm.trans heq.symm).trans ht
  all_goals cases hs.symm.trans ht

end

/-- An operation in progress runs on an attached transport. -/
theorem pendingRuns_attached {s : State} {p : Pending} (hp : s.pending = some p) (h : PendingRuns s) : s.attached = true := by
  cases p with
  | send f => exact ((pendingRuns_send hp).1 h).1
  | _ => exact ((pendingRuns_dec hp nofun).1 h).1

section
variable {s t : State} (h : StepEnd s t)
include h

theorem stepEnd_opens (hruns : PendingRuns s) (hs : s.attached = false) (ht : t.attached = true) :
    ∃ name baud, nextWork s = .run (.att name baud) { s with issued := none, hostq := t.hostq } ∧
      t.resp = some (.ok .none) ∧ t.port = some ⟨name, baud⟩ := by
  cases h with
  | idle => cases hs.symm.trans ht
  | op i q _ _ hw h1 h2 hend =>
    obtain ⟨name, baud, rfl, hresp, hport⟩ := opEnd_opens hend h1 h2 hs ht
    rw [(opEnd_inputs hend).2]
    exact ⟨name, baud, hw, hresp, hport⟩
  | rejected r q =>
    obtain ⟨_, _, hatt, _⟩ := opEnd_opens (opEnd_rejectOp .det r { s with issued := none, hostq := q }) nofun nofun hs ht
    cases hatt
  | refused => cases hs.symm.trans ht
  | dec p _ hp => cases hs.symm.trans (pendingRuns_attached hp hruns)
  | send f hp => cases hs.symm.trans (pendingRuns_attached hp hruns)

theorem stepEnd_closes (hs : s.attached = true) (ht : t.attached = false) :
    nextWork s = .run .det { s with issued := none, hostq := t.hostq } ∨ TransportError t := by
  cases h with
  | idle => cases hs.symm.trans ht
  | op i q _ _ hw _ _ hend =>
    rw [(opEnd_inputs hend).2]
    refine (opEnd_closes hend hs ht).imp_left fun hdet => ?_
    rw [hw, hdet]
  | rejected r q =>
    have hend := opEnd_rejectOp .dec r { s with issued := none, hostq := q }
    exact Or.inr ((opEnd_closes hend hs ht).resolve_left nofun)
  | refused => cases hs.symm.trans ht
  | dec p _ _ _ _ _ hend =>
    refine Or.inr ((endsDec_attachment hend).resolve_left fun heq => ?_)
    cases (hs.symm.trans heq.symm).trans ht
  | send f =>
    refine Or.inr ((offer_attachment f (unblock s)).resolve_left fun heq => ?_)
    cases (hs.symm.trans heq.symm).trans ht

end

/-- Settles O55: of all the ends of a step, only ATT's success attaches (`stepEnd_opens`), and only DET and a transport error
detach (`stepEnd_closes`). -/
theorem sessionOpensAndClosesOnlyAs : Obligations.SessionOpensAndClosesOnlyAs := by
  intro s t hs hn h
  have hend := stepEnd_of_next hn h
  obtain ⟨hruns, _⟩ := ((inv_iff s).1 hs).2.2
  exact ⟨stepEnd_opens hend hruns, stepEnd_closes hend⟩

end Sys2Proof.Proofs
end

section
/-! The inputs from outside (60_exceptions.md R220) and the host's duty 2 (R221; log 4): which states break the duty, what the
step answers there and elsewhere, and what an input changes. -/

namespace Sys2Proof.Proofs

open Sys2Proof Sys2Proof.Machine Sys2Proof.Laws Sys2Proof.Claims

/-! ## The duty as a check -/

/-- Nothing overtakes a SEND, and nothing but DET overtakes a DEC (44_transport_ops.md R175). -/
theorem overtakes_false {c : Command} {p : Pending} (h : decodeCommand c ≠ .instr .det ∨ ∃ f, p = .send f) :
    overtakes c p = false := by
  cases p with
  | send f => rfl
  | decFirst | decSecond | decV1 _ | decV2 _ => exact beq_eq_false_iff_ne.2 (h.resolve_right nofun)

/-- The model's check of duty 2 finds all that R221 calls broken, and nothing else. -/
theorem breaksDuty_iff (s : State) : breaksDuty s = true ↔ DutyBroken s := by
  refine ⟨dutyBroken_of_breaksDuty, ?_⟩
  rintro ⟨p, c, hp, hi, hc⟩
  simp [breaksDuty, hp, hi, overtakes_false hc]

theorem keepsDuty_iff (s : State) : HostKeepsDuty s ↔ ¬ DutyBroken s := by
  rw [← breaksDuty_iff, Bool.not_eq_true]

/-! ## The step -/

theorem step_of_dutyBroken {s : State} (h : DutyBroken s) : step s = .refused .dutyBroken := by
  obtain ⟨p, c, hp, hi, hc⟩ := h
  simp [step, nextWork, duringWait, hp, hi, overtakes_false hc]

/-- A broken duty is the only state that stops a step. -/
theorem step_of_keepsDuty {s : State} (h : HostKeepsDuty s) : ∃ t, step s = .next t := by
  rcases step_ends s with ⟨u, _, hstep⟩ | ⟨hbroken, _⟩ | ⟨t, hstep, _⟩
  · exact ⟨_, hstep⟩
  · cases hbroken.symm.trans h
  · exact ⟨t, hstep⟩

/-! ## What the host may issue -/

/-- The model offers an input where nothing issued is left untaken and the duty stays kept. -/
theorem hostIssues_eq_some {x : HostInput} {s t : State} :
    hostIssues x s = some t ↔ s.issued = none ∧ t = { s with issued := some x } ∧ HostKeepsDuty t := by
  cases hi : s.issued with
  | some y => simp [hostIssues, hi]
  | none =>
    simp only [hostIssues, hi, Option.ite_none_left_eq_some, Option.some.injEq, true_and, Bool.not_eq_true]
    constructor
    · rintro ⟨hduty, rfl⟩
      exact ⟨rfl, hduty⟩
    · rintro ⟨rfl, hduty⟩
      exact ⟨hduty, rfl⟩

/-- Settles O59: the duty is a check of the model (`breaksDuty_iff`, `keepsDuty_iff`) on which the step (`step_of_dutyBroken`,
`step_of_keepsDuty`) and the host's inputs (`hostIssues_eq_some`) turn. -/
theorem brokenDutyHasNoMeaning : Obligations.BrokenDutyHasNoMeaning := by
  refine ⟨fun s => step_of_dutyBroken, fun s hd => step_of_keepsDuty ((keepsDuty_iff s).2 hd), fun s t x h => ?_,
    fun s x hi hd => hostIssues_eq_some.2 ⟨hi, rfl, (keepsDuty_iff _).2 hd⟩⟩
  obtain ⟨_, heq, hduty⟩ := hostIssues_eq_some.1 h
  exact ⟨heq, (keepsDuty_iff t).1 hduty⟩

/-! ## The invariant under inputs -/

/-- Of all that stands outside MSPE, the invariant looks only at what is issued, and there only for the duty. -/
theorem inv_of_inputs {s : State} (hs : s.Inv) {i : Option HostInput} (hduty : HostKeepsDuty { s with issued := i })
    (q : List HostInput) (r : List RxAnswer) (w : List TxAnswer) (o : List OpenAnswer) :
    { s with issued := i, hostq := q, rx := r, tx := w, opens := o }.Inv := by
  obtain ⟨hframe, hstatus, hruns, hport, _⟩ := (inv_iff s).1 hs
  exact (inv_iff _).2 ⟨hframe, hstatus, hruns, hport, hduty⟩

/-- Settles O58: plans and answers leave what is issued (`inv_of_inputs`), and what the host issues keeps its duty
(`hostIssues_eq_some`). -/
theorem inputsKeepInv : Obligations.InputsKeepInv := by
  intro s hs
  obtain ⟨_, _, _, _, hduty⟩ := (inv_iff s).1 hs
  refine ⟨fun x t h => ?_, fun _ => inv_of_inputs hs hduty _ _ _ _, fun _ => inv_of_inputs hs hduty _ _ _ _,
    fun _ => inv_of_inputs hs hduty _ _ _ _, fun _ => inv_of_inputs hs hduty _ _ _ _⟩
  obtain ⟨_, rfl, hduty'⟩ := hostIssues_eq_some.1 h
  exact inv_of_inputs hs hduty' _ _ _ _

end Sys2Proof.Proofs
end

section
/-! Reset and hazards (70_reset_and_hazards.md): the idle step (R231), a reset on a free machine and over an operation that waits
(R230), and DECs that skip stray bytes (R237). -/

namespace Sys2Proof.Proofs

open Sys2Proof Sys2Proof.Machine Sys2Proof.Laws Sys2Proof.Claims

/-! ## Nothing to do -/

theorem nextInput_none {s : State} (hi : s.issued = none) (hq : s.hostq = []) : nextInput s = none := by
  simp [nextInput, hi, hq]

/-- Settles O9: a free machine that no input reaches (`nextInput_none`) is idle. -/
theorem stepIdlesWithoutInput : Obligations.StepIdlesWithoutInput := by
  intro s hp hi hq
  simp [step, nextWork, takeInput, hp, nextInput_none hi hq]

/-! ## A reset lands -/

theorem step_takes_reset {s u : State} (htakes : Takes .reset s u) : step s = .next (machineReset u) := by
  simp [step, nextWork, takeInput, htakes.1, nextInput_of_takes htakes]

/-- Over a waiting operation it lands where no answer has arrived (log 7). -/
theorem step_reset_over_wait {s : State} {p : Pending} (hi : s.issued = some .reset) (hp : s.pending = some p)
    (ha : answerArrived p s = false) : step s = .next (machineReset { s with issued := none }) := by
  simp [step, nextWork, duringWait, hi, hp, ha]

/-- Settles O11: either way the machine is reset (`step_takes_reset`, `step_reset_over_wait`) from a state that differs from `s`
in the input taken only. -/
theorem resetStepResets : Obligations.ResetStepResets := by
  intro s u h
  obtain ⟨hstep, q, rfl⟩ : step s = .next (machineReset u) ∧ ∃ q, u = { s with issued := none, hostq := q } := by
    rcases h with htakes | ⟨hi, rfl, p, hp, ha⟩
    · exact ⟨step_takes_reset htakes, nextInput_taken (nextInput_of_takes htakes)⟩
    · exact ⟨step_reset_over_wait hi hp ha, s.hostq, rfl⟩
  exact ⟨_, hstep, rfl, rfl, rfl, rfl, rfl, rfl, rfl, rfl, rfl, rfl, rfl, rfl, rfl, rfl, rfl, rfl⟩

/-! ## DECs over stray bytes -/

theorem decodeCommand_dec : decodeCommand ⟨0x2000#16, []⟩ = .instr .dec := by decide

/-- A free machine that takes a DEC at a stray byte consumes that byte and answers with it (R121). -/
theorem step_takes_dec_stray {s u : State} {b : Byte} {rest : List RxAnswer} (htakes : Takes (.op ⟨0x2000#16, []⟩) s u)
    (hf : u.faulted = false) (ha : u.attached = true) (hb : b ≠ 0x24#8) (hrx : u.rx = .byte b :: rest) :
    ∃ t, step s = .next t ∧ DecError 0x11#8 ⟨0, [], 0, 0, b, .marker⟩ t ∧ Consumed 1 rest u t := by
  rw [step_takes_instr htakes decodeCommand_dec]
  exact (decFirstReadDecides u rest hf ha).1 b hb hrx

/-- Settles O35, by induction on the stray bytes: each DEC consumes the first one and leaves a free machine before the others
(`step_takes_dec_stray`); the last one's error stands at the end. -/
theorem repeatedDecSkipsStrayBytes : Obligations.RepeatedDecSkipsStrayBytes := by
  intro stray
  induction stray with
  | nil => exact fun _ _ _ _ _ _ _ hne => absurd rfl hne
  | cons b bs ih =>
    intro s t rest q hp hf ha _ hstray hrx hi hq hrun
    obtain ⟨hb, hbs⟩ := List.forall_mem_cons.1 hstray
    obtain ⟨u, hu, hrun⟩ := run_succ hrun
    obtain ⟨v, hv, herr, ⟨ha', _, _, hf', hi', hq', _, _, hp'⟩, hpos, hrx'⟩ :=
      step_takes_dec_stray ⟨hp, Or.inr ⟨hi, _, hq, rfl⟩⟩ hf ha hb hrx
    obtain rfl : v = u := Host.Outcome.next.inj (hv.symm.trans hu)
    cases bs with
    | nil =>
      obtain rfl : v = t := Host.Outcome.next.inj hrun
      exact ⟨hrx', hq', hpos, hp', ha'.trans ha, herr⟩
    | cons c cs =>
      obtain ⟨hrxt, hqt, hpost, hlast⟩ := ih v t rest q hp' (hf'.trans hf) (ha'.trans ha) (List.cons_ne_nil c cs) hbs hrx'
        (hi'.trans hi) hq' hrun
      refine ⟨hrxt, hqt, ?_, hlast⟩
      rw [hpost, hpos, Nat.add_assoc, Nat.add_comm 1]
      rfl

end Sys2Proof.Proofs
end
